-- ==== Sys2Proof/Word.lean ====
section
/-! DEFINITION. The word types of PKMCODEC: every value is an unsigned integer of a stated width or a finite
string of bytes (R6 of `00_scope.md`). -/

namespace Sys2Proof

/-- One byte of `REC` or `AUX` (R21, R22). -/
abbrev Byte := BitVec 8

/-- A 32-bit word: a command word, a register on the host bus, a word of `SCHROM` (R23, R24). -/
abbrev Word := BitVec 32

end Sys2Proof
end

