-- ==== Sys2Proof/Machine/Bytes.lean ====
section
/-! DEFINITION. Byte strings and their values: the notation of R7 of `00_scope.md`. -/

namespace Sys2Proof.Machine

/-- `Zeros(n)`. -/
def zeros (n : Nat) : List Byte := List.replicate n 0

/-- `le(s)`: the value of a byte string, lowest address least significant. -/
def le : List Byte → Nat
  | [] => 0
  | b :: bs => b.toNat + 256 * le bs

/-- `be(s)`: the value of a byte string, lowest address most significant. -/
def be (bs : List Byte) : Nat := le bs.reverse

/-- `LE_n(v)`: the `n` bytes with `le(LE_n(v)) = v`, for `v < 256^n`. -/
def leBytes : Nat → Nat → List Byte
  | 0, _ => []
  | n + 1, v => BitVec.ofNat 8 v :: leBytes n (v / 256)

/-- `BE_n(v)`: the `n` bytes with `be(BE_n(v)) = v`, for `v < 256^n`. -/
def beBytes (n v : Nat) : List Byte := (leBytes n v).reverse

/-- The `n` bytes a byte-addressed storage `f` holds from address `a`. -/
def readRun (f : Nat → Byte) (a : Nat) : Nat → List Byte
  | 0 => []
  | n + 1 => f a :: readRun f (a + 1) n

/-- `Pad2(b)`: a zero byte appended to a string of odd length (R120 of `42_checksum.md`). -/
def pad2 (b : List Byte) : List Byte := b ++ zeros (b.length % 2)

/-- `Pad4(b)`: zero bytes appended up to the next multiple of 4 (R131 of `43_cipher.md`). -/
def pad4 (b : List Byte) : List Byte := b ++ zeros ((4 - b.length % 4) % 4)

end Sys2Proof.Machine
end

