-- ==== Sys2Proof/Machine/Checksum.lean ====
section
/-! DEFINITION. The 16-bit word sum (R120 of `42_checksum.md`). -/

namespace Sys2Proof.Machine

/-- The sum modulo 2^16 of the little-endian 16-bit words of a byte string of even length (R120, R52). -/
def wordSum : List Byte → BitVec 16
  | lo :: hi :: rest => BitVec.ofNat 16 (lo.toNat + 256 * hi.toNat) + wordSum rest
  | _ => 0

/-- `Sum16(b)`: a zero byte appended to a string of odd length, then the word sum (R120). -/
def sum16 (b : List Byte) : BitVec 16 := wordSum (pad2 b)

end Sys2Proof.Machine
end

