-- ==== Sys2Proof/Machine/Cipher.lean ====
section
/-! DEFINITION. The primitives of the cipher: block shuffle and keyed XOR stream (R131 to R139 of
`43_cipher.md`). There is one cipher for both generations (R146). -/

namespace Sys2Proof.Machine

/-- `ShiftOf(pv) = ((pv >> 13) & 0x1F) % 24` (R132). -/
def shiftOf (pv : BitVec 32) : Nat := ((pv.toNat >>> 13) &&& 0x1F) % 24

/-- `Digits(t)`: `(t / 6, (t % 6) / 2, (t % 6) % 2, 0)`, for `t ≤ 23` (R133). -/
def digits (t : Nat) : List Nat := [t / 6, t % 6 / 2, t % 6 % 2, 0]

/-- The blocks popped in turn at the given indices, concatenated (R134). -/
def popAll : List Nat → List (List Byte) → List Byte
  | [], _ => []
  | d :: ds, blocks => blocks.getD d [] ++ popAll ds (blocks.eraseIdx d)

/-- The four blocks of `n` bytes of a byte string of `4n` bytes (R134). -/
def fourBlocks (n : Nat) (b : List Byte) : List (List Byte) :=
  [b.take n, (b.drop n).take n, (b.drop (2 * n)).take n, (b.drop (3 * n)).take n]

/-- `PopSeq(t, b)`, which is also `Shuffle(t, b)`, for `t ≤ 23` (R134). -/
def popSeq (t : Nat) (b : List Byte) : List Byte :=
  popAll (digits t) (fourBlocks ((pad4 b).length / 4) (pad4 b))

/-- The inverse-shift table `INV` (R136; the counts of the source are resolved in C1 of `90_conflicts.md`). -/
def invTable : List Nat :=
  [0, 1, 2, 4, 3, 5, 6, 7, 12, 18, 13, 19, 8, 10, 14, 20, 16, 22, 9, 11, 15, 21, 17, 23]

/-- `Unshuffle(t, b) = PopSeq(INV[t], b)` (R137). -/
def unshuffle (t : Nat) (b : List Byte) : List Byte := popSeq (invTable.getD t 0) b

/-- `LcgNext(s) = (0x41C64E6D * s + 0x6073) % 2^32` (R138). -/
def lcgNext (s : BitVec 32) : BitVec 32 := 0x41C64E6D * s + 0x6073

/-- `LcgXor(seed, b)`: the generator is advanced once for each 16-bit word, and the upper half of its new state is
exclusive-ored into the word, low byte with low byte (R139, R52). Only strings of even length arise (log 10). -/
def lcgXor : BitVec 32 → List Byte → List Byte
  | s, lo :: hi :: rest =>
    (lo ^^^ (lcgNext s).extractLsb' 16 8) :: (hi ^^^ (lcgNext s).extractLsb' 24 8) :: lcgXor (lcgNext s) rest
  | _, rest => rest

end Sys2Proof.Machine
end

