-- ==== Sys2Proof/Syntax.lean ====
section
/-! DEFINITION. The thirteen commands of PKMCODEC (R71 of `30_encoding.md`), the registers the host names, and
the accesses the host can make (R39, R40 of `10_state.md`). -/

namespace Sys2Proof

/-- A command, one constructor for each row of the opcode table. The only operand a command word carries is the
16-bit field identifier of LOOKUP, GET and SET, of which every value is legal (R70, R72 of `30_encoding.md`). -/
inductive Instr where
  /-- CLRERR, op 0x01 (R165). -/
  | clrerr
  /-- BLANK, op 0x02 (R100). -/
  | blank
  /-- RESOLVE, op 0x03 (R160). -/
  | resolve
  /-- PARSE, op 0x04 (R101). -/
  | parse
  /-- LOOKUP `fid`, op 0x05 (R93). -/
  | lookup (fid : BitVec 16)
  /-- GET `fid`, op 0x06 (R102). -/
  | get (fid : BitVec 16)
  /-- SET `fid`, op 0x07 (R107). -/
  | set (fid : BitVec 16)
  /-- SERIALIZE, op 0x08 (R112). -/
  | serialize
  /-- CHECK, op 0x09 (R121). -/
  | check
  /-- ENCRYPT, op 0x0A (R141). -/
  | encrypt
  /-- DECRYPT, op 0x0B (R142). -/
  | decrypt
  /-- TENCRYPT, op 0x0C (R143). -/
  | tencrypt
  /-- TDECRYPT, op 0x0D (R144). -/
  | tdecrypt
  deriving DecidableEq, Repr

/-- The registers of the register block (R40 of `10_state.md`). -/
inductive Reg where
  | cmd
  | status
  | errinfo
  | gen
  | rlen
  | schsel
  | val
  | alen
  | cksum
  | dsc0
  | dsc1
  deriving DecidableEq, Repr

/-- One access of the host, at a byte address of its address space (R39, R40 of `10_state.md`). Only the two
widths that are legal somewhere exist (R56 of `20_memory.md`); a legal width at the wrong place is refused. -/
inductive Access where
  /-- Read 32 bits. -/
  | read32 (addr : Nat)
  /-- Write 32 bits. -/
  | write32 (addr : Nat) (data : Word)
  /-- Read 8 bits. -/
  | read8 (addr : Nat)
  /-- Write 8 bits. -/
  | write8 (addr : Nat) (data : Byte)
  deriving DecidableEq, Repr

/-- Why a command word is not legal (R72 of `30_encoding.md`). The engine reports all three the same way
(`IllegalCommand`, R166 of `45_system.md`). -/
inductive IllegalWord where
  /-- `op` is 0x00 or 0x0E to 0xFF. -/
  | opcode
  /-- `rsv`, bits 15:8, is not 0. -/
  | reservedBits
  /-- Bits 31:16 are not 0 on a command that takes no `fid`. -/
  | unexpectedFid
  deriving DecidableEq, Repr

end Sys2Proof
end

