-- ==== Sys2Proof/WellFormed.lean ====
section
/-! DEFINITION. Which 32-bit words are legal commands, read from the mask and match pairs of R71 and from R72 of
`30_encoding.md`, without the decoder. A term of `Instr` itself can hold nothing illegal: its one operand, `fid`,
is a 16-bit value of which R72 makes every value legal. -/

namespace Sys2Proof

/-- The opcode field of a command word, bits 7:0 (R70). -/
def opField (w : Word) : BitVec 8 := w.extractLsb' 0 8

/-- The reserved field of a command word, bits 15:8 (R70). -/
def rsvField (w : Word) : BitVec 8 := w.extractLsb' 8 8

/-- The `fid` field of a command word, bits 31:16 (R70). -/
def fidField (w : Word) : BitVec 16 := w.extractLsb' 16 16

/-- `op` is one of 0x01 to 0x0D (R72). -/
def opLegal (w : Word) : Bool := 0x01 ≤ (opField w).toNat && (opField w).toNat ≤ 0x0D

/-- `op` is LOOKUP, GET or SET, the commands that take a `fid` (R71). -/
def takesFid (w : Word) : Bool := 0x05 ≤ (opField w).toNat && (opField w).toNat ≤ 0x07

/-- A command word is legal: its opcode is, `rsv` is 0, and `fid` is 0 unless the command takes one (R72). -/
def legalWord (w : Word) : Bool :=
  opLegal w && rsvField w == 0 && (takesFid w || fidField w == 0)

end Sys2Proof
end

