-- ==== Sys2Proof/Decode.lean ====
section
/-! DEFINITION. The decoder of command words, total and rejecting by name, and the encoder (R70 to R73 of
`30_encoding.md`). -/

namespace Sys2Proof

/-- A command that takes no `fid`: bits 31:16 must be 0 (R72). -/
def plainCommand (w : Word) (i : Instr) : Except IllegalWord Instr :=
  if fidField w = 0 then .ok i else .error .unexpectedFid

/-- The command a word stands for, or why it is not legal (R70 to R73). -/
def decode (w : Word) : Except IllegalWord Instr :=
  if rsvField w = 0 then
    match (opField w).toNat with
    | 0x01 => plainCommand w .clrerr
    | 0x02 => plainCommand w .blank
    | 0x03 => plainCommand w .resolve
    | 0x04 => plainCommand w .parse
    | 0x05 => .ok (.lookup (fidField w))
    | 0x06 => .ok (.get (fidField w))
    | 0x07 => .ok (.set (fidField w))
    | 0x08 => plainCommand w .serialize
    | 0x09 => plainCommand w .check
    | 0x0A => plainCommand w .encrypt
    | 0x0B => plainCommand w .decrypt
    | 0x0C => plainCommand w .tencrypt
    | 0x0D => plainCommand w .tdecrypt
    | _ => .error .opcode
  else .error .reservedBits

/-- The opcode of a command (R71). -/
def opcodeOf : Instr → BitVec 8
  | .clrerr => 0x01
  | .blank => 0x02
  | .resolve => 0x03
  | .parse => 0x04
  | .lookup _ => 0x05
  | .get _ => 0x06
  | .set _ => 0x07
  | .serialize => 0x08
  | .check => 0x09
  | .encrypt => 0x0A
  | .decrypt => 0x0B
  | .tencrypt => 0x0C
  | .tdecrypt => 0x0D

/-- The `fid` field of a command: its operand, or 0 where it takes none (R70). -/
def fidOf : Instr → BitVec 16
  | .lookup fid => fid
  | .get fid => fid
  | .set fid => fid
  | .clrerr => 0
  | .blank => 0
  | .resolve => 0
  | .parse => 0
  | .serialize => 0
  | .check => 0
  | .encrypt => 0
  | .decrypt => 0
  | .tencrypt => 0
  | .tdecrypt => 0

/-- The command word of a command: `fid` in bits 31:16, 0 in bits 15:8, `op` in bits 7:0 (R70). -/
def encode (i : Instr) : Word := (fidOf i).setWidth 32 <<< 16 ||| (opcodeOf i).setWidth 32

/-- The instruction the decoder reads from a row's bits, numbered as the opcode table numbers them. -/
def decodeTableWord (nbits w : Nat) : Option Instr :=
  match decode (BitVec.ofNat 32 (w % 2 ^ nbits)) with
  | .ok i => some i
  | .error _ => none

end Sys2Proof
end

