-- ==== Sys2Proof/Config.lean ====
section
/-! DEFINITION. What an instance of PKMCODEC fixes (R5 of `00_scope.md`), the free values of the bytes nothing
has written (R41 of `10_state.md`), and the instance of the spec's test vectors. -/

namespace Sys2Proof

/-- The implementation parameters (R5 of `00_scope.md`) and the platform's window offsets (R40 of `10_state.md`).
Which values are an instance of the hardware is `configOk` (`Machine/Schema.lean`). -/
structure Config where
  /-- `RECMAX`, capacity of `REC` in bytes. -/
  recMax : Nat
  /-- `AUXMAX`, capacity of `AUX` in bytes. -/
  auxMax : Nat
  /-- `SCHROM`, the word image of R75 of `30_encoding.md`; `NSCH` is its word 0. -/
  schrom : List Word
  /-- `BASE`, the byte address at which the host sees the register block. -/
  base : Nat
  /-- Offset of the `REC` window; 0x1000 unless the instance does not fit the map of R40 (log 7). -/
  recWindow : Nat
  /-- Offset of the `AUX` window; 0x4000 unless the instance does not fit the map of R40 (log 7). -/
  auxWindow : Nat
  /-- Offset of the `SCHROM` window; 0x8000 unless the instance does not fit the map of R40 (log 7). -/
  romWindow : Nat
  deriving DecidableEq, Repr

/-- FREE VALUE: what `REC[a]` holds after reset and until it is written, R41 of `10_state.md`: "each byte holds
some value, unknown, which stays the same until the byte is written" (log 1, safe). -/
opaque Config.unwrittenRec : Nat → Byte

/-- FREE VALUE: what `AUX[a]` holds after reset and until it is written, R41 of `10_state.md` (log 1, safe). -/
opaque Config.unwrittenAux : Nat → Byte

/-- Schema 0 of TESTROM (TS0, boxed, generation 4 style), words 1 to 37 (section 1 of `95_test_vectors.md`). -/
def Config.testSchema0 : List Word :=
  [0x00040088, 0x00880088, 0x00000011, 0x00000001, 0x00000004, 0x00060002, 0x00000002, 0x00080003,
   0x00000002, 0x00100004, 0x00000004, 0x00180005, 0x00000001, 0x00380010, 0x0A010004, 0x00380011] ++
  [0x0A510004, 0x00380012, 0x0AA10004, 0x00380013, 0x0AF10004, 0x00380014, 0x0B410004, 0x00380015,
   0x0B910004, 0x00380016, 0x03E10004, 0x00380017, 0x03F10004, 0x00480020, 0x0002000B, 0x00780021] ++
  [0x00030008, 0x00400030, 0x04110001, 0x008600FF, 0x00000004]

/-- Schema 1 of TESTROM (TS1, boxed, generation 5 style), words 38 to 74 (section 1 of `95_test_vectors.md`). -/
def Config.testSchema1 : List Word :=
  [0x00050088, 0x00880088, 0x00000011, 0x00000001, 0x00000004, 0x00060002, 0x00000002, 0x00080003,
   0x00000002, 0x00100004, 0x00000004, 0x00180005, 0x00000001, 0x00380010, 0x0A050004, 0x00380011] ++
  [0x0A550004, 0x00380012, 0x0AA50004, 0x00380013, 0x0AF50004, 0x00380014, 0x0B450004, 0x00380015,
   0x0B950004, 0x00380016, 0x03E50004, 0x00380017, 0x03F50004, 0x00480020, 0x000A000B, 0x00780021] ++
  [0x00030008, 0x00400030, 0x04110001, 0x008600FF, 0x00000004]

/-- Schema 2 of TESTROM (TS2, party), words 75 to 115 (section 1 of `95_test_vectors.md`). -/
def Config.testSchema2 : List Word :=
  [0x0104009C, 0x009C0088, 0x00000013, 0x00000001, 0x00000004, 0x00060002, 0x00000002, 0x00080003,
   0x00000002, 0x00100004, 0x00000004, 0x00180005, 0x00000001, 0x00380010, 0x0A010004, 0x00380011] ++
  [0x0A510004, 0x00380012, 0x0AA10004, 0x00380013, 0x0AF10004, 0x00380014, 0x0B410004, 0x00380015,
   0x0B910004, 0x00380016, 0x03E10004, 0x00380017, 0x03F10004, 0x00480020, 0x0002000B, 0x00780021] ++
  [0x00030008, 0x00400030, 0x04110001, 0x008600FF, 0x00000004, 0x008C0040, 0x00000001, 0x008E0041,
   0x00000002]

/-- Schema 3 of TESTROM (TS3, tiny, payload 4 bytes), words 116 to 124 (section 1 of `95_test_vectors.md`). -/
def Config.testSchema3 : List Word :=
  [0x0204000C, 0x000C000C, 0x00000003, 0x00000001, 0x00000004, 0x00060002, 0x00000002, 0x00080050,
   0x00030004]

/-- Schema 4 of TESTROM (TS4, tiny, payload 10 bytes), words 125 to 133 (section 1 of `95_test_vectors.md`). -/
def Config.testSchema4 : List Word :=
  [0x02050012, 0x00120012, 0x00000003, 0x00000001, 0x00000004, 0x00060002, 0x00000002, 0x00080050,
   0x0003000A]

/-- Schema 5 of TESTROM (TS5, tiny, tail 9 bytes), words 134 to 138 (section 1 of `95_test_vectors.md`). -/
def Config.testSchema5 : List Word :=
  [0x0105001E, 0x001B0012, 0x00000001, 0x00000001, 0x00000004]

/-- `TESTROM`: six schemas made up for the spec's vectors (section 1 of `95_test_vectors.md`). -/
def Config.testRom : List Word :=
  [0x00000006] ++ Config.testSchema0 ++ Config.testSchema1 ++ Config.testSchema2 ++ Config.testSchema3 ++
    Config.testSchema4 ++ Config.testSchema5

/-- The instance every vector of the spec uses: `RECMAX = 512`, `AUXMAX = 256`, `SCHROM = TESTROM` (R5).
DESIGN CHOICE: `State.reset` has this instance (log 3), with `BASE = 0` (log 4). -/
def Config.testInstance : Config :=
  { recMax := 512, auxMax := 256, schrom := Config.testRom, base := 0
    recWindow := 0x1000, auxWindow := 0x4000, romWindow := 0x8000 }

end Sys2Proof
end

