-- ==== Sys2Proof/Machine/State.lean ====
section
/-! DEFINITION. The whole state of one PKMCODEC instance (R20 of `10_state.md`), its error codes (R170 of
`60_exceptions.md`), why a step can stop, and the state after reset (R41). -/

namespace Sys2Proof.Machine

/-- A byte buffer: the bytes that have been written, by address, addresses strictly rising. A byte not listed has
not been written since reset; what it reads as is said by `State.recByte` and `State.auxByte` (log 1). -/
abbrev Memory := List Host.Cell

/-- The error names (R170 of `60_exceptions.md`). -/
inductive ErrCode where
  | lengthMismatch
  | outOfRange
  | unknownField
  /-- Kept for host software; the engine never raises it (R181). -/
  | unmappableCharacter
  | unsupportedLength
  | illegalCommand
  | badSchema
  | valueRange
  deriving DecidableEq, Repr

/-- Why the machine stops with a fault. -/
inductive Fault where
  /-- A command that needs a bound record, with `STATUS.BOUND = 1` although the meaning of that bit does not hold
  (R37 of `10_state.md`): `SCHSEL` selects no well-formed schema of size `RLEN`. Raised by `performBound`.
  SAFE: no run reaches such a state (log 5). -/
  | boundBroken
  deriving DecidableEq, Repr

/-- Why a step has no meaning. -/
inductive Refusal where
  /-- An instruction that has no meaning yet. No arm of `exec` raises it. SAFE. -/
  | notModelled (mnemonic : String)
  /-- The parameters are not an instance of the hardware (R75 of `30_encoding.md`; U5 of
  `93_implementation_defined.md`: "reject the configuration"). Raised by `perform`. SAFE (log 6). -/
  | notAnInstance
  /-- A host access of a width or alignment other than the one legal at its address (R56 of `20_memory.md`;
  U6). Raised by `perform`. SAFE (log 8). -/
  | badAccess
  /-- A host access to an address that is not this device's (U7 of `93_implementation_defined.md`). Raised by
  `perform`. SAFE (log 7). -/
  | outsideDevice
  deriving DecidableEq, Repr

/-- The state of one instance (R20 of `10_state.md`), the parameters it is an instance of (R5), and the host's
side of the interface. -/
structure State where
  /-- The parameters of the instance (R5 of `00_scope.md`). No step changes them (log 3). -/
  cfg : Config
  /-- `REC` (R21). -/
  recBuf : Memory
  /-- `AUX` (R22). -/
  auxBuf : Memory
  /-- `STATUS.ERR` (R25). -/
  err : BitVec 4
  /-- `STATUS.BOUND` (R25, R37). -/
  bound : Bool
  /-- `STATUS.CKOK` (R25, R36). -/
  ckok : Bool
  /-- `ERRINFO` (R26). -/
  errinfo : Word
  /-- `GEN` (R27). -/
  gen : BitVec 8
  /-- `RLEN` (R28). -/
  rlen : BitVec 16
  /-- `SCHSEL` (R29). -/
  schsel : BitVec 16
  /-- `VAL` (R30). -/
  val : Word
  /-- `ALEN` (R31). -/
  alen : BitVec 16
  /-- `CKSUM` (R32). -/
  cksum : BitVec 16
  /-- `DSC0` (R33). -/
  dsc0 : Word
  /-- `DSC1` (R33). -/
  dsc1 : Word
  /-- The MODEL's own field: the accesses the host is still to make, the next one first (R39, R61; log 2). -/
  host : List Access
  /-- The MODEL's own field: what the host's reads have returned, newest first (R39; log 2). -/
  replies : List Word
  deriving DecidableEq, Repr

/-- The state of any instance right after reset (R41 of `10_state.md`, R190 of `70_reset_and_hazards.md`). -/
def State.resetOf (c : Config) : State :=
  { cfg := c
    recBuf := [], auxBuf := []
    err := 0, bound := false, ckok := false, errinfo := 0
    gen := 0, rlen := 0, schsel := 0, val := 0, alen := 0, cksum := 0, dsc0 := 0, dsc1 := 0
    host := [], replies := [] }

/-- The machine right after reset, for the instance of the spec's test vectors (log 3). -/
def State.reset : State := State.resetOf Config.testInstance

end Sys2Proof.Machine
end

