-- ==== Sys2Proof/Machine/Flags.lean ====
section
/-! DEFINITION. The status register and the error codes it holds (R25, R36 of `10_state.md`; R170 of
`60_exceptions.md`). -/

namespace Sys2Proof.Machine

/-- The number of an error, as `STATUS.ERR` holds it (R170). -/
def ErrCode.code : ErrCode → BitVec 4
  | .lengthMismatch => 1
  | .outOfRange => 2
  | .unknownField => 3
  | .unmappableCharacter => 4
  | .unsupportedLength => 5
  | .illegalCommand => 6
  | .badSchema => 7
  | .valueRange => 8

/-- A flag as one bit. -/
def flagBit (b : Bool) : BitVec 1 := if b then 1 else 0

/-- `STATUS` as the host reads it: `ERR` in bits 3:0, `BOUND` in bit 4, `CKOK` in bit 5, zero above (R25). -/
def State.status (s : State) : Word :=
  s.err.setWidth 32 ||| (flagBit s.bound).setWidth 32 <<< 4 ||| (flagBit s.ckok).setWidth 32 <<< 5

end Sys2Proof.Machine
end

