-- ==== Sys2Proof/Machine/Memory.lean ====
section
/-! DEFINITION. The byte buffers as data: the bytes written so far, by strictly rising address. A write lists its
byte whatever its value, because an unlisted byte has no known value that a written one could equal (log 1). -/

namespace Sys2Proof.Machine

/-- The byte written at an address, if one has been. -/
def Memory.lookup : Memory → Nat → Option Byte
  | [], _ => none
  | (k, b) :: m, a => if a = k then some b else Memory.lookup m a

/-- One byte written, in place or where its address belongs. -/
def Memory.write : Memory → Nat → Byte → Memory
  | [], a, v => [(a, v)]
  | (k, b) :: m, a, v =>
    if a < k then (a, v) :: (k, b) :: m
    else if a = k then (a, v) :: m
    else (k, b) :: Memory.write m a v

/-- A byte string written from an address on. -/
def Memory.writeBytes : Memory → Nat → List Byte → Memory
  | m, _, [] => m
  | m, a, b :: bs => Memory.writeBytes (Memory.write m a b) (a + 1) bs

/-- Every listed address lies at or above `lo`, and the addresses rise strictly. -/
def Memory.risesFrom : Nat → Memory → Bool
  | _, [] => true
  | lo, (k, _) :: m => decide (lo ≤ k) && Memory.risesFrom (k + 1) m

/-- The canonical form: addresses strictly rising, so that no address is listed twice. -/
def Memory.wf (m : Memory) : Bool := Memory.risesFrom 0 m

/-- Every listed address exists in a buffer of `n` bytes (R21, R22 of `10_state.md`). -/
def Memory.within (n : Nat) (m : Memory) : Bool := m.all (fun c => decide (c.1 < n))

end Sys2Proof.Machine
end

