-- ==== Sys2Proof/Machine/Schema.lean ====
section
/-! DEFINITION. The schema memory: its image, headers and descriptors (R75 to R80 of `30_encoding.md`), schema and
field selection (R90, R92 of `40_schema_lookup.md`), and which parameters are an instance (R5 of `00_scope.md`). -/

namespace Sys2Proof.Machine

/-- `Rom(k)`. Words beyond the image are 0 here; no instance has a command that reads one (R75). -/
def romWord (rom : List Word) (k : Nat) : Word := rom.getD k 0

/-- `NSCH`, bits 15:0 of word 0 (R75). -/
def nsch (rom : List Word) : Nat := ((romWord rom 0).extractLsb' 0 16).toNat

/-- `SchemaBase(i)`: the first word of schema `i` (R75). -/
def schemaBase (rom : List Word) : Nat → Nat
  | 0 => 1
  | i + 1 => schemaBase rom i + 3 + 2 * ((romWord rom (schemaBase rom i + 2)).extractLsb' 0 16).toNat

/-- A schema header, the three words of R76, with the word at which it starts. -/
structure Header where
  /-- `SchemaBase` of the schema. -/
  start : Nat
  /-- `size`, H0 bits 15:0. -/
  size : Nat
  /-- `gen`, H0 bits 23:16. -/
  gen : BitVec 8
  /-- `kind`, H0 bits 25:24. -/
  kind : BitVec 2
  /-- H0 bits 31:26, must be 0. -/
  rsv0 : BitVec 6
  /-- `pay_end`, H1 bits 15:0. -/
  payEnd : Nat
  /-- `tail_end`, H1 bits 31:16. -/
  tailEnd : Nat
  /-- `nfields`, H2 bits 15:0. -/
  nfields : Nat
  /-- H2 bits 31:16, must be 0. -/
  rsv2 : BitVec 16
  deriving DecidableEq, Repr

/-- The header whose three words start at word `p` (R76, R90). -/
def headerAt (rom : List Word) (p : Nat) : Header :=
  { start := p
    size := ((romWord rom p).extractLsb' 0 16).toNat
    gen := (romWord rom p).extractLsb' 16 8
    kind := (romWord rom p).extractLsb' 24 2
    rsv0 := (romWord rom p).extractLsb' 26 6
    payEnd := ((romWord rom (p + 1)).extractLsb' 0 16).toNat
    tailEnd := ((romWord rom (p + 1)).extractLsb' 16 16).toNat
    nfields := ((romWord rom (p + 2)).extractLsb' 0 16).toNat
    rsv2 := (romWord rom (p + 2)).extractLsb' 16 16 }

/-- `Schema(i)` for `i < NSCH`; it does not exist for other `i` (R90). -/
def schemaAt (rom : List Word) (i : Nat) : Option Header :=
  if i < nsch rom then some (headerAt rom (schemaBase rom i)) else none

/-- `HdrOK`: the header is well-formed (R80). -/
def hdrOk (recMax : Nat) (h : Header) : Bool :=
  h.rsv0 == 0 && h.rsv2 == 0 &&
    decide (8 ≤ h.payEnd) && decide (h.payEnd ≤ h.tailEnd) && decide (h.tailEnd ≤ h.size) && decide (h.size ≤ recMax)

/-- The `encoding` of a field, D1 bits 17:16 (R77). -/
inductive DKind where
  | int
  | bits
  | str
  | raw
  deriving DecidableEq, Repr

/-- A descriptor: its two words and their fields (R77). -/
structure Desc where
  /-- The word D0 as stored. -/
  d0 : Word
  /-- The word D1 as stored. -/
  d1 : Word
  /-- `fid`, D0 bits 15:0. -/
  fid : BitVec 16
  /-- `off`, D0 bits 31:16. -/
  off : Nat
  /-- `width`, D1 bits 15:0. -/
  width : Nat
  /-- `dkind`, D1 bits 17:16. -/
  dkind : DKind
  /-- `be`, D1 bit 18. -/
  be : Bool
  /-- `pad`, D1 bit 19. -/
  pad : Bool
  /-- `bshift`, D1 bits 24:20. -/
  bshift : Nat
  /-- `bwidth`, D1 bits 30:25. -/
  bwidth : Nat
  /-- D1 bit 31, must be 0. -/
  rsv : Bool
  deriving DecidableEq, Repr

/-- The meaning of `dkind`: 0 INT, 1 BITS, 2 STR, 3 RAW (R77). -/
def dkindOf (b : BitVec 2) : DKind :=
  if b = 0 then .int else if b = 1 then .bits else if b = 2 then .str else .raw

/-- The descriptor two words hold (R77). -/
def descOf (d0 d1 : Word) : Desc :=
  { d0 := d0
    d1 := d1
    fid := d0.extractLsb' 0 16
    off := (d0.extractLsb' 16 16).toNat
    width := (d1.extractLsb' 0 16).toNat
    dkind := dkindOf (d1.extractLsb' 16 2)
    be := d1.getLsbD 18
    pad := d1.getLsbD 19
    bshift := (d1.extractLsb' 20 5).toNat
    bwidth := (d1.extractLsb' 25 6).toNat
    rsv := d1.getLsbD 31 }

/-- Descriptor `k` of a schema (R75, R90). -/
def descAt (rom : List Word) (h : Header) (k : Nat) : Desc :=
  descOf (romWord rom (h.start + 3 + 2 * k)) (romWord rom (h.start + 4 + 2 * k))

/-- `Extent(d)`: the number of bytes of `REC` a field covers (R78). -/
def extent (d : Desc) : Nat :=
  match d.dkind with
  | .str => 2 * d.width
  | .int => d.width
  | .bits => d.width
  | .raw => d.width

/-- `width ∈ {1, 2, 4}`: the widths of integers and containers (R79). -/
def wordWidth (n : Nat) : Bool := n == 1 || n == 2 || n == 4

/-- `DescOK(d)`: the descriptor is well-formed (R79). -/
def descOk (auxMax : Nat) (d : Desc) : Bool :=
  !d.rsv &&
    match d.dkind with
    | .int => wordWidth d.width && !d.be && !d.pad && d.bshift == 0 && d.bwidth == 0
    | .bits =>
      wordWidth d.width && decide (1 ≤ d.bwidth) && decide (d.bwidth ≤ 32) &&
        decide (d.bshift + d.bwidth ≤ 8 * d.width) && !d.pad
    | .str =>
      decide (1 ≤ d.width) && decide (2 * d.width ≤ auxMax) && !d.be && d.bshift == 0 && d.bwidth == 0
    | .raw =>
      decide (1 ≤ d.width) && decide (d.width ≤ auxMax) && !d.be && !d.pad && d.bshift == 0 && d.bwidth == 0

/-- `SelSchema()`: the selected schema, or `BadSchema` (R90). -/
def selSchema (s : State) : Except ErrCode Header :=
  match schemaAt s.cfg.schrom s.schsel.toNat with
  | none => .error .badSchema
  | some h => if hdrOk s.cfg.recMax h then .ok h else .error .badSchema

/-- `FindField(S, f)`: the first descriptor of the schema with this identifier, or `UnknownField` (R92). -/
def findField (rom : List Word) (h : Header) (f : BitVec 16) : Except ErrCode Desc :=
  match (List.range h.nfields).find? (fun k => (descAt rom h k).fid == f) with
  | none => .error .unknownField
  | some k => .ok (descAt rom h k)

/-- The schema of a bound record: what `STATUS.BOUND = 1` means, `SCHSEL < NSCH`, the header well-formed and
`RLEN` its size (R37 of `10_state.md`). -/
def boundHeader (s : State) : Option Header :=
  match schemaAt s.cfg.schrom s.schsel.toNat with
  | none => none
  | some h => if hdrOk s.cfg.recMax h && s.rlen.toNat == h.size then some h else none

/-- The first schema, by index, with this generation and this size (R160 of `44_variant_resolver.md`). -/
def resolveIndex (rom : List Word) (gen : BitVec 8) (size : Nat) : Option Nat :=
  (List.range (nsch rom)).find? fun i =>
    (headerAt rom (schemaBase rom i)).gen == gen && (headerAt rom (schemaBase rom i)).size == size

/-- The image is structurally complete: it has at least `SchemaBase(NSCH)` words, and bits 31:16 of word 0 are
zero (R75; log 6). -/
def romComplete (rom : List Word) : Bool :=
  (romWord rom 0).extractLsb' 16 16 == 0 && decide (schemaBase rom (nsch rom) ≤ rom.length)

/-- The memories fit the windows of the map of R40 of `10_state.md`. -/
def fitsMap (c : Config) : Bool :=
  decide (c.recMax ≤ 0x3000) && decide (c.auxMax ≤ 0x4000) && decide (c.schrom.length ≤ 0x2000)

/-- Two ranges of offsets, each a start and a length, share none. -/
def apart (a n b m : Nat) : Bool := decide (a + n ≤ b) || decide (b + m ≤ a)

/-- The window offsets: those of R40 where the memories fit, else the platform's, where no window may reach into
the register block or into another window and `SCHROM` words are aligned (log 7). -/
def windowsOk (c : Config) : Bool :=
  if fitsMap c then
    c.recWindow == 0x1000 && c.auxWindow == 0x4000 && c.romWindow == 0x8000
  else
    decide (0x2C ≤ c.recWindow) && decide (0x2C ≤ c.auxWindow) && decide (0x2C ≤ c.romWindow) &&
      c.romWindow % 4 == 0 &&
      apart c.recWindow c.recMax c.auxWindow c.auxMax &&
      apart c.recWindow c.recMax c.romWindow (4 * c.schrom.length) &&
      apart c.auxWindow c.auxMax c.romWindow (4 * c.schrom.length)

/-- The parameters are an instance of the hardware: the constraints of R5 of `00_scope.md` (log 6). -/
def configOk (c : Config) : Bool :=
  decide (136 ≤ c.recMax) && decide (c.recMax ≤ 65535) &&
    decide (2 ≤ c.auxMax) && decide (c.auxMax ≤ 65535) && c.auxMax % 2 == 0 &&
    romComplete c.schrom && c.base % 0x10000 == 0 && windowsOk c

end Sys2Proof.Machine
end

