-- ==== Sys2Proof/Machine/Ops.lean ====
section
/-! DEFINITION. The shared operations: access to `REC` and `AUX` (R7 of `00_scope.md`), taking an error and
returning from it (R172, R174 of `60_exceptions.md`), the checks every command is first subject to (R175), and the
replacement of a region of the record (R140 of `43_cipher.md`). -/

namespace Sys2Proof.Machine

/-- What one access or one command ends in. -/
abbrev Result := Host.Outcome State Fault Refusal

/-- `REC[a]`: the byte last written, or the unknown byte that stands there since reset (R21, R41; log 1). -/
def State.recByte (s : State) (a : Nat) : Byte := (s.recBuf.lookup a).getD (Config.unwrittenRec a)

/-- `AUX[a]`: the byte last written, or the unknown byte that stands there since reset (R22, R41; log 1). -/
def State.auxByte (s : State) (a : Nat) : Byte := (s.auxBuf.lookup a).getD (Config.unwrittenAux a)

/-- `MemRead(a, n)`, `REC[a..a+n)` (R7). Every caller establishes `a + n ≤ RECMAX`. -/
def memRead (s : State) (a n : Nat) : List Byte := readRun s.recByte a n

/-- `MemWrite(a, n, bs)` with `n = len(bs)` (R7). Every caller establishes `a + n ≤ RECMAX`. -/
def memWrite (s : State) (a : Nat) (bs : List Byte) : State := { s with recBuf := s.recBuf.writeBytes a bs }

/-- `AuxRead(a, n)` (R7). Every caller establishes `a + n ≤ AUXMAX`. -/
def auxRead (s : State) (a n : Nat) : List Byte := readRun s.auxByte a n

/-- `AuxWrite(a, n, bs)` with `n = len(bs)` (R7). Every caller establishes `a + n ≤ AUXMAX`. -/
def auxWrite (s : State) (a : Nat) (bs : List Byte) : State := { s with auxBuf := s.auxBuf.writeBytes a bs }

/-- `PV = le(REC[0..4))`, the personality value, 32 bits (R59 of `20_memory.md`). -/
def personality (s : State) : BitVec 32 := BitVec.ofNat 32 (le (memRead s 0 4))

/-- The stored checksum, `le(REC[6..8))` (R59). -/
def storedChecksum (s : State) : BitVec 16 := BitVec.ofNat 16 (le (memRead s 6 2))

/-- Error entry: `STATUS.ERR` receives the code and `ERRINFO` the command word, and nothing else changes (R172). -/
def State.raise (s : State) (e : ErrCode) (w : Word) : State := { s with err := e.code, errinfo := w }

/-- Error return: the latch and the recorded word become 0, and nothing else changes (R174; R165 of `45_system.md`). -/
def State.clearError (s : State) : State := { s with err := 0, errinfo := 0 }

/-- The end of a performed command: all the writes of its rule together, or the error it raises with none of
them (R8 of `00_scope.md`, R172). The word recorded is the command's own (log 14). -/
def conclude (i : Instr) (s : State) : Except ErrCode State → Result
  | .ok t => .next t
  | .error e => .next (s.raise e (encode i))

/-- A command that needs no bound record: ignored while an error is latched (R173), else performed (R175). -/
def performFree (i : Instr) (rule : Except ErrCode State) (s : State) : Result :=
  if s.err = 0 then conclude i s rule else .next s

/-- A command that needs a bound record: ignored while an error is latched (R173), `IllegalCommand` without one
(R166 of `45_system.md`), else performed on the bound record's schema (R175, R37). -/
def performBound (i : Instr) (rule : Header → Except ErrCode State) (s : State) : Result :=
  if s.err = 0 then
    if s.bound then
      match boundHeader s with
      | some h => conclude i s (rule h)
      | none => .fault .boundBroken
    else conclude i s (.error .illegalCommand)
  else .next s

/-- `Splice(a, b, new)`: the region `REC[a..b)` is replaced, what followed it up to `RLEN` moves up by the growth,
`RLEN` grows, and a record that grew is no longer bound (R140). Every caller has `b - a ≤ len(new)`. -/
def splice (s : State) (a b : Nat) (new : List Byte) : State :=
  let rest := memRead s b (s.rlen.toNat - b)
  let growth := new.length - (b - a)
  let t := memWrite (memWrite s a new) (a + new.length) rest
  { t with rlen := BitVec.ofNat 16 (s.rlen.toNat + growth), bound := if 0 < growth then false else s.bound }

/-- The check every caller of `Splice` makes first: the record with region `[a, b)` replaced by `n` bytes still
fits `REC` (R140). -/
def fitsRec (s : State) (a b n : Nat) : Bool := decide (s.rlen.toNat + (n - (b - a)) ≤ s.cfg.recMax)

end Sys2Proof.Machine
end

