-- ==== Sys2Proof/Machine/CipherCommands.lean ====
section
/-! DEFINITION. The cipher commands: ENCRYPT, DECRYPT on the payload, TENCRYPT, TDECRYPT on the tail (R141 to R144
of `43_cipher.md`; regions: R130, R58). -/

namespace Sys2Proof.Machine

/-- The region `REC[a..b)` shuffled by the record's own personality value (R132, R134). -/
def shuffledRegion (s : State) (a b : Nat) : List Byte :=
  popSeq (shiftOf (personality s)) (memRead s a (b - a))

/-- The region `REC[a..b)` padded, exclusive-ored with the stream of a seed, then unshuffled (R142, R144). -/
def decipheredRegion (s : State) (seed : BitVec 32) (a b : Nat) : List Byte :=
  unshuffle (shiftOf (personality s)) (lcgXor seed (pad4 (memRead s a (b - a))))

/-- A region replaced by what a cipher command makes of it, or `OutOfRange` where the record would outgrow `REC`
(R140): `before` is the state with the command's other writes done. -/
def replaceRegion (s before : State) (a b : Nat) (new : List Byte) : Except ErrCode State :=
  if fitsRec s a b new.length then .ok (splice before a b new) else .error .outOfRange

/-- ENCRYPT: the payload is shuffled, summed and exclusive-ored with the stream its sum seeds; bytes 4 and 5 of the
header become 0, bytes 6 and 7 and `CKSUM` the sum (R141). -/
def execEncrypt (s : State) : Result :=
  performBound .encrypt
    (fun h =>
      let sh := shuffledRegion s 8 h.payEnd
      let ck := sum16 sh
      let head := { memWrite (memWrite s 4 (zeros 2)) 6 (leBytes 2 ck.toNat) with cksum := ck }
      replaceRegion s head 8 h.payEnd (lcgXor (ck.setWidth 32) sh))
    s

/-- DECRYPT: the payload is exclusive-ored with the stream the stored checksum seeds, then unshuffled; the header is
not written (R142). -/
def execDecrypt (s : State) : Result :=
  performBound .decrypt
    (fun h => replaceRegion s s 8 h.payEnd (decipheredRegion s ((storedChecksum s).setWidth 32) 8 h.payEnd))
    s

/-- TENCRYPT: the tail is shuffled, summed into `CKSUM` and exclusive-ored with the stream the personality value
seeds (R143). -/
def execTencrypt (s : State) : Result :=
  performBound .tencrypt
    (fun h =>
      let sh := shuffledRegion s h.payEnd h.tailEnd
      replaceRegion s { s with cksum := sum16 sh } h.payEnd h.tailEnd (lcgXor (personality s) sh))
    s

/-- TDECRYPT: the inverse of TENCRYPT on the tail (R144). -/
def execTdecrypt (s : State) : Result :=
  performBound .tdecrypt
    (fun h => replaceRegion s s h.payEnd h.tailEnd (decipheredRegion s (personality s) h.payEnd h.tailEnd))
    s

end Sys2Proof.Machine
end

