-- ==== Sys2Proof/Machine/Operands.lean ====
section
/-! DEFINITION. The four operand forms of a field, read (R103 to R106 of `41_record_codec.md`) and written (R108
to R111), and the checks common to both (R102, R107). -/

namespace Sys2Proof.Machine

/-- What a field read gives: a value for `VAL`, or bytes for `AUX` and `ALEN`. -/
inductive FieldValue where
  | number (v : Word)
  | block (bs : List Byte)
  deriving DecidableEq, Repr

/-- The descriptor of a field of a bound record: `UnknownField`, `BadSchema` and `OutOfRange` in this order (R102,
R107). -/
def fieldDesc (s : State) (h : Header) (fid : BitVec 16) : Except ErrCode Desc :=
  match findField s.cfg.schrom h fid with
  | .error e => .error e
  | .ok d =>
    if descOk s.cfg.auxMax d then
      if d.off + extent d ≤ s.rlen.toNat then .ok d else .error .outOfRange
    else .error .badSchema

/-- A container word read in the descriptor's byte order (R51 of `20_memory.md`). -/
def containerValue (bigEndian : Bool) (bs : List Byte) : Nat := if bigEndian then be bs else le bs

/-- A container word written back in the byte order it was read in (R51). -/
def containerBytes (bigEndian : Bool) (n v : Nat) : List Byte := if bigEndian then beBytes n v else leBytes n v

/-- `(word >> bshift) & ((1 << bwidth) - 1)` (R104). -/
def bitField (word bshift bwidth : Nat) : Nat := (word >>> bshift) &&& ((1 <<< bwidth) - 1)

/-- `(word & ~mask) | (v << bshift)` with the complement taken within `nbits` bits (R109). -/
def putBitField (nbits word bshift bwidth v : Nat) : Nat :=
  let mask := ((1 <<< bwidth) - 1) <<< bshift
  (word &&& ((2 ^ nbits - 1) ^^^ mask)) ||| (v <<< bshift)

/-- The number of code units before the terminator 0xFFFF, or all of them (R105). -/
def unitsBeforeTerminator : List Byte → Nat
  | a :: b :: rest => if a = 0xFF ∧ b = 0xFF then 0 else unitsBeforeTerminator rest + 1
  | _ => 0

/-- GET of one field: R103 INT, R104 BITS, R105 STR, R106 RAW. -/
def readField (s : State) (d : Desc) : FieldValue :=
  match d.dkind with
  | .int => .number (BitVec.ofNat 32 (le (memRead s d.off d.width)))
  | .bits =>
    .number (BitVec.ofNat 32 (bitField (containerValue d.be (memRead s d.off d.width)) d.bshift d.bwidth))
  | .str => .block (memRead s d.off (2 * unitsBeforeTerminator (memRead s d.off (2 * d.width))))
  | .raw => .block (memRead s d.off d.width)

/-- Where a field's value goes: a number to `VAL`; bytes to `AUX` from 0 on and their count to `ALEN` (R103 to
R106). -/
def deliver (s : State) : FieldValue → State
  | .number v => { s with val := v }
  | .block bs => { auxWrite s 0 bs with alen := BitVec.ofNat 16 bs.length }

/-- `n` terminators 0xFFFF. -/
def terminators (n : Nat) : List Byte := List.replicate (2 * n) 0xFF

/-- The bytes of a string field of `w` code units holding `n ≤ w` units: under `pad = 0` the terminator repeated,
under `pad = 1` one terminator and then zeros (R110). -/
def padString (pad : Bool) (w n : Nat) (units : List Byte) : List Byte :=
  if n < w then
    if pad then units ++ terminators 1 ++ zeros (2 * (w - n - 1)) else units ++ terminators (w - n)
  else units

/-- The bytes SET writes over a field, or `ValueRange`: R108 INT, R109 BITS, R110 STR, R111 RAW. -/
def fieldBytes (s : State) (d : Desc) : Except ErrCode (List Byte) :=
  match d.dkind with
  | .int => if s.val.toNat < 2 ^ (8 * d.width) then .ok (leBytes d.width s.val.toNat) else .error .valueRange
  | .bits =>
    if s.val.toNat < 2 ^ d.bwidth then
      .ok (containerBytes d.be d.width
        (putBitField (8 * d.width) (containerValue d.be (memRead s d.off d.width)) d.bshift d.bwidth s.val.toNat))
    else .error .valueRange
  | .str =>
    if s.alen.toNat % 2 = 0 ∧ s.alen.toNat ≤ s.cfg.auxMax then
      let n := min (s.alen.toNat / 2) d.width
      .ok (padString d.pad d.width n (auxRead s 0 (2 * n)))
    else .error .valueRange
  | .raw => if s.alen.toNat = d.width then .ok (auxRead s 0 d.width) else .error .valueRange

end Sys2Proof.Machine
end

