-- ==== Sys2Proof/Machine/Codec.lean ====
section
/-! DEFINITION. The record codec: BLANK, PARSE, GET, SET, SERIALIZE (R100 to R112 of `41_record_codec.md`), and
CHECK (R121 of `42_checksum.md`). -/

namespace Sys2Proof.Machine

/-- BLANK: a zero-filled record of the selected schema, bound; `BadSchema` (R100). -/
def execBlank (s : State) : Result :=
  performFree .blank
    (match selSchema s with
     | .error e => .error e
     | .ok h => .ok { memWrite s 0 (zeros h.size) with rlen := BitVec.ofNat 16 h.size, bound := true })
    s

/-- PARSE: the bytes in `REC[0..RLEN)` are accepted as a record of the selected schema; `BadSchema`, then
`LengthMismatch` (R101). -/
def execParse (s : State) : Result :=
  performFree .parse
    (match selSchema s with
     | .error e => .error e
     | .ok h => if s.rlen.toNat = h.size then .ok { s with bound := true } else .error .lengthMismatch)
    s

/-- GET `fid`: one field of the bound record is decoded (R102 to R106). -/
def execGet (fid : BitVec 16) (s : State) : Result :=
  performBound (.get fid)
    (fun h =>
      match fieldDesc s h fid with
      | .error e => .error e
      | .ok d => .ok (deliver s (readField s d)))
    s

/-- SET `fid`: a value is encoded into one field of the bound record (R107 to R111). -/
def execSet (fid : BitVec 16) (s : State) : Result :=
  performBound (.set fid)
    (fun h =>
      match fieldDesc s h fid with
      | .error e => .error e
      | .ok d =>
        match fieldBytes s d with
        | .error e => .error e
        | .ok bs => .ok (memWrite s d.off bs))
    s

/-- The checksum of a bound record's payload `REC[8..pay_end)` as it stands (R112, R121). -/
def payloadSum (s : State) (h : Header) : BitVec 16 := sum16 (memRead s 8 (h.payEnd - 8))

/-- SERIALIZE: the checksum of the payload goes to `REC[6..8)` and to `CKSUM` (R112). -/
def execSerialize (s : State) : Result :=
  performBound .serialize
    (fun h =>
      .ok { memWrite s 6 (leBytes 2 (payloadSum s h).toNat) with cksum := payloadSum s h })
    s

/-- CHECK: the checksum of the payload goes to `CKSUM`, and `CKOK` says whether the stored one equals it (R121). -/
def execCheck (s : State) : Result :=
  performBound .check
    (fun h => .ok { s with cksum := payloadSum s h, ckok := payloadSum s h == storedChecksum s })
    s

end Sys2Proof.Machine
end

