-- ==== Sys2Proof/Machine/Lookup.lean ====
section
/-! DEFINITION. The field schema's one command: LOOKUP (R93 of `40_schema_lookup.md`). -/

namespace Sys2Proof.Machine

/-- LOOKUP `fid`: the two words of the field's descriptor in the selected schema, as stored, go to `DSC0` and
`DSC1`; `BadSchema`, then `UnknownField` (R93). -/
def execLookup (fid : BitVec 16) (s : State) : Result :=
  performFree (.lookup fid)
    (match selSchema s with
     | .error e => .error e
     | .ok h =>
       match findField s.cfg.schrom h fid with
       | .error e => .error e
       | .ok d => .ok { s with dsc0 := d.d0, dsc1 := d.d1 })
    s

end Sys2Proof.Machine
end

