-- ==== Sys2Proof/Machine/Resolver.lean ====
section
/-! DEFINITION. The record variant resolver: RESOLVE (R160 of `44_variant_resolver.md`). -/

namespace Sys2Proof.Machine

/-- RESOLVE: the first schema whose generation is `GEN` and whose size is `RLEN` is selected, its kind goes to
`VAL` and the record is no longer bound; `UnsupportedLength` where there is none (R160). -/
def execResolve (s : State) : Result :=
  performFree .resolve
    (match resolveIndex s.cfg.schrom s.gen s.rlen.toNat with
     | none => .error .unsupportedLength
     | some i =>
       .ok { s with
             schsel := BitVec.ofNat 16 i
             val := (headerAt s.cfg.schrom (schemaBase s.cfg.schrom i)).kind.setWidth 32
             bound := false })
    s

end Sys2Proof.Machine
end

