-- ==== Sys2Proof/Machine/System.lean ====
section
/-! DEFINITION. The system command CLRERR (R165 of `45_system.md`). -/

namespace Sys2Proof.Machine

/-- CLRERR: the error return. It is performed whether or not an error is latched (R165, R173, R174). -/
def execClrerr (s : State) : Result := .next s.clearError

end Sys2Proof.Machine
end

