-- ==== Sys2Proof/Machine/Dispatch.lean ====
section
/-! DEFINITION. The meaning of each command, as performed by the engine on the write of its word to `CMD`
(R71 of `30_encoding.md`, R175 of `60_exceptions.md`). -/

namespace Sys2Proof.Machine

def exec (i : Instr) (s : State) : Host.Outcome State Fault Refusal :=
  match i with
  | .clrerr => Sys2Proof.Machine.execClrerr s
  | .blank => Sys2Proof.Machine.execBlank s
  | .resolve => Sys2Proof.Machine.execResolve s
  | .parse => Sys2Proof.Machine.execParse s
  | .lookup fid => Sys2Proof.Machine.execLookup fid s
  | .get fid => Sys2Proof.Machine.execGet fid s
  | .set fid => Sys2Proof.Machine.execSet fid s
  | .serialize => Sys2Proof.Machine.execSerialize s
  | .check => Sys2Proof.Machine.execCheck s
  | .encrypt => Sys2Proof.Machine.execEncrypt s
  | .decrypt => Sys2Proof.Machine.execDecrypt s
  | .tencrypt => Sys2Proof.Machine.execTencrypt s
  | .tdecrypt => Sys2Proof.Machine.execTdecrypt s

end Sys2Proof.Machine
end

