-- ==== Sys2Proof/Machine/Bus.lean ====
section
/-! DEFINITION. What a host access does: the address map (R40 of `10_state.md`), the registers (R24 to R33), the
windows, and the write of a command word to `CMD` (R175 of `60_exceptions.md`). -/

namespace Sys2Proof.Machine

/-- What stands at a place of the host's map. -/
inductive Place where
  | reg (r : Reg)
  | recByte (i : Nat)
  | auxByte (i : Nat)
  | romWord (k : Nat)
  /-- Reads as 0, writes are ignored. -/
  | reserved
  deriving DecidableEq, Repr

/-- The register at an offset of the register block, 0x0000 to 0x002B (R40). -/
def regAt (off : Nat) : Option Reg :=
  match off with
  | 0x00 => some .cmd
  | 0x04 => some .status
  | 0x08 => some .errinfo
  | 0x0C => some .gen
  | 0x10 => some .rlen
  | 0x14 => some .schsel
  | 0x18 => some .val
  | 0x1C => some .alen
  | 0x20 => some .cksum
  | 0x24 => some .dsc0
  | 0x28 => some .dsc1
  | _ => none

/-- The offset at which a register stands (R40). -/
def regOffset : Reg → Nat
  | .cmd => 0x00
  | .status => 0x04
  | .errinfo => 0x08
  | .gen => 0x0C
  | .rlen => 0x10
  | .schsel => 0x14
  | .val => 0x18
  | .alen => 0x1C
  | .cksum => 0x20
  | .dsc0 => 0x24
  | .dsc1 => 0x28

/-- The index of an offset inside a window, if it lies in it. -/
def inWindow (start len off : Nat) : Option Nat :=
  if start ≤ off ∧ off < start + len then some (off - start) else none

/-- A register or a reserved word, for a 32-bit access to an aligned offset. -/
def regPlace (off : Nat) : Place :=
  match regAt off with
  | some r => .reg r
  | none => .reserved

/-- The place a 32-bit access reaches on the map of R40: aligned offsets of the register block (below 0x1000) and of
the `SCHROM` window (from 0x8000); the byte windows between have another width (R56; log 8). -/
def mapPlace32 (c : Config) (off : Nat) : Except Refusal Place :=
  if 0x10000 ≤ off then .error .outsideDevice
  else if off % 4 = 0 then
    if off < 0x1000 then .ok (regPlace off)
    else if 0x8000 ≤ off then
      .ok (if (off - 0x8000) / 4 < c.schrom.length then .romWord ((off - 0x8000) / 4) else .reserved)
    else .error .badAccess
  else .error .badAccess

/-- The place an 8-bit access reaches on the map of R40: the `REC` window, 0x1000 to 0x3FFF, and the `AUX` window,
0x4000 to 0x7FFF; offsets beyond the memory's size are reserved. -/
def mapPlace8 (c : Config) (off : Nat) : Except Refusal Place :=
  if 0x10000 ≤ off then .error .outsideDevice
  else if 0x1000 ≤ off ∧ off < 0x4000 then
    .ok (if off - 0x1000 < c.recMax then .recByte (off - 0x1000) else .reserved)
  else if 0x4000 ≤ off ∧ off < 0x8000 then
    .ok (if off - 0x4000 < c.auxMax then .auxByte (off - 0x4000) else .reserved)
  else .error .badAccess

/-- What a byte offset of an instance that does not fit the map belongs to: the register block, a window, or
nothing of this device (R40, U7; log 7). -/
def platformPlace (c : Config) (off : Nat) : Option Place :=
  if off < 0x2C then some (regPlace (off - off % 4))
  else
    match inWindow c.recWindow c.recMax off with
    | some i => some (.recByte i)
    | none =>
      match inWindow c.auxWindow c.auxMax off with
      | some i => some (.auxByte i)
      | none => (inWindow c.romWindow (4 * c.schrom.length) off).map fun j => .romWord (j / 4)

/-- The place is one byte wide: a byte of `REC` or `AUX` (R56). -/
def Place.isByte : Place → Bool
  | .recByte _ => true
  | .auxByte _ => true
  | .reg _ => false
  | .romWord _ => false
  | .reserved => false

/-- The place an access reaches on an instance that does not fit the map of R40, or why it is refused (log 7). -/
def platformAccess (c : Config) (wide : Bool) (off : Nat) : Except Refusal Place :=
  match platformPlace c off with
  | none => .error .outsideDevice
  | some p => if wide then (if off % 4 = 0 ∧ !p.isByte then .ok p else .error .badAccess)
              else (if p.isByte then .ok p else .error .badAccess)

/-- The place an access of 32 bits (`wide`) or of 8 bits reaches, or why the model refuses it (R40, R56; U6, U7). -/
def place (c : Config) (wide : Bool) (addr : Nat) : Except Refusal Place :=
  if addr < c.base then .error .outsideDevice
  else if fitsMap c then
    if wide then mapPlace32 c (addr - c.base) else mapPlace8 c (addr - c.base)
  else platformAccess c wide (addr - c.base)

/-- A register as the host reads it: bits above its width are zero, `CMD` reads 0 (R24 to R33). -/
def readReg (s : State) : Reg → Word
  | .cmd => 0
  | .status => s.status
  | .errinfo => s.errinfo
  | .gen => s.gen.setWidth 32
  | .rlen => s.rlen.setWidth 32
  | .schsel => s.schsel.setWidth 32
  | .val => s.val
  | .alen => s.alen.setWidth 32
  | .cksum => s.cksum.setWidth 32
  | .dsc0 => s.dsc0
  | .dsc1 => s.dsc1

/-- A word that is not legal: ignored while an error is latched (R173), else `IllegalCommand` with the word recorded
(R166 of `45_system.md`). -/
def illegalWord (w : Word) (s : State) : Result :=
  if s.err = 0 then .next (s.raise .illegalCommand w) else .next s

/-- The host writes `w` to `CMD`: the engine performs the command it stands for, at once and to completion (R24 of
`10_state.md`, R175 of `60_exceptions.md`). -/
def commandWrite (w : Word) (s : State) : Result :=
  match decode w with
  | .ok i => exec i s
  | .error _ => illegalWord w s

/-- The host writes a word to a register: the low bits are stored, `RLEN` and `SCHSEL` clear `BOUND`, read-only
registers ignore it, and `CMD` performs a command (R24 to R33, R39). -/
def writeReg (s : State) (v : Word) : Reg → Result
  | .cmd => commandWrite v s
  | .status => .next s
  | .errinfo => .next s
  | .gen => .next { s with gen := v.setWidth 8 }
  | .rlen => .next { s with rlen := v.setWidth 16, bound := false }
  | .schsel => .next { s with schsel := v.setWidth 16, bound := false }
  | .val => .next { s with val := v }
  | .alen => .next { s with alen := v.setWidth 16 }
  | .cksum => .next s
  | .dsc0 => .next s
  | .dsc1 => .next s

/-- What a read of a place returns, zero-extended to 32 bits (R39, R40). -/
def readPlace (s : State) : Place → Word
  | .reg r => readReg s r
  | .recByte i => (s.recByte i).setWidth 32
  | .auxByte i => (s.auxByte i).setWidth 32
  | .romWord k => romWord s.cfg.schrom k
  | .reserved => 0

/-- The host reads a place: the value is its reply and nothing else changes (R39: "no read has any side effect"). -/
def hostRead (s : State) : Except Refusal Place → Result
  | .error r => .refused r
  | .ok p => .next { s with replies := readPlace s p :: s.replies }

/-- The host writes 32 bits to a place: registers, and nothing else that is writable (R39, R40). -/
def hostWrite32 (s : State) (v : Word) : Except Refusal Place → Result
  | .error r => .refused r
  | .ok (.reg r) => writeReg s v r
  | .ok (.recByte _) => .next s
  | .ok (.auxByte _) => .next s
  | .ok (.romWord _) => .next s
  | .ok .reserved => .next s

/-- The host writes 8 bits to a place: a byte of `REC` or `AUX`; `BOUND` is not touched (R21, R22, R37). -/
def hostWrite8 (s : State) (v : Byte) : Except Refusal Place → Result
  | .error r => .refused r
  | .ok (.recByte i) => .next (memWrite s i [v])
  | .ok (.auxByte i) => .next (auxWrite s i [v])
  | .ok (.reg _) => .next s
  | .ok (.romWord _) => .next s
  | .ok .reserved => .next s

/-- One host access, indivisible (R39), on an instance of the hardware; parameters that are none are refused (R75,
U5). -/
def perform (a : Access) (s : State) : Result :=
  if configOk s.cfg then
    match a with
    | .read32 addr => hostRead s (place s.cfg true addr)
    | .read8 addr => hostRead s (place s.cfg false addr)
    | .write32 addr v => hostWrite32 s v (place s.cfg true addr)
    | .write8 addr v => hostWrite8 s v (place s.cfg false addr)
  else .refused .notAnInstance

/-- The next thing that happens: the host's next access, or nothing where the host makes none (R61 of
`20_memory.md`; R190: "The engine does nothing after reset until the first `CMD` write"). -/
def advance (s : State) : Result :=
  match s.host with
  | [] => .next s
  | a :: rest => perform a { s with host := rest }

/-- `s` with the host about to write the command word `w` to `CMD` (log 2). -/
def issue (w : Word) (s : State) : State := { s with host := .write32 (s.cfg.base + regOffset .cmd) w :: s.host }

end Sys2Proof.Machine
end

