-- ==== Sys2Proof/Machine/Step.lean ====
section
/-! DEFINITION. One step of the machine: one host access (R39 of `10_state.md`, R61 of `20_memory.md`). -/

namespace Sys2Proof.Machine

/-- One step: the host's next access, with the command it starts if it writes `CMD` (log 2). -/
def step (s : State) : Host.Outcome State Fault Refusal := advance s

/-- `s` with the command word made of `nbits` bits of `w`, the bits above zero, as the data of the host's very next
access, a write to `CMD` (log 2). -/
def State.withFetchWord (s : State) (nbits w : Nat) : State := issue (BitVec.ofNat 32 (w % 2 ^ nbits)) s

end Sys2Proof.Machine
end

