-- ==== Sys2Proof/Machine/Script.lean ====
section
/-! DEFINITION. The host's script notation and its pseudo-instructions, as lists of accesses (R82, R83 of
`30_encoding.md`). Each line of a script is one access; a pseudo-instruction is a fixed expansion into lines. -/

namespace Sys2Proof.Machine

/-- `WR reg, v` (R82). -/
def scriptWr (c : Config) (r : Reg) (v : Word) : Access := .write32 (c.base + regOffset r) v

/-- `RD reg` (R82). -/
def scriptRd (c : Config) (r : Reg) : Access := .read32 (c.base + regOffset r)

/-- `WRB REC+i, b` (R82). -/
def scriptWrbRec (c : Config) (i : Nat) (b : Byte) : Access := .write8 (c.base + c.recWindow + i) b

/-- `WRB AUX+i, b` (R82). -/
def scriptWrbAux (c : Config) (i : Nat) (b : Byte) : Access := .write8 (c.base + c.auxWindow + i) b

/-- `RDB REC+i` (R82). -/
def scriptRdbRec (c : Config) (i : Nat) : Access := .read8 (c.base + c.recWindow + i)

/-- `RDB AUX+i` (R82). -/
def scriptRdbAux (c : Config) (i : Nat) : Access := .read8 (c.base + c.auxWindow + i)

/-- `MNEMONIC` or `MNEMONIC fid`: the command word written to `CMD` (R82). -/
def scriptCommand (c : Config) (i : Instr) : Access := scriptWr c .cmd (encode i)

/-- `LOADREC b0 … b(n-1)` (R83). -/
def scriptLoadRec (c : Config) (bs : List Byte) : List Access :=
  (List.range bs.length).map (fun i => scriptWrbRec c i (bs.getD i 0)) ++ [scriptWr c .rlen (BitVec.ofNat 32 bs.length)]

/-- `LOADAUX b0 … b(n-1)` (R83). -/
def scriptLoadAux (c : Config) (bs : List Byte) : List Access :=
  (List.range bs.length).map (fun i => scriptWrbAux c i (bs.getD i 0)) ++ [scriptWr c .alen (BitVec.ofNat 32 bs.length)]

/-- `OPEN g` (R83). -/
def scriptOpen (c : Config) (g : Word) : List Access :=
  [scriptWr c .gen g, scriptCommand c .resolve, scriptCommand c .parse]

/-- `GETI fid` (R83). -/
def scriptGetI (c : Config) (fid : BitVec 16) : List Access := [scriptCommand c (.get fid), scriptRd c .val]

/-- `SETI fid, v` (R83). -/
def scriptSetI (c : Config) (fid : BitVec 16) (v : Word) : List Access :=
  [scriptWr c .val v, scriptCommand c (.set fid)]

/-- `VERIFY` (R83). -/
def scriptVerify (c : Config) : List Access := [scriptCommand c .check, scriptRd c .status]

/-- `DUMP` of a record of `n` bytes, `n` being what its first line, the read of `RLEN`, returns (R83). -/
def scriptDump (c : Config) (n : Nat) : List Access :=
  scriptRd c .rlen :: (List.range n).map (scriptRdbRec c)

end Sys2Proof.Machine
end

