-- ==== Sys2Proof/Safety.lean ====
section
/-! DEFINITION. What claims are stated in: the invariant of the machine, the conditions under which a command is
performed on a bound record, and the errors each command can raise (R171 of `60_exceptions.md`). -/

namespace Sys2Proof.Machine

/-- An error code the engine can hold: none, or one of the codes some command raises; 4 and 9 to 15 are never
written (R170, R181 of `60_exceptions.md`). -/
def errPossible (e : BitVec 4) : Bool := e.toNat ≤ 8 && e.toNat != 4

/-- The invariant of the machine. -/
structure Inv (s : State) : Prop where
  /-- The parameters are an instance of the hardware (R5 of `00_scope.md`). -/
  isInstance : configOk s.cfg = true
  /-- `REC` has the canonical form. -/
  recCanonical : s.recBuf.wf = true
  /-- `AUX` has the canonical form. -/
  auxCanonical : s.auxBuf.wf = true
  /-- Only bytes of `REC` that exist have been written (R21 of `10_state.md`). -/
  recWithin : s.recBuf.within s.cfg.recMax = true
  /-- Only bytes of `AUX` that exist have been written (R22). -/
  auxWithin : s.auxBuf.within s.cfg.auxMax = true
  /-- `BOUND = 1` holds only with its meaning (R37). -/
  boundMeaning : s.bound = true → (boundHeader s).isSome = true
  /-- `ERR` holds a code some command raises, or none (R170 of `60_exceptions.md`). -/
  errCode : errPossible s.err = true
  /-- `ERRINFO` is 0 while no error is latched (R26). -/
  errinfoClear : s.err = 0 → s.errinfo = 0

/-- No error is latched and a record is bound: what GET, SET, SERIALIZE, CHECK and the cipher commands need
(R175 of `60_exceptions.md`). -/
abbrev Ready (s : State) : Prop := s.err = 0 ∧ s.bound = true

/-- `d` is the descriptor a GET or SET of `fid` works with on a record of schema `h`: it is the field's first one,
well-formed, and inside the record (R102, R107 of `41_record_codec.md`). -/
abbrev FieldAt (s : State) (h : Header) (fid : BitVec 16) (d : Desc) : Prop :=
  findField s.cfg.schrom h fid = .ok d ∧ descOk s.cfg.auxMax d = true ∧ d.off + extent d ≤ s.rlen.toNat

/-- A GET or SET of `fid` on this state reaches the field `d` of the bound record's schema `h` (R102, R107, R175). -/
abbrev FieldReady (s : State) (h : Header) (fid : BitVec 16) (d : Desc) : Prop :=
  Ready s ∧ boundHeader s = some h ∧ FieldAt s h fid d

/-- The commands that need a bound record (R71 of `30_encoding.md`). -/
def needsBound : Instr → Bool
  | .clrerr => false
  | .blank => false
  | .resolve => false
  | .parse => false
  | .lookup _ => false
  | .get _ => true
  | .set _ => true
  | .serialize => true
  | .check => true
  | .encrypt => true
  | .decrypt => true
  | .tencrypt => true
  | .tdecrypt => true

/-- The errors a command's own rule can raise (R171). -/
def errorsOf : Instr → List ErrCode
  | .clrerr => []
  | .blank => [.badSchema]
  | .resolve => [.unsupportedLength]
  | .parse => [.badSchema, .lengthMismatch]
  | .lookup _ => [.badSchema, .unknownField]
  | .get _ => [.unknownField, .badSchema, .outOfRange]
  | .set _ => [.unknownField, .badSchema, .outOfRange, .valueRange]
  | .serialize => []
  | .check => []
  | .encrypt => [.outOfRange]
  | .decrypt => [.outOfRange]
  | .tencrypt => [.outOfRange]
  | .tdecrypt => [.outOfRange]

/-- Where a 32-bit host access is legal: aligned, in the register block or the `SCHROM` window with its reserved offsets,
or, on an instance that does not fit the map, in the fixed registers or among the words of `SCHROM` (R40 of
`10_state.md`, R56 of `20_memory.md`; log 7, log 8). -/
abbrev legalWide (c : Config) (addr : Nat) : Prop :=
  c.base ≤ addr ∧ (addr - c.base) % 4 = 0 ∧
    (fitsMap c = true ∧ (addr - c.base < 0x1000 ∨ 0x8000 ≤ addr - c.base ∧ addr - c.base < 0x10000) ∨
      fitsMap c = false ∧
        (addr - c.base < 0x2C ∨
          c.romWindow ≤ addr - c.base ∧ addr - c.base < c.romWindow + 4 * c.schrom.length))

/-- Where an 8-bit host access is legal: in the `REC` and `AUX` windows with their reserved offsets, or, on an instance
that does not fit the map, among the bytes of the two buffers (R40, R56; log 7, log 8). -/
abbrev legalByte (c : Config) (addr : Nat) : Prop :=
  c.base ≤ addr ∧
    (fitsMap c = true ∧ 0x1000 ≤ addr - c.base ∧ addr - c.base < 0x8000 ∨
      fitsMap c = false ∧
        (c.recWindow ≤ addr - c.base ∧ addr - c.base < c.recWindow + c.recMax ∨
          c.auxWindow ≤ addr - c.base ∧ addr - c.base < c.auxWindow + c.auxMax))

/-- The commands that can lengthen a record and so unbind it (R140 of `43_cipher.md`). -/
def isCipher : Instr → Bool
  | .encrypt => true
  | .decrypt => true
  | .tencrypt => true
  | .tdecrypt => true
  | .clrerr => false
  | .blank => false
  | .resolve => false
  | .parse => false
  | .lookup _ => false
  | .get _ => false
  | .set _ => false
  | .serialize => false
  | .check => false

/-- What a region of `n` bytes grows by when a cipher command pads it (R131, R140 of `43_cipher.md`). -/
def growth (n : Nat) : Nat := (4 - n % 4) % 4

/-- The record of a bound, error-free state is well-formed in the sense of R145 of `43_cipher.md`: bytes 4 and 5 are
zero and the stored checksum is the sum of the payload. -/
def wellFormedRecord (s : State) (h : Header) : Prop :=
  s.recByte 4 = 0 ∧ s.recByte 5 = 0 ∧ storedChecksum s = payloadSum s h

/-- The container word of a BITS field as it stands in a state (R51 of `20_memory.md`). -/
def container (s : State) (d : Desc) : Nat := containerValue d.be (memRead s d.off d.width)

/-- The value of an INT field as it stands in a state (R50 of `20_memory.md`). -/
def integerValue (s : State) (d : Desc) : Nat := le (memRead s d.off d.width)

/-- Block `k` of the four equal blocks of a padded byte string (R134 of `43_cipher.md`). -/
def blockOf (b : List Byte) (k : Nat) : List Byte :=
  ((pad4 b).drop (k * ((pad4 b).length / 4))).take ((pad4 b).length / 4)

/-- The block orders of R135 of `43_cipher.md`, for shifts 0 to 23, with 0, 1, 2, 3 for A, B, C, D. -/
def blockOrders : List (List Nat) :=
  [[0, 1, 2, 3], [0, 1, 3, 2], [0, 2, 1, 3], [0, 2, 3, 1], [0, 3, 1, 2], [0, 3, 2, 1],
   [1, 0, 2, 3], [1, 0, 3, 2], [1, 2, 0, 3], [1, 2, 3, 0], [1, 3, 0, 2], [1, 3, 2, 0]] ++
  [[2, 0, 1, 3], [2, 0, 3, 1], [2, 1, 0, 3], [2, 1, 3, 0], [2, 3, 0, 1], [2, 3, 1, 0],
   [3, 0, 1, 2], [3, 0, 2, 1], [3, 1, 0, 2], [3, 1, 2, 0], [3, 2, 0, 1], [3, 2, 1, 0]]

/-- The state of the generator after `n` advances from a seed (R138, R139 of `43_cipher.md`). -/
def lcgState (seed : BitVec 32) : Nat → BitVec 32
  | 0 => seed
  | n + 1 => lcgNext (lcgState seed n)

/-- What a cipher command leaves in `REC`: the header bytes `head` gives, the region `[a, b)` replaced by `new`, what
followed it up to `rlen` moved up by the growth, and every byte beyond as before (R140 to R144). -/
def replacedByte (s : State) (head : Nat → Byte) (a b : Nat) (new : List Byte) (x : Nat) : Byte :=
  if x < a then head x
  else if x < a + new.length then new.getD (x - a) 0
  else if x < s.rlen.toNat + (new.length - (b - a)) then s.recByte (x - (new.length - (b - a)))
  else s.recByte x

end Sys2Proof.Machine
end

