-- ==== Sys2Proof/Certificates/Slice0/Obligations.lean ====
section
/-! DEFINITION. The statements for the provers. Each docstring names what of spec/ it formalises. -/

open Sys2Proof Sys2Proof.Machine

/-! Encoding. -/

/-- R70, R71: a word decodes to a command exactly when it is that command's encoding, so decoding inverts encoding
for every command and every `fid`, and no word is read as a command it is not. -/
def Obligations.DecodeAndEncodeAgree : Prop :=
  ∀ (w : Word) (i : Instr), decode w = .ok i ↔ encode i = w

/-- R72: the legal words are those with `op` 0x01 to 0x0D, `rsv = 0`, and `fid = 0` unless `op` is 0x05 to 0x07. -/
def Obligations.LegalWordsDecode : Prop :=
  ∀ w : Word, (∃ i, decode w = .ok i) ↔
    (1 ≤ (w.extractLsb' 0 8).toNat ∧ (w.extractLsb' 0 8).toNat ≤ 0x0D) ∧ w.extractLsb' 8 8 = 0 ∧
      (w.extractLsb' 16 16 = 0 ∨ (w.extractLsb' 0 8 = 5 ∨ w.extractLsb' 0 8 = 6 ∨ w.extractLsb' 0 8 = 7))

/-- The command words that R82 and `95_test_vectors.md` spell out decode to the commands they give them. -/
def Obligations.SpecWordsDecodeAsPrinted : Prop :=
  decode 0x00000001 = .ok .clrerr ∧ decode 0x00000002 = .ok .blank ∧ decode 0x00000003 = .ok .resolve ∧
    decode 0x00000004 = .ok .parse ∧ decode 0x00120005 = .ok (.lookup 0x0012) ∧
    decode 0x00100006 = .ok (.get 0x0010) ∧ decode 0x00030007 = .ok (.set 0x0003) ∧
    decode 0x00000008 = .ok .serialize ∧ decode 0x00000009 = .ok .check ∧ decode 0x0000000A = .ok .encrypt ∧
    decode 0x0000000B = .ok .decrypt ∧ decode 0x0000000C = .ok .tencrypt ∧ decode 0x0000000D = .ok .tdecrypt

/-! Reset and the invariant. -/

/-- Section 6 of `10_state.md`: after reset every register is zero, `STATUS` is 0, no byte of `REC` or `AUX` has been
written (each holds an unknown value, a free value of the model, log 1), and `SCHROM` is the parameter's. Holds for
every instance. -/
def Obligations.ResetLeavesRegistersZero : Prop :=
  ∀ c : Config, (State.resetOf c).status = 0 ∧ (State.resetOf c).errinfo = 0 ∧ (State.resetOf c).gen = 0 ∧
    (State.resetOf c).rlen = 0 ∧ (State.resetOf c).schsel = 0 ∧ (State.resetOf c).val = 0 ∧
    (State.resetOf c).alen = 0 ∧ (State.resetOf c).cksum = 0 ∧ (State.resetOf c).dsc0 = 0 ∧
    (State.resetOf c).dsc1 = 0 ∧ (∀ a, (State.resetOf c).recByte a = Config.unwrittenRec a) ∧
    (∀ a, (State.resetOf c).auxByte a = Config.unwrittenAux a) ∧ (State.resetOf c).cfg.schrom = c.schrom

/-- The invariant holds after reset, for every instance and so for `State.reset` (whose instance is the model's
choice, log 3). -/
def Obligations.ResetMeetsInvariant : Prop :=
  (∀ c : Config, configOk c = true → Inv (State.resetOf c)) ∧ Inv State.reset

/-- Every step keeps the invariant: the buffers stay canonical and inside their sizes, `BOUND` stays true to its
meaning (R37), `ERR` stays a code some command raises (R170, R181), `ERRINFO` stays 0 without an error (R26). -/
def Obligations.StepKeepsInvariant : Prop :=
  ∀ s t : State, Inv s → step s = .next t → Inv t

/-- No command is ever refused; one faults exactly where `BOUND = 1` is not true to its meaning (log 5); and from a
state of the invariant neither a command nor a step ever faults, so no run from reset does. -/
def Obligations.InvariantStatesNeverFault : Prop :=
  (∀ (i : Instr) (s : State), (∀ r, exec i s ≠ .refused r) ∧
    ((∃ f, exec i s = .fault f) ↔ needsBound i = true ∧ s.err = 0 ∧ s.bound = true ∧ boundHeader s = none)) ∧
  (∀ s : State, Inv s → (∀ f, step s ≠ .fault f) ∧ (∀ i f, exec i s ≠ .fault f))

/-- R5, R39: no step changes the parameters; a step makes at most one access, the first of those the host is to make
(the host's queue and the parameters in the state are the model's choice, log 2 and log 3); commands change neither
what the host will do nor what it has been told. -/
def Obligations.StepKeepsParametersAndMakesOneAccess : Prop :=
  (∀ s t : State, step s = .next t → t.cfg = s.cfg ∧ t.host = s.host.tail) ∧
    (∀ (i : Instr) (s t : State), exec i s = .next t → t.cfg = s.cfg ∧ t.host = s.host ∧ t.replies = s.replies)

/-- R58: a bound record's regions lie in order inside it, and it fits `REC`. -/
def Obligations.BoundRecordHasItsRegions : Prop :=
  ∀ s : State, Inv s → s.bound = true →
    ∃ h, boundHeader s = some h ∧ 8 ≤ h.payEnd ∧ h.payEnd ≤ h.tailEnd ∧ h.tailEnd ≤ h.size ∧
      h.size = s.rlen.toNat ∧ s.rlen.toNat ≤ s.cfg.recMax

/-! The step and the host's accesses. -/

/-- When the host's next access writes a word to `CMD`, the step is the command's meaning on the state without that
access; an illegal word raises `IllegalCommand` or is ignored; without accesses nothing happens. The word that
`withFetchWord` places is the command the very next step runs (the host's queue of accesses is the model's choice,
log 2). -/
def Obligations.StepRunsDecodedCommand : Prop :=
  (∀ (s : State) (w : Word) (rest : List Access), configOk s.cfg = true →
    s.host = .write32 s.cfg.base w :: rest →
      (∀ i, decode w = .ok i → step s = exec i { s with host := rest }) ∧
      (∀ r, decode w = .error r →
        step s =
          .next (if s.err = 0 then { s with host := rest, err := 6, errinfo := w } else { s with host := rest }))) ∧
    (∀ s : State, s.host = [] → step s = .next s) ∧
    (∀ (s : State) (nbits w : Nat) (i : Instr), configOk s.cfg = true → decodeTableWord nbits w = some i →
      step (s.withFetchWord nbits w) = exec i s)

/-- R39: no read has any side effect: it adds one reply and changes nothing else, whatever the address. -/
def Obligations.ReadsHaveNoSideEffect : Prop :=
  ∀ (s t : State) (addr : Nat), (perform (.read32 addr) s = .next t ∨ perform (.read8 addr) s = .next t) →
    ∃ v, t = { s with replies := v :: s.replies }

/-- R24 to R33, R39: what a host write to each register does: the low bits are stored, `RLEN` and `SCHSEL` clear
`BOUND` whatever the value, and writes to read-only registers are ignored. -/
def Obligations.RegisterWritesStoreLowBits : Prop :=
  ∀ (s : State) (v : Word) (rest : List Access), configOk s.cfg = true →
    step { s with host := scriptWr s.cfg .gen v :: rest } = .next { s with host := rest, gen := v.setWidth 8 } ∧
    step { s with host := scriptWr s.cfg .rlen v :: rest } =
      .next { s with host := rest, rlen := v.setWidth 16, bound := false } ∧
    step { s with host := scriptWr s.cfg .schsel v :: rest } =
      .next { s with host := rest, schsel := v.setWidth 16, bound := false } ∧
    step { s with host := scriptWr s.cfg .val v :: rest } = .next { s with host := rest, val := v } ∧
    step { s with host := scriptWr s.cfg .alen v :: rest } = .next { s with host := rest, alen := v.setWidth 16 } ∧
    (∀ r, r = .status ∨ r = .errinfo ∨ r = .cksum ∨ r = .dsc0 ∨ r = .dsc1 →
      step { s with host := scriptWr s.cfg r v :: rest } = .next { s with host := rest })

/-- R24 to R33, R40: what a host read of each register returns, zero-extended; `CMD` reads 0. -/
def Obligations.RegisterReadsReturnValue : Prop :=
  ∀ (s : State) (r : Reg) (rest : List Access), configOk s.cfg = true →
    ∃ v : Word, step { s with host := scriptRd s.cfg r :: rest } =
        .next { s with host := rest, replies := v :: s.replies } ∧
      v.toNat = match r with
        | .cmd => 0
        | .status => s.err.toNat + 16 * s.bound.toNat + 32 * s.ckok.toNat
        | .errinfo => s.errinfo.toNat
        | .gen => s.gen.toNat
        | .rlen => s.rlen.toNat
        | .schsel => s.schsel.toNat
        | .val => s.val.toNat
        | .alen => s.alen.toNat
        | .cksum => s.cksum.toNat
        | .dsc0 => s.dsc0.toNat
        | .dsc1 => s.dsc1.toNat

/-- R21, R22, R37, R40: through the byte windows the host writes one byte of `REC` or `AUX` and nothing else, `BOUND`
included, and reads it back as it stands. Holds on every instance, whatever its windows (log 7). -/
def Obligations.ByteWindowsReachBuffers : Prop :=
  ∀ (s : State) (i : Nat) (b : Byte) (rest : List Access), configOk s.cfg = true →
    (i < s.cfg.recMax →
      (∃ t, step { s with host := scriptWrbRec s.cfg i b :: rest } = .next t ∧
        t = { s with host := rest, recBuf := t.recBuf } ∧ ∀ a, t.recByte a = if a = i then b else s.recByte a) ∧
      step { s with host := scriptRdbRec s.cfg i :: rest } =
        .next { s with host := rest, replies := (s.recByte i).setWidth 32 :: s.replies }) ∧
    (i < s.cfg.auxMax →
      (∃ t, step { s with host := scriptWrbAux s.cfg i b :: rest } = .next t ∧
        t = { s with host := rest, auxBuf := t.auxBuf } ∧ ∀ a, t.auxByte a = if a = i then b else s.auxByte a) ∧
      step { s with host := scriptRdbAux s.cfg i :: rest } =
        .next { s with host := rest, replies := (s.auxByte i).setWidth 32 :: s.replies })

/-- R23, R40: the host reads any word of `SCHROM`, and its writes there are ignored. -/
def Obligations.SchemaMemoryIsReadOnly : Prop :=
  ∀ (s : State) (k : Nat) (v : Word) (rest : List Access), configOk s.cfg = true → k < s.cfg.schrom.length →
    step { s with host := .read32 (s.cfg.base + s.cfg.romWindow + 4 * k) :: rest } =
      .next { s with host := rest, replies := s.cfg.schrom.getD k 0 :: s.replies } ∧
    step { s with host := .write32 (s.cfg.base + s.cfg.romWindow + 4 * k) v :: rest } = .next { s with host := rest }

/-- R40: on an instance that fits the map, reserved offsets read 0 and ignore writes: those of the register block, and
those of a window beyond its memory's size (the width of the latter is the model's inference, log 8). -/
def Obligations.ReservedOffsetsReadZero : Prop :=
  ∀ (s : State) (off : Nat) (v : Word) (b : Byte), configOk s.cfg = true → fitsMap s.cfg = true →
    ((off % 4 = 0 ∧ (0x2C ≤ off ∧ off < 0x1000 ∨ 0x8000 + 4 * s.cfg.schrom.length ≤ off ∧ off < 0x10000)) →
      perform (.read32 (s.cfg.base + off)) s = .next { s with replies := 0 :: s.replies } ∧
      perform (.write32 (s.cfg.base + off) v) s = .next s) ∧
    ((0x1000 + s.cfg.recMax ≤ off ∧ off < 0x4000 ∨ 0x4000 + s.cfg.auxMax ≤ off ∧ off < 0x8000) →
      perform (.read8 (s.cfg.base + off)) s = .next { s with replies := 0 :: s.replies } ∧
      perform (.write8 (s.cfg.base + off) b) s = .next s)

/-- R56 (U6, U7), on every instance: a host access, read or write, is refused exactly at the addresses where its width
is not legal (`legalWide`, `legalByte`), and is answered at every other; a word written at a legal address is answered
in every state of the invariant. Which places have which width beyond the memories' sizes is the model's inference
(log 8); the refusals and the windows of an instance that does not fit the map are log 7 and log 8. -/
def Obligations.OnlyLegalReadsAreAnswered : Prop :=
  ∀ (s : State) (addr : Nat), configOk s.cfg = true →
    ((∃ t, perform (.read32 addr) s = .next t) ↔ legalWide s.cfg addr) ∧
    ((∃ r, perform (.read32 addr) s = .refused r) ↔ ¬legalWide s.cfg addr) ∧
    ((∃ t, perform (.read8 addr) s = .next t) ↔ legalByte s.cfg addr) ∧
    ((∃ r, perform (.read8 addr) s = .refused r) ↔ ¬legalByte s.cfg addr) ∧
    (∀ v, (∃ r, perform (.write32 addr v) s = .refused r) ↔ ¬legalWide s.cfg addr) ∧
    (Inv s → ∀ v, (∃ t, perform (.write32 addr v) s = .next t) ↔ legalWide s.cfg addr) ∧
    (∀ b, (∃ r, perform (.write8 addr b) s = .refused r) ↔ ¬legalByte s.cfg addr) ∧
    (∀ b, (∃ t, perform (.write8 addr b) s = .next t) ↔ legalByte s.cfg addr)

/-! Errors: taking one, the latch, returning from it, the order of checks. -/

/-- R172: whatever word is written to `CMD` while no error is latched, if an error is latched afterwards then `ERR`
is the code of an error, `ERRINFO` is that word, and nothing else has changed. -/
def Obligations.ErrorEntryChangesNothingElse : Prop :=
  ∀ (w : Word) (s t : State), s.err = 0 → commandWrite w s = .next t → t.err ≠ 0 →
    ∃ e : ErrCode, t = { s with err := e.code, errinfo := w }

/-- R173: while an error is latched every word but 0x00000001 changes no state at all. -/
def Obligations.LatchIgnoresOtherCommands : Prop :=
  ∀ (w : Word) (s : State), s.err ≠ 0 → w ≠ 1 → commandWrite w s = .next s

/-- R165: CLRERR sets `ERR` and `ERRINFO` to 0 and changes nothing else, whether or not an error is latched; with none
latched (and so `ERRINFO = 0`) it changes nothing; it is recognised only as the exact word 0x00000001. -/
def Obligations.ClrerrClearsTheLatch : Prop :=
  (∀ s : State, exec .clrerr s = .next { s with err := 0, errinfo := 0 } ∧
    commandWrite 0x00000001 s = .next { s with err := 0, errinfo := 0 }) ∧
  (∀ s : State, s.err = 0 → s.errinfo = 0 → exec .clrerr s = .next s) ∧
  (∀ (w : Word) (s : State), w.extractLsb' 0 8 = 1 → w ≠ 1 →
    commandWrite w s = .next (if s.err = 0 then { s with err := 6, errinfo := w } else s))

/-- R175: the order in which a `CMD` write is handled: the latch, the word's legality, `BOUND`, then the command. -/
def Obligations.CommandWriteChecksInOrder : Prop :=
  ∀ (w : Word) (s : State), commandWrite w s =
    if s.err ≠ 0 then (if w = 1 then .next { s with err := 0, errinfo := 0 } else .next s)
    else if legalWord w = false then .next (s.raise .illegalCommand w)
    else if 6 ≤ (w.extractLsb' 0 8).toNat ∧ s.bound = false then .next (s.raise .illegalCommand w)
    else match decode w with
      | .ok i => exec i s
      | .error _ => .next s

/-- The table of section 1 of `60_exceptions.md`, which the spec marks as derived from the command rules: the only
errors a command's own rule raises are those of its row. -/
def Obligations.CommandsRaiseOnlyTheirErrors : Prop :=
  ∀ (i : Instr) (s t : State), s.err = 0 → (needsBound i = true → s.bound = true) → exec i s = .next t → t.err ≠ 0 →
    ∃ e, e ∈ errorsOf i ∧ t = s.raise e (encode i)

/-- What sections 2 and 3 of `10_state.md` say of who writes each part of the state (the bits of `STATUS`, the other
registers, `REC` and `AUX`), for all commands at once: no command changes a part but those named for it. -/
def Obligations.OnlyTheseCommandsWriteEachRegister : Prop :=
  ∀ (i : Instr) (s t : State), exec i s = .next t →
    (t.err ≠ s.err ∨ t.errinfo ≠ s.errinfo →
      (i = .clrerr ∧ t = { s with err := 0, errinfo := 0 }) ∨
      (s.err = 0 ∧ ∃ e : ErrCode, t = { s with err := e.code, errinfo := encode i })) ∧
    (t.bound ≠ s.bound →
      (t.bound = true ∧ (i = .blank ∨ i = .parse)) ∨
      (t.bound = false ∧ (i = .resolve ∨ (isCipher i = true ∧ t.rlen ≠ s.rlen)))) ∧
    (t.ckok ≠ s.ckok → i = .check) ∧
    t.gen = s.gen ∧
    (t.schsel ≠ s.schsel → i = .resolve) ∧
    (t.val ≠ s.val → i = .resolve ∨ ∃ f, i = .get f) ∧
    (t.alen ≠ s.alen ∨ t.auxBuf ≠ s.auxBuf → ∃ f, i = .get f) ∧
    (t.dsc0 ≠ s.dsc0 ∨ t.dsc1 ≠ s.dsc1 → ∃ f, i = .lookup f) ∧
    (t.cksum ≠ s.cksum → i = .serialize ∨ i = .check ∨ i = .encrypt ∨ i = .tencrypt) ∧
    (t.rlen ≠ s.rlen → i = .blank ∨ isCipher i = true) ∧
    (t.recBuf ≠ s.recBuf → i = .blank ∨ (∃ f, i = .set f) ∨ i = .serialize ∨ isCipher i = true)

/-- How `BOUND` is set and lost (section 3 of `10_state.md`, and the spec's own inferences in its section 4, "every way
of changing `RLEN` or `SCHSEL` clears it", and in section 2 of `70_reset_and_hazards.md`). A command sets it only if it
is BLANK or PARSE, and clears it only if it is RESOLVE or a cipher command that changes `RLEN`; a command other than
BLANK that changes `RLEN` or `SCHSEL` leaves it 0. A step clears it only by a host write of `RLEN` or `SCHSEL` or by
such a command, and sets it only by a BLANK or PARSE (that a step is one host access is the model's choice, log 2). -/
def Obligations.BoundIsSetAndLostOnlyAsStated : Prop :=
  (∀ (i : Instr) (s t : State), exec i s = .next t →
    (s.bound = false → t.bound = true → i = .blank ∨ i = .parse) ∧
    (s.bound = true → t.bound = false → i = .resolve ∨ (isCipher i = true ∧ t.rlen ≠ s.rlen)) ∧
    (i ≠ .blank → t.rlen ≠ s.rlen ∨ t.schsel ≠ s.schsel → t.bound = false)) ∧
  (∀ (s t : State), step s = .next t → s.bound ≠ t.bound →
    ∃ (r : Reg) (v : Word) (rest : List Access), s.host = scriptWr s.cfg r v :: rest ∧
      (if t.bound then r = .cmd ∧ (decode v = .ok .blank ∨ decode v = .ok .parse)
       else r = .rlen ∨ r = .schsel ∨
         (r = .cmd ∧ ∃ i, decode v = .ok i ∧ (i = .resolve ∨ (isCipher i = true ∧ t.rlen ≠ s.rlen)))))

/-! Selecting a schema and looking up a field. -/

/-- R92: `FindField` gives the descriptor with the smallest index that has the identifier, else `UnknownField`; it
looks at nothing but the identifier. -/
def Obligations.FindFieldTakesFirstDescriptor : Prop :=
  ∀ (rom : List Word) (h : Header) (f : BitVec 16),
    (∀ k, k < h.nfields → (descAt rom h k).fid = f → (∀ j, j < k → (descAt rom h j).fid ≠ f) →
      findField rom h f = .ok (descAt rom h k)) ∧
    ((∀ k, k < h.nfields → (descAt rom h k).fid ≠ f) → findField rom h f = .error .unknownField)

/-- BLANK, PARSE and LOOKUP raise `BadSchema` when `SCHSEL ≥ NSCH` or the header is not well-formed. -/
def Obligations.BadSchemaStopsSelection : Prop :=
  ∀ (i : Instr) (s : State), (i = .blank ∨ i = .parse ∨ ∃ f, i = .lookup f) → s.err = 0 →
    (∀ h, schemaAt s.cfg.schrom s.schsel.toNat = some h → hdrOk s.cfg.recMax h = false) →
    exec i s = .next { s with err := 7, errinfo := encode i }

/-- LOOKUP reports the two words of the first descriptor with the identifier, as stored, and changes nothing else;
without one it raises `UnknownField`. And the layout of what it looks up (R75 to R80 of `30_encoding.md`): where each
schema starts, the bits of each field of a header and of a descriptor, which headers and descriptors are well-formed, and
how many bytes a field covers (the last is derived by the spec from R77). -/
def Obligations.LookupReportsDescriptorWords : Prop :=
  (∀ (s : State) (h : Header) (fid : BitVec 16), s.err = 0 →
    schemaAt s.cfg.schrom s.schsel.toNat = some h → hdrOk s.cfg.recMax h = true →
    (∀ k, k < h.nfields → (romWord s.cfg.schrom (h.start + 3 + 2 * k)).extractLsb' 0 16 = fid →
      (∀ j, j < k → (romWord s.cfg.schrom (h.start + 3 + 2 * j)).extractLsb' 0 16 ≠ fid) →
      exec (.lookup fid) s =
        .next { s with dsc0 := romWord s.cfg.schrom (h.start + 3 + 2 * k)
                       dsc1 := romWord s.cfg.schrom (h.start + 4 + 2 * k) }) ∧
    ((∀ k, k < h.nfields → (romWord s.cfg.schrom (h.start + 3 + 2 * k)).extractLsb' 0 16 ≠ fid) →
      exec (.lookup fid) s = .next { s with err := 3, errinfo := encode (.lookup fid) })) ∧
  (∀ (rom : List Word) (i : Nat),
    schemaBase rom 0 = 1 ∧
    schemaBase rom (i + 1) = schemaBase rom i + 3 + 2 * ((rom.getD (schemaBase rom i + 2) 0).toNat % 2 ^ 16) ∧
    schemaAt rom i =
      if i < (rom.getD 0 0).toNat % 2 ^ 16 then some (headerAt rom (schemaBase rom i)) else none) ∧
  (∀ (rom : List Word) (p : Nat),
    (headerAt rom p).start = p ∧
    (headerAt rom p).size = (rom.getD p 0).toNat % 2 ^ 16 ∧
    (headerAt rom p).gen.toNat = (rom.getD p 0).toNat / 2 ^ 16 % 2 ^ 8 ∧
    (headerAt rom p).kind.toNat = (rom.getD p 0).toNat / 2 ^ 24 % 2 ^ 2 ∧
    (headerAt rom p).rsv0.toNat = (rom.getD p 0).toNat / 2 ^ 26 ∧
    (headerAt rom p).payEnd = (rom.getD (p + 1) 0).toNat % 2 ^ 16 ∧
    (headerAt rom p).tailEnd = (rom.getD (p + 1) 0).toNat / 2 ^ 16 ∧
    (headerAt rom p).nfields = (rom.getD (p + 2) 0).toNat % 2 ^ 16 ∧
    (headerAt rom p).rsv2.toNat = (rom.getD (p + 2) 0).toNat / 2 ^ 16) ∧
  (∀ (rom : List Word) (h : Header) (k : Nat), ∃ w0 w1 : Nat,
    w0 = (rom.getD (h.start + 3 + 2 * k) 0).toNat ∧ w1 = (rom.getD (h.start + 4 + 2 * k) 0).toNat ∧
    (descAt rom h k).d0.toNat = w0 ∧ (descAt rom h k).d1.toNat = w1 ∧
    (descAt rom h k).fid.toNat = w0 % 2 ^ 16 ∧
    (descAt rom h k).off = w0 / 2 ^ 16 ∧
    (descAt rom h k).width = w1 % 2 ^ 16 ∧
    w1 / 2 ^ 16 % 4 =
      (match (descAt rom h k).dkind with | .int => 0 | .bits => 1 | .str => 2 | .raw => 3) ∧
    (descAt rom h k).be.toNat = w1 / 2 ^ 18 % 2 ∧
    (descAt rom h k).pad.toNat = w1 / 2 ^ 19 % 2 ∧
    (descAt rom h k).bshift = w1 / 2 ^ 20 % 2 ^ 5 ∧
    (descAt rom h k).bwidth = w1 / 2 ^ 25 % 2 ^ 6 ∧
    (descAt rom h k).rsv.toNat = w1 / 2 ^ 31) ∧
  (∀ (recMax : Nat) (h : Header), hdrOk recMax h = true ↔
    h.rsv0 = 0 ∧ h.rsv2 = 0 ∧ 8 ≤ h.payEnd ∧ h.payEnd ≤ h.tailEnd ∧ h.tailEnd ≤ h.size ∧ h.size ≤ recMax) ∧
  (∀ (auxMax : Nat) (d : Desc), descOk auxMax d = true ↔
    d.rsv = false ∧
    match d.dkind with
    | .int => (d.width = 1 ∨ d.width = 2 ∨ d.width = 4) ∧ d.be = false ∧ d.pad = false ∧ d.bshift = 0 ∧ d.bwidth = 0
    | .bits =>
      (d.width = 1 ∨ d.width = 2 ∨ d.width = 4) ∧ 1 ≤ d.bwidth ∧ d.bwidth ≤ 32 ∧
        d.bshift + d.bwidth ≤ 8 * d.width ∧ d.pad = false
    | .str => 1 ≤ d.width ∧ 2 * d.width ≤ auxMax ∧ d.be = false ∧ d.bshift = 0 ∧ d.bwidth = 0
    | .raw =>
      1 ≤ d.width ∧ d.width ≤ auxMax ∧ d.be = false ∧ d.pad = false ∧ d.bshift = 0 ∧ d.bwidth = 0) ∧
  (∀ d : Desc, extent d = if d.dkind = .str then 2 * d.width else d.width)

/-- RESOLVE selects the first schema with `gen = GEN` and `size = RLEN`, reports its kind in `VAL` and unbinds; with
no such schema it raises `UnsupportedLength`. It does not check the header. -/
def Obligations.ResolveSelectsFirstMatch : Prop :=
  ∀ s : State, s.err = 0 →
    (∀ (i : Nat) (h : Header), schemaAt s.cfg.schrom i = some h → h.gen = s.gen → h.size = s.rlen.toNat →
      (∀ (j : Nat) (g : Header), j < i → schemaAt s.cfg.schrom j = some g →
        ¬(g.gen = s.gen ∧ g.size = s.rlen.toNat)) →
      exec .resolve s =
        .next { s with schsel := BitVec.ofNat 16 i, val := h.kind.setWidth 32, bound := false }) ∧
    ((∀ (i : Nat) (h : Header), schemaAt s.cfg.schrom i = some h → ¬(h.gen = s.gen ∧ h.size = s.rlen.toNat)) →
      exec .resolve s = .next { s with err := 5, errinfo := 0x00000003 })

/-! Creating and accepting a record. -/

/-- BLANK zeroes `REC[0..size)`, sets `RLEN` to the size and binds; every other byte and register keeps its value. -/
def Obligations.BlankMakesZeroRecord : Prop :=
  ∀ (s : State) (h : Header), s.err = 0 → schemaAt s.cfg.schrom s.schsel.toNat = some h →
    hdrOk s.cfg.recMax h = true →
    ∃ t, exec .blank s = .next t ∧
      t = { s with recBuf := t.recBuf, rlen := BitVec.ofNat 16 h.size, bound := true } ∧ t.rlen.toNat = h.size ∧
      ∀ a, t.recByte a = if a < h.size then 0 else s.recByte a

/-- PARSE binds the record when `RLEN` is the schema's size, changing nothing else; else it raises
`LengthMismatch`. -/
def Obligations.ParseChecksOnlyTheLength : Prop :=
  ∀ (s : State) (h : Header), s.err = 0 → schemaAt s.cfg.schrom s.schsel.toNat = some h →
    hdrOk s.cfg.recMax h = true →
    exec .parse s =
      if s.rlen.toNat = h.size then .next { s with bound := true }
      else .next { s with err := 1, errinfo := 0x00000004 }

/-! Reading and writing fields. -/

/-- R102, R107: the checks common to GET and SET, in order: `UnknownField`, `BadSchema`, `OutOfRange`. -/
def Obligations.FieldErrorsComeInOrder : Prop :=
  ∀ (s : State) (h : Header) (fid : BitVec 16) (i : Instr), (i = .get fid ∨ i = .set fid) → Ready s →
    boundHeader s = some h →
    ((∀ k, k < h.nfields → (descAt s.cfg.schrom h k).fid ≠ fid) →
      exec i s = .next { s with err := 3, errinfo := encode i }) ∧
    (∀ d, findField s.cfg.schrom h fid = .ok d → descOk s.cfg.auxMax d = false →
      exec i s = .next { s with err := 7, errinfo := encode i }) ∧
    (∀ d, findField s.cfg.schrom h fid = .ok d → descOk s.cfg.auxMax d = true → s.rlen.toNat < d.off + extent d →
      exec i s = .next { s with err := 2, errinfo := encode i })

/-- R103: GET of an INT field: `VAL` receives the little-endian value, zero-extended; nothing else changes. -/
def Obligations.GetIntegerReadsLittleEndian : Prop :=
  ∀ (s : State) (h : Header) (fid : BitVec 16) (d : Desc), FieldReady s h fid d → d.dkind = .int →
    ∃ v : Word, v.toNat = le (memRead s d.off d.width) ∧ exec (.get fid) s = .next { s with val := v }

/-- R104: GET of a BITS field: bit `j` of `VAL` is bit `bshift + j` of the container word for `j < bwidth`, and 0
above; the container is read little- or big-endian as `be` says; nothing else changes. -/
def Obligations.GetBitsReadsContainerField : Prop :=
  ∀ (s : State) (h : Header) (fid : BitVec 16) (d : Desc), FieldReady s h fid d → d.dkind = .bits →
    ∃ v : Word,
      (∀ j, v.getLsbD j = (decide (j < d.bwidth) &&
        (if d.be then be (memRead s d.off d.width) else le (memRead s d.off d.width)).testBit (d.bshift + j))) ∧
      exec (.get fid) s = .next { s with val := v }

/-- R105: GET of a STR field: the code units before the first 0xFFFF, or all of them, go to `AUX` from 0 on, and their
byte count to `ALEN`; nothing else changes. -/
def Obligations.GetStringStopsAtTerminator : Prop :=
  ∀ (s : State) (h : Header) (fid : BitVec 16) (d : Desc), configOk s.cfg = true → FieldReady s h fid d →
    d.dkind = .str →
    ∃ (n : Nat) (t : State), n ≤ d.width ∧
      (∀ k, k < n → ¬(s.recByte (d.off + 2 * k) = 0xFF ∧ s.recByte (d.off + 2 * k + 1) = 0xFF)) ∧
      (n < d.width → s.recByte (d.off + 2 * n) = 0xFF ∧ s.recByte (d.off + 2 * n + 1) = 0xFF) ∧
      exec (.get fid) s = .next t ∧
      t = { s with auxBuf := t.auxBuf, alen := BitVec.ofNat 16 (2 * n) } ∧ t.alen.toNat = 2 * n ∧
      ∀ a, t.auxByte a = if a < 2 * n then s.recByte (d.off + a) else s.auxByte a

/-- R106: GET of a RAW field: its bytes go to `AUX` from 0 on, and their count to `ALEN`; nothing else changes. -/
def Obligations.GetRawCopiesBytes : Prop :=
  ∀ (s : State) (h : Header) (fid : BitVec 16) (d : Desc), FieldReady s h fid d → d.dkind = .raw →
    ∃ t, exec (.get fid) s = .next t ∧
      t = { s with auxBuf := t.auxBuf, alen := BitVec.ofNat 16 d.width } ∧ t.alen.toNat = d.width ∧
      ∀ a, t.auxByte a = if a < d.width then s.recByte (d.off + a) else s.auxByte a

/-- R108: SET of an INT field: a value that fits becomes the field's little-endian value and no other byte changes;
one that does not raises `ValueRange`. -/
def Obligations.SetIntegerWritesLittleEndian : Prop :=
  ∀ (s : State) (h : Header) (fid : BitVec 16) (d : Desc), FieldReady s h fid d → d.dkind = .int →
    (s.val.toNat < 2 ^ (8 * d.width) →
      ∃ t, exec (.set fid) s = .next t ∧ t = { s with recBuf := t.recBuf } ∧
        le (memRead t d.off d.width) = s.val.toNat ∧
        ∀ a, a < d.off ∨ d.off + d.width ≤ a → t.recByte a = s.recByte a) ∧
    (2 ^ (8 * d.width) ≤ s.val.toNat →
      exec (.set fid) s = .next { s with err := 8, errinfo := encode (.set fid) })

/-- R109: SET of a BITS field: the field's bits of the container become the value's, every other bit of the container
and every other byte keeps its value; a value that does not fit raises `ValueRange`. -/
def Obligations.SetBitsKeepsOtherBits : Prop :=
  ∀ (s : State) (h : Header) (fid : BitVec 16) (d : Desc), FieldReady s h fid d → d.dkind = .bits →
    (s.val.toNat < 2 ^ d.bwidth →
      ∃ t, exec (.set fid) s = .next t ∧ t = { s with recBuf := t.recBuf } ∧
        (∀ j, j < 8 * d.width → (container t d).testBit j =
          if d.bshift ≤ j ∧ j < d.bshift + d.bwidth then s.val.getLsbD (j - d.bshift)
          else (container s d).testBit j) ∧
        ∀ a, a < d.off ∨ d.off + d.width ≤ a → t.recByte a = s.recByte a) ∧
    (2 ^ d.bwidth ≤ s.val.toNat →
      exec (.set fid) s = .next { s with err := 8, errinfo := encode (.set fid) })

/-- R110: SET of a STR field of `W` units: the first `min(ALEN / 2, W)` units of `AUX`, then terminators under `pad =
0`, or one terminator and zeros under `pad = 1`; an odd `ALEN` or one above `AUXMAX` raises `ValueRange`. That a value
too long is cut is the spec's own reading where its source is silent (log 9). -/
def Obligations.SetStringPadsAsDescribed : Prop :=
  ∀ (s : State) (h : Header) (fid : BitVec 16) (d : Desc), FieldReady s h fid d → d.dkind = .str →
    (s.alen.toNat % 2 = 0 ∧ s.alen.toNat ≤ s.cfg.auxMax →
      ∃ t, exec (.set fid) s = .next t ∧ t = { s with recBuf := t.recBuf } ∧
        (∀ a, a < 2 * d.width → t.recByte (d.off + a) =
          if a < 2 * min (s.alen.toNat / 2) d.width then s.auxByte a
          else if d.pad = false ∨ a < 2 * min (s.alen.toNat / 2) d.width + 2 then 0xFF else 0x00) ∧
        ∀ a, a < d.off ∨ d.off + 2 * d.width ≤ a → t.recByte a = s.recByte a) ∧
    (s.alen.toNat % 2 ≠ 0 ∨ s.cfg.auxMax < s.alen.toNat →
      exec (.set fid) s = .next { s with err := 8, errinfo := encode (.set fid) })

/-- R111: SET of a RAW field: exactly `width` bytes of `AUX`, never cut or padded; another `ALEN` raises
`ValueRange`. -/
def Obligations.SetRawNeedsExactLength : Prop :=
  ∀ (s : State) (h : Header) (fid : BitVec 16) (d : Desc), FieldReady s h fid d → d.dkind = .raw →
    (s.alen.toNat = d.width →
      ∃ t, exec (.set fid) s = .next t ∧ t = { s with recBuf := t.recBuf } ∧
        ∀ a, t.recByte a = if d.off ≤ a ∧ a < d.off + d.width then s.auxByte (a - d.off) else s.recByte a) ∧
    (s.alen.toNat ≠ d.width →
      exec (.set fid) s = .next { s with err := 8, errinfo := encode (.set fid) })

/-- The law the spec derives in section 5 of `41_record_codec.md` (item 1): after a SET that completes, and whatever
`VAL`, `ALEN` and `AUX` hold by then, GET of the same field returns the value set and changes nothing else: in `VAL` for
INT and BITS, in `AUX` and `ALEN` for RAW, and for STR when the value set has at most as many code units as the field and
none of them is 0xFFFF. -/
def Obligations.GetAfterSetReturnsValue : Prop :=
  ∀ (s t t' : State) (h : Header) (fid : BitVec 16) (d : Desc) (v : Word) (n : BitVec 16) (aux : Memory),
    FieldReady s h fid d → exec (.set fid) s = .next t → t.err = 0 →
    t' = { t with val := v, alen := n, auxBuf := aux } →
    (d.dkind = .int ∨ d.dkind = .bits → exec (.get fid) t' = .next { t' with val := s.val }) ∧
    (d.dkind = .raw →
      ∃ u, exec (.get fid) t' = .next u ∧ u = { t' with auxBuf := u.auxBuf, alen := s.alen } ∧
        ∀ a, u.auxByte a = if a < s.alen.toNat then s.auxByte a else t'.auxByte a) ∧
    (d.dkind = .str → s.alen.toNat ≤ 2 * d.width →
      (∀ k, 2 * k < s.alen.toNat → ¬(s.auxByte (2 * k) = 0xFF ∧ s.auxByte (2 * k + 1) = 0xFF)) →
      ∃ u, exec (.get fid) t' = .next u ∧ u = { t' with auxBuf := u.auxBuf, alen := s.alen } ∧
        ∀ a, u.auxByte a = if a < s.alen.toNat then s.auxByte a else t'.auxByte a)

/-! The checksum. -/

/-- R120: `Sum16` is the sum modulo 65536 of the little-endian 16-bit words of the string, a missing last high byte
counting as zero. -/
def Obligations.SumIsWordSumModulo : Prop :=
  ∀ b : List Byte, (sum16 b).toNat =
    ((List.range ((b.length + 1) / 2)).map
      (fun i => (b.getD (2 * i) 0).toNat + 256 * (b.getD (2 * i + 1) 0).toNat)).sum % 65536

/-- The laws the spec derives from R120 in section 1 of `42_checksum.md`: `Sum16` does not depend on the order of the
words, wraps at 65536, depends on the order of the bytes inside a word, and is not changed by appended zeros;
shuffling blocks of even length does not change it, and shuffling blocks of odd length can. -/
def Obligations.SumLaws : Prop :=
  (∀ a b : List Byte, a.length % 2 = 0 → b.length % 2 = 0 →
    sum16 (a ++ b) = sum16 (b ++ a) ∧ sum16 (a ++ b) = sum16 a + sum16 b) ∧
  (∀ (t : Nat) (b : List Byte), t < 24 → b.length % 8 = 0 → sum16 (popSeq t b) = sum16 b) ∧
  sum16 (popSeq 6 [0x01, 0x02, 0x03, 0x04]) ≠ sum16 [0x01, 0x02, 0x03, 0x04] ∧
  sum16 [0xFF, 0xFF, 0x01, 0x00] = 0 ∧ sum16 [0xFF, 0xFF, 0x02, 0x00] = 1 ∧
  sum16 [0x01, 0x00] = 0x0001 ∧ sum16 [0x00, 0x01] = 0x0100 ∧
  (∀ (b : List Byte) (k : Nat), sum16 (b ++ zeros k) = sum16 b)

/-- SERIALIZE stores the checksum of the payload in `REC[6..8)` and `CKSUM`, and changes nothing else. -/
def Obligations.SerializeStoresPayloadSum : Prop :=
  ∀ (s : State) (h : Header), Ready s → boundHeader s = some h →
    ∃ t, exec .serialize s = .next t ∧
      t = { s with recBuf := t.recBuf, cksum := sum16 (memRead s 8 (h.payEnd - 8)) } ∧
      le (memRead t 6 2) = (sum16 (memRead s 8 (h.payEnd - 8))).toNat ∧
      ∀ a, a ≠ 6 → a ≠ 7 → t.recByte a = s.recByte a

/-- CHECK writes the payload's checksum to `CKSUM` and to `CKOK` whether the stored one equals it; a mismatch is no
error; `REC` is not written. -/
def Obligations.CheckComparesWithoutError : Prop :=
  ∀ (s : State) (h : Header), Ready s → boundHeader s = some h →
    exec .check s =
      .next { s with cksum := sum16 (memRead s 8 (h.payEnd - 8))
                     ckok := decide ((sum16 (memRead s 8 (h.payEnd - 8))).toNat = le (memRead s 6 2)) }

/-- The law the spec derives in section 5 of `41_record_codec.md` (item 4): CHECK right after SERIALIZE sets
`CKOK`. -/
def Obligations.CheckAfterSerializeSucceeds : Prop :=
  ∀ (s : State) (h : Header), Ready s → boundHeader s = some h →
    ∃ t u, exec .serialize s = .next t ∧ exec .check t = .next u ∧ u.ckok = true ∧ u.cksum = t.cksum ∧ u.err = 0

/-! The cipher. -/

/-- R132: the shift is the 5-bit field in bits 17 to 13 of the personality value, modulo 24, a number below 24. -/
def Obligations.ShiftIsFiveBitFieldModulo : Prop :=
  ∀ pv : BitVec 32, shiftOf pv = (pv.extractLsb' 13 5).toNat % 24 ∧ shiftOf pv < 24

/-- The table the spec derives in section 2 of `43_cipher.md` by running `PopSeq` on ABCD: `PopSeq` reorders the four
blocks of the padded string as it says, and the 24 orders are the 24 different ones. -/
def Obligations.ShuffleFollowsOrderTable : Prop :=
  (∀ (t : Nat) (b : List Byte), t < 24 → popSeq t b = ((blockOrders.getD t []).map (blockOf b)).flatten) ∧
    blockOrders.length = 24 ∧ blockOrders.Nodup ∧ (∀ o, o ∈ blockOrders → o.Perm [0, 1, 2, 3])

/-- The inverse-shift table, derived by the spec from the order table (section 2 of `43_cipher.md`): `INV` holds for
each shift the one shift that undoes it on every string; it is its own inverse and has exactly ten fixed points. -/
def Obligations.InverseTableIsTheOnlyOne : Prop :=
  (∀ t u : Nat, t < 24 → u < 24 → ((∀ b, popSeq u (popSeq t b) = pad4 b) ↔ invTable.getD t 0 = u)) ∧
    (∀ t, t < 24 → invTable.getD (invTable.getD t 0) 0 = t) ∧
    (∀ t, t < 24 → (invTable.getD t 0 = t ↔ t ∈ [0, 1, 2, 5, 6, 7, 14, 16, 21, 23]))

/-- R137 and the law the spec derives with it: un-shuffling is the shuffle by the inverse shift, and undoes shuffling
and the other way round, up to the zero-pad, for every shift and string. -/
def Obligations.UnshuffleInvertsShuffle : Prop :=
  (∀ (t : Nat) (b : List Byte), t < 24 →
    unshuffle t b = popSeq (invTable.getD t 0) b ∧
    unshuffle t (popSeq t b) = pad4 b ∧ popSeq t (unshuffle t b) = pad4 b) ∧
  popSeq 9 [0x41, 0x42, 0x43, 0x44] = [0x42, 0x43, 0x44, 0x41] ∧
  unshuffle 9 [0x42, 0x43, 0x44, 0x41] = [0x41, 0x42, 0x43, 0x44] ∧
  popSeq 9 [0x42, 0x43, 0x44, 0x41] = [0x43, 0x44, 0x41, 0x42]

/-- R138, R139: word `i` of the stream is the upper half of the generator's state after `i + 1` advances,
exclusive-ored low byte with low byte (the spec's own reading of the word's byte order, log 9); the generator is
linear modulo 2^32; the stream keeps the length and, as the spec derives, is its own inverse. -/
def Obligations.StreamIsKeyedAndSelfInverse : Prop :=
  (∀ s : BitVec 32, (lcgNext s).toNat = (0x41C64E6D * s.toNat + 0x6073) % 2 ^ 32) ∧
  (∀ (seed : BitVec 32) (b : List Byte), b.length % 2 = 0 →
    (lcgXor seed b).length = b.length ∧ lcgXor seed (lcgXor seed b) = b ∧
    ∀ i, 2 * i + 1 < b.length →
      (lcgXor seed b).getD (2 * i) 0 = b.getD (2 * i) 0 ^^^ (lcgState seed (i + 1)).extractLsb' 16 8 ∧
      (lcgXor seed b).getD (2 * i + 1) 0 = b.getD (2 * i + 1) 0 ^^^ (lcgState seed (i + 1)).extractLsb' 24 8)

/-- ENCRYPT on a bound record: bytes 4 and 5 become 0, bytes 6 and 7 and `CKSUM` the sum of the shuffled payload, the
payload its exclusive-or with the stream that sum seeds, what follows moves up by the zero-pad, and a record that grew
is unbound; beyond `RECMAX` it raises `OutOfRange`. -/
def Obligations.EncryptTransformsPayload : Prop :=
  ∀ (s : State) (h : Header) (sh : List Byte) (ck : BitVec 16), Ready s → boundHeader s = some h →
    sh = popSeq (shiftOf (BitVec.ofNat 32 (le (memRead s 0 4)))) (memRead s 8 (h.payEnd - 8)) → ck = sum16 sh →
    (s.rlen.toNat + growth (h.payEnd - 8) ≤ s.cfg.recMax →
      ∃ t, exec .encrypt s = .next t ∧
        t = { s with recBuf := t.recBuf, cksum := ck, bound := decide (growth (h.payEnd - 8) = 0)
                     rlen := BitVec.ofNat 16 (s.rlen.toNat + growth (h.payEnd - 8)) } ∧
        ∀ a, t.recByte a =
          replacedByte s
            (fun x => if x < 4 then s.recByte x else if x < 6 then 0 else (leBytes 2 ck.toNat).getD (x - 6) 0)
            8 h.payEnd (lcgXor (ck.setWidth 32) sh) a) ∧
    (s.cfg.recMax < s.rlen.toNat + growth (h.payEnd - 8) →
      exec .encrypt s = .next { s with err := 2, errinfo := 0x0000000A })

/-- DECRYPT on a bound record: the padded payload is exclusive-ored with the stream the stored checksum seeds and
un-shuffled; the header and `CKSUM` are not written; growth as in ENCRYPT. -/
def Obligations.DecryptTransformsPayload : Prop :=
  ∀ (s : State) (h : Header) (p : List Byte), Ready s → boundHeader s = some h →
    p = popSeq (invTable.getD (shiftOf (BitVec.ofNat 32 (le (memRead s 0 4)))) 0)
      (lcgXor (BitVec.ofNat 32 (le (memRead s 6 2))) (pad4 (memRead s 8 (h.payEnd - 8)))) →
    (s.rlen.toNat + growth (h.payEnd - 8) ≤ s.cfg.recMax →
      ∃ t, exec .decrypt s = .next t ∧
        t = { s with recBuf := t.recBuf, bound := decide (growth (h.payEnd - 8) = 0)
                     rlen := BitVec.ofNat 16 (s.rlen.toNat + growth (h.payEnd - 8)) } ∧
        ∀ a, t.recByte a = replacedByte s s.recByte 8 h.payEnd p a) ∧
    (s.cfg.recMax < s.rlen.toNat + growth (h.payEnd - 8) →
      exec .decrypt s = .next { s with err := 2, errinfo := 0x0000000B })

/-- TENCRYPT on a bound record: the tail is shuffled, summed into `CKSUM`, and exclusive-ored with the stream seeded
by all 32 bits of the personality value; header and payload are not written (the spec's own reading of the second
transform, D25 of `92_eei_decisions.md`; log 9). -/
def Obligations.TencryptTransformsTail : Prop :=
  ∀ (s : State) (h : Header) (pv : BitVec 32) (sh : List Byte), Ready s → boundHeader s = some h →
    pv = BitVec.ofNat 32 (le (memRead s 0 4)) →
    sh = popSeq (shiftOf pv) (memRead s h.payEnd (h.tailEnd - h.payEnd)) →
    (s.rlen.toNat + growth (h.tailEnd - h.payEnd) ≤ s.cfg.recMax →
      ∃ t, exec .tencrypt s = .next t ∧
        t = { s with recBuf := t.recBuf, cksum := sum16 sh, bound := decide (growth (h.tailEnd - h.payEnd) = 0)
                     rlen := BitVec.ofNat 16 (s.rlen.toNat + growth (h.tailEnd - h.payEnd)) } ∧
        ∀ a, t.recByte a = replacedByte s s.recByte h.payEnd h.tailEnd (lcgXor pv sh) a) ∧
    (s.cfg.recMax < s.rlen.toNat + growth (h.tailEnd - h.payEnd) →
      exec .tencrypt s = .next { s with err := 2, errinfo := 0x0000000C })

/-- TDECRYPT on a bound record: the padded tail is exclusive-ored with the stream the personality value seeds and
un-shuffled; `CKSUM` is not written (the spec's own reading, D25; log 9). -/
def Obligations.TdecryptTransformsTail : Prop :=
  ∀ (s : State) (h : Header) (pv : BitVec 32) (p : List Byte), Ready s → boundHeader s = some h →
    pv = BitVec.ofNat 32 (le (memRead s 0 4)) →
    p = popSeq (invTable.getD (shiftOf pv) 0) (lcgXor pv (pad4 (memRead s h.payEnd (h.tailEnd - h.payEnd)))) →
    (s.rlen.toNat + growth (h.tailEnd - h.payEnd) ≤ s.cfg.recMax →
      ∃ t, exec .tdecrypt s = .next t ∧
        t = { s with recBuf := t.recBuf, bound := decide (growth (h.tailEnd - h.payEnd) = 0)
                     rlen := BitVec.ofNat 16 (s.rlen.toNat + growth (h.tailEnd - h.payEnd)) } ∧
        ∀ a, t.recByte a = replacedByte s s.recByte h.payEnd h.tailEnd p a) ∧
    (s.cfg.recMax < s.rlen.toNat + growth (h.tailEnd - h.payEnd) →
      exec .tdecrypt s = .next { s with err := 2, errinfo := 0x0000000D })

/-- Item 1 of the round trips the spec derives (section 4 of `43_cipher.md`): when the payload length is a multiple of
4, DECRYPT after ENCRYPT restores the payload and every byte after it whatever the header held, leaves the personality
value, and leaves bytes 4 and 5 zero and the sum of the shuffled payload in bytes 6 and 7. -/
def Obligations.DecryptAfterEncryptRestoresPayload : Prop :=
  ∀ (s : State) (h : Header), Ready s → boundHeader s = some h → (h.payEnd - 8) % 4 = 0 →
    ∃ t u, exec .encrypt s = .next t ∧ exec .decrypt t = .next u ∧ u.rlen = s.rlen ∧ u.bound = true ∧ u.err = 0 ∧
      (∀ a, a < 4 ∨ 8 ≤ a → u.recByte a = s.recByte a) ∧ u.recByte 4 = 0 ∧ u.recByte 5 = 0 ∧
      le (memRead u 6 2) =
        (sum16 (popSeq (shiftOf (BitVec.ofNat 32 (le (memRead s 0 4)))) (memRead s 8 (h.payEnd - 8)))).toNat

/-- Item 2 of the round trips the spec derives (section 4 of `43_cipher.md`): when moreover the payload length is a
multiple of 8 and the record is well-formed, DECRYPT after ENCRYPT restores every byte of `REC`. -/
def Obligations.DecryptAfterEncryptIsIdentity : Prop :=
  ∀ (s : State) (h : Header), Ready s → boundHeader s = some h → (h.payEnd - 8) % 8 = 0 → wellFormedRecord s h →
    ∃ t u, exec .encrypt s = .next t ∧ exec .decrypt t = .next u ∧ u.rlen = s.rlen ∧ u.bound = true ∧ u.err = 0 ∧
      ∀ a, u.recByte a = s.recByte a

/-- Item 4 of the round trips the spec derives (section 4 of `43_cipher.md`): when the payload length is a multiple of
4 and the stored checksum is the sum of the payload decoded with the stream it seeds, ENCRYPT after DECRYPT restores
every byte but 4 and 5, which become 0. -/
def Obligations.EncryptAfterDecryptRestoresRecord : Prop :=
  ∀ (s : State) (h : Header), Ready s → boundHeader s = some h → (h.payEnd - 8) % 4 = 0 →
    storedChecksum s = sum16 (lcgXor ((storedChecksum s).setWidth 32) (memRead s 8 (h.payEnd - 8))) →
    ∃ t u, exec .decrypt s = .next t ∧ exec .encrypt t = .next u ∧ u.rlen = s.rlen ∧ u.bound = true ∧ u.err = 0 ∧
      ∀ a, u.recByte a = if a = 4 ∨ a = 5 then 0 else s.recByte a

/-- Item 6 of the round trips the spec derives (section 4 of `43_cipher.md`): when the tail length is a multiple of 4,
TENCRYPT and TDECRYPT undo each other, in either order, on every byte of `REC`. It rests on the spec's own reading of the
tail transform (U2, D25; log 9). -/
def Obligations.TailTransformsUndoEachOther : Prop :=
  ∀ (s : State) (h : Header), Ready s → boundHeader s = some h → (h.tailEnd - h.payEnd) % 4 = 0 →
    (∃ t u, exec .tencrypt s = .next t ∧ exec .tdecrypt t = .next u ∧ u.rlen = s.rlen ∧ u.bound = true ∧ u.err = 0 ∧
      ∀ a, u.recByte a = s.recByte a) ∧
    (∃ t u, exec .tdecrypt s = .next t ∧ exec .tencrypt t = .next u ∧ u.rlen = s.rlen ∧ u.bound = true ∧ u.err = 0 ∧
      ∀ a, u.recByte a = s.recByte a)

/-- A corner case of TENCRYPT (section 3 of `43_cipher.md`) that the spec marks as its own inference, "[derived: from
rule R141]", and that rests on the spec's own reading of the tail transform (U2 of `93_implementation_defined.md`, D25 of
`92_eei_decisions.md`; log 9): when neither grows the record, ENCRYPT and TENCRYPT can be issued in either order with the
same bytes of `REC` as the result. -/
def Obligations.EncryptAndTencryptCommute : Prop :=
  ∀ (s : State) (h : Header), Ready s → boundHeader s = some h → (h.payEnd - 8) % 4 = 0 →
    (h.tailEnd - h.payEnd) % 4 = 0 →
    ∃ t u t' u', exec .encrypt s = .next t ∧ exec .tencrypt t = .next u ∧
      exec .tencrypt s = .next t' ∧ exec .encrypt t' = .next u' ∧ ∀ a, u.recByte a = u'.recByte a

/-- R7: `le` and `be` are the sums of the bytes weighted by powers of 256, lowest address least or most
significant. -/
def Obligations.ByteStringValues : Prop :=
  ∀ s : List Byte,
    le s = ((List.range s.length).map (fun i => (s.getD i 0).toNat * 256 ^ i)).sum ∧
    be s = ((List.range s.length).map (fun i => (s.getD i 0).toNat * 256 ^ (s.length - 1 - i))).sum
end

