-- ==== Sys2Proof/Laws/Bytes.lean ====
section
/-! SUPPORT. The laws of byte strings (R7 of `00_scope.md`). -/

namespace Sys2Proof.Machine

@[simp] theorem length_zeros (n : Nat) : (zeros n).length = n := List.length_replicate

@[simp] theorem length_leBytes (n v : Nat) : (leBytes n v).length = n := by
  induction n generalizing v with
  | zero => rfl
  | succ n ih => simp [leBytes, ih]

@[simp] theorem length_beBytes (n v : Nat) : (beBytes n v).length = n := by simp [beBytes]

@[simp] theorem length_readRun (f : Nat → Byte) (a n : Nat) : (readRun f a n).length = n := by
  induction n generalizing a with
  | zero => rfl
  | succ n ih => simp [readRun, ih]

/-- Byte `i` of a run read from `a` is the byte at `a + i`. -/
theorem getD_readRun (f : Nat → Byte) (a n i : Nat) (hi : i < n) : (readRun f a n).getD i 0 = f (a + i) := by
  induction n generalizing a i with
  | zero => omega
  | succ n ih =>
    cases i with
    | zero => rfl
    | succ i =>
      rw [readRun, List.getD_cons_succ, ih (a + 1) i (by omega)]
      congr 1
      omega

/-- Two storages that agree on a range give the same run. -/
theorem readRun_congr (f g : Nat → Byte) (a n : Nat) (h : ∀ x, a ≤ x → x < a + n → f x = g x) :
    readRun f a n = readRun g a n := by
  induction n generalizing a with
  | zero => rfl
  | succ n ih =>
    simp only [readRun]
    rw [h a (by omega) (by omega), ih (a + 1) (fun x h1 h2 => h x (by omega) (by omega))]

/-- A storage that holds a byte string from `a` on gives it back. -/
theorem readRun_eq_of_getD (f : Nat → Byte) (a : Nat) (bs : List Byte)
    (h : ∀ i, i < bs.length → f (a + i) = bs.getD i 0) : readRun f a bs.length = bs := by
  induction bs generalizing a with
  | nil => rfl
  | cons b bs ih =>
    simp only [List.length_cons, readRun]
    have h0 := h 0 (by simp)
    simp only [Nat.add_zero, List.getD_cons_zero] at h0
    rw [h0, ih (a + 1) (fun i hi => ?_)]
    have := h (i + 1) (by simp [hi])
    rw [List.getD_cons_succ] at this
    rw [← this]
    congr 1
    omega

/-- The value of a byte string fits its width. -/
theorem le_lt (bs : List Byte) : le bs < 256 ^ bs.length := by
  induction bs with
  | nil => simp [le]
  | cons b bs ih =>
    have := b.isLt
    simp only [le, List.length_cons, Nat.pow_succ]
    omega

/-- `le(LE_n(v)) = v` for `v < 256^n` (R7). -/
theorem le_leBytes (n v : Nat) (h : v < 256 ^ n) : le (leBytes n v) = v := by
  induction n generalizing v with
  | zero => simp at h; simp [leBytes, le, h]
  | succ n ih =>
    have h' : v / 256 < 256 ^ n := by
      rw [Nat.pow_succ] at h
      omega
    simp only [leBytes, le, ih _ h', BitVec.toNat_ofNat]
    omega

/-- `LE_n(le(s)) = s` for a string of `n` bytes. -/
theorem leBytes_le (bs : List Byte) : leBytes bs.length (le bs) = bs := by
  induction bs with
  | nil => rfl
  | cons b bs ih =>
    have hb := b.isLt
    have h1 : (b.toNat + 256 * le bs) / 256 = le bs := by omega
    have h2 : BitVec.ofNat 8 (b.toNat + 256 * le bs) = b := by
      apply BitVec.eq_of_toNat_eq
      simp only [BitVec.toNat_ofNat]
      omega
    simp only [List.length_cons, leBytes, le, h1, h2, ih]

/-- `be(BE_n(v)) = v` for `v < 256^n` (R7). -/
theorem be_beBytes (n v : Nat) (h : v < 256 ^ n) : be (beBytes n v) = v := by
  simp [be, beBytes, le_leBytes n v h]

@[simp] theorem length_pad2 (b : List Byte) : (pad2 b).length = b.length + b.length % 2 := by simp [pad2]

@[simp] theorem length_pad4 (b : List Byte) : (pad4 b).length = b.length + (4 - b.length % 4) % 4 := by
  simp [pad4]

/-- A padded string has a length that is a multiple of 4 (R131 of `43_cipher.md`). -/
theorem length_pad4_mod (b : List Byte) : (pad4 b).length % 4 = 0 := by
  rw [length_pad4]
  omega

/-- A string whose length is a multiple of 4 is not padded (R131). -/
theorem pad4_of_mod (b : List Byte) (h : b.length % 4 = 0) : pad4 b = b := by
  simp [pad4, h, zeros]

/-- A string of even length is not padded (R120 of `42_checksum.md`). -/
theorem pad2_of_even (b : List Byte) (h : b.length % 2 = 0) : pad2 b = b := by
  simp [pad2, h, zeros]

end Sys2Proof.Machine
end

