-- ==== Sys2Proof/Laws/Memory.lean ====
section
/-! SUPPORT. The laws of the byte buffers: read after write, and that every operation keeps the canonical form and
stays inside the buffer. -/

namespace Sys2Proof.Machine

/-- The byte at an address after one byte has been written. -/
theorem lookup_write (m : Memory) (a x : Nat) (v : Byte) :
    (m.write a v).lookup x = if x = a then some v else m.lookup x := by
  induction m with
  | nil => simp [Memory.write, Memory.lookup]
  | cons c m ih =>
    obtain ⟨k, b⟩ := c
    simp only [Memory.write]
    split
    · simp [Memory.lookup]
    · split <;> simp only [Memory.lookup, ih] <;> grind

/-- The byte at an address after a byte string has been written. -/
theorem lookup_writeBytes (bs : List Byte) (m : Memory) (a x : Nat) :
    (m.writeBytes a bs).lookup x =
      if a ≤ x ∧ x < a + bs.length then some (bs.getD (x - a) 0) else m.lookup x := by
  induction bs generalizing m a with
  | nil => simp [Memory.writeBytes]
  | cons b bs ih =>
    rw [Memory.writeBytes, ih, lookup_write]
    simp only [List.length_cons]
    by_cases hx : x = a
    · subst hx
      simp
    · by_cases h1 : a + 1 ≤ x ∧ x < a + 1 + bs.length
      · have h2 : a ≤ x ∧ x < a + (bs.length + 1) := by omega
        have h3 : x - a = (x - (a + 1)) + 1 := by omega
        rw [if_pos h1, if_pos h2, h3, List.getD_cons_succ]
      · have h2 : ¬(a ≤ x ∧ x < a + (bs.length + 1)) := by omega
        rw [if_neg h1, if_neg h2, if_neg hx]

/-- A buffer that rises from `lo` rises from any lower bound. -/
theorem risesFrom_mono (m : Memory) {lo lo' : Nat} (hle : lo' ≤ lo) (h : m.risesFrom lo = true) :
    m.risesFrom lo' = true := by
  cases m with
  | nil => rfl
  | cons c m =>
    simp only [Memory.risesFrom, Bool.and_eq_true, decide_eq_true_eq] at h ⊢
    exact ⟨by omega, h.2⟩

/-- A write at or above the lower bound keeps the addresses rising from it. -/
theorem risesFrom_write (m : Memory) (lo a : Nat) (v : Byte) (hle : lo ≤ a) (h : m.risesFrom lo = true) :
    (m.write a v).risesFrom lo = true := by
  induction m generalizing lo with
  | nil => simp [Memory.write, Memory.risesFrom, hle]
  | cons c m ih =>
    obtain ⟨k, b⟩ := c
    simp only [Memory.risesFrom, Bool.and_eq_true, decide_eq_true_eq] at h
    simp only [Memory.write]
    split
    · simp only [Memory.risesFrom, Bool.and_eq_true, decide_eq_true_eq]
      exact ⟨hle, by omega, h.2⟩
    · split
      · simp only [Memory.risesFrom, Bool.and_eq_true, decide_eq_true_eq]
        exact ⟨hle, by subst a; exact h.2⟩
      · simp only [Memory.risesFrom, Bool.and_eq_true, decide_eq_true_eq]
        exact ⟨h.1, ih (k + 1) (by omega) h.2⟩

/-- One written byte keeps the canonical form. -/
theorem wf_write (m : Memory) (a : Nat) (v : Byte) (h : m.wf = true) : (m.write a v).wf = true :=
  risesFrom_write m 0 a v (Nat.zero_le a) h

/-- A written byte string keeps the canonical form. -/
theorem wf_writeBytes (bs : List Byte) (m : Memory) (a : Nat) (h : m.wf = true) :
    (m.writeBytes a bs).wf = true := by
  induction bs generalizing m a with
  | nil => exact h
  | cons b bs ih => exact ih _ _ (wf_write m a b h)

/-- One byte written inside a buffer of `n` bytes leaves every listed address inside it. -/
theorem within_write (n : Nat) (m : Memory) (a : Nat) (v : Byte) (ha : a < n) (h : m.within n = true) :
    (m.write a v).within n = true := by
  induction m with
  | nil => simp [Memory.write, Memory.within, ha]
  | cons c m ih =>
    obtain ⟨k, b⟩ := c
    simp only [Memory.within, List.all_cons, Bool.and_eq_true, decide_eq_true_eq] at h ih
    simp only [Memory.write]
    split
    · simp [Memory.within, ha, h.1, h.2]
    · split
      · simp [Memory.within, ha, h.2]
      · simp only [Memory.within, List.all_cons, Bool.and_eq_true, decide_eq_true_eq]
        exact ⟨h.1, ih h.2⟩

/-- A byte string written inside a buffer of `n` bytes leaves every listed address inside it. -/
theorem within_writeBytes (n : Nat) (bs : List Byte) (m : Memory) (a : Nat) (ha : a + bs.length ≤ n)
    (h : m.within n = true) : (m.writeBytes a bs).within n = true := by
  induction bs generalizing m a with
  | nil => exact h
  | cons b bs ih =>
    simp only [List.length_cons] at ha
    exact ih _ _ (by omega) (within_write n m a b (by omega) h)

/-- The buffers after reset list nothing and have the canonical form. -/
theorem wf_nil : Memory.wf [] = true := rfl

/-- `REC` and `AUX` have the canonical form right after reset, on every instance. -/
theorem wf_resetOf (c : Config) : (State.resetOf c).recBuf.wf = true ∧ (State.resetOf c).auxBuf.wf = true := ⟨rfl, rfl⟩

/-- A buffer that lists nothing lists nothing outside it. -/
theorem within_nil (n : Nat) : Memory.within n [] = true := rfl

/-- Two canonical buffers that list the same bytes are the same data. -/
theorem eq_of_lookup_eq (m m' : Memory) (lo : Nat) (h : m.risesFrom lo = true) (h' : m'.risesFrom lo = true)
    (heq : ∀ x, m.lookup x = m'.lookup x) : m = m' := by
  have below : ∀ (m : Memory) (lo x : Nat), m.risesFrom lo = true → x < lo → m.lookup x = none := by
    intro m
    induction m with
    | nil => intros; rfl
    | cons c m ih =>
      obtain ⟨k, b⟩ := c
      intro lo x hr hx
      simp only [Memory.risesFrom, Bool.and_eq_true, decide_eq_true_eq] at hr
      rw [Memory.lookup, if_neg (by omega)]
      exact ih (k + 1) x hr.2 (by omega)
  induction m generalizing m' lo with
  | nil =>
    cases m' with
    | nil => rfl
    | cons c m' => have := heq c.1; simp [Memory.lookup] at this
  | cons c m ih =>
    obtain ⟨k, b⟩ := c
    cases m' with
    | nil => have := heq k; simp [Memory.lookup] at this
    | cons c' m' =>
      obtain ⟨k', b'⟩ := c'
      simp only [Memory.risesFrom, Bool.and_eq_true, decide_eq_true_eq] at h h'
      have hk := heq k
      have hk' := heq k'
      simp only [Memory.lookup, if_true] at hk hk'
      have hkk : k = k' := by
        rcases Nat.lt_trichotomy k k' with hlt | heq' | hgt
        · rw [if_neg (by omega), below m' (k' + 1) k h'.2 (by omega)] at hk
          exact absurd hk (by simp)
        · exact heq'
        · rw [if_neg (by omega), below m (k + 1) k' h.2 (by omega)] at hk'
          exact absurd hk' (by simp)
      subst hkk
      simp only [if_true, Option.some.injEq] at hk
      subst hk
      rw [ih m' (k + 1) h.2 h'.2 (fun x => ?_)]
      have hx := heq x
      simp only [Memory.lookup] at hx
      by_cases hxk : x = k
      · subst hxk
        rw [below m (x + 1) x h.2 (by omega), below m' (x + 1) x h'.2 (by omega)]
      · rwa [if_neg hxk, if_neg hxk] at hx

end Sys2Proof.Machine
end

