-- ==== Sys2Proof/Laws/State.lean ====
section
/-! SUPPORT. What each shared update of the state does to each field, one lemma per field, true by `rfl`. -/

namespace Sys2Proof.Machine

/-! Error entry (R172). -/

@[simp] theorem raise_cfg (s : State) (e : ErrCode) (w : Word) : (s.raise e w).cfg = s.cfg := rfl
@[simp] theorem raise_recBuf (s : State) (e : ErrCode) (w : Word) : (s.raise e w).recBuf = s.recBuf := rfl
@[simp] theorem raise_auxBuf (s : State) (e : ErrCode) (w : Word) : (s.raise e w).auxBuf = s.auxBuf := rfl
@[simp] theorem raise_err (s : State) (e : ErrCode) (w : Word) : (s.raise e w).err = e.code := rfl
@[simp] theorem raise_bound (s : State) (e : ErrCode) (w : Word) : (s.raise e w).bound = s.bound := rfl
@[simp] theorem raise_ckok (s : State) (e : ErrCode) (w : Word) : (s.raise e w).ckok = s.ckok := rfl
@[simp] theorem raise_errinfo (s : State) (e : ErrCode) (w : Word) : (s.raise e w).errinfo = w := rfl
@[simp] theorem raise_gen (s : State) (e : ErrCode) (w : Word) : (s.raise e w).gen = s.gen := rfl
@[simp] theorem raise_rlen (s : State) (e : ErrCode) (w : Word) : (s.raise e w).rlen = s.rlen := rfl
@[simp] theorem raise_schsel (s : State) (e : ErrCode) (w : Word) : (s.raise e w).schsel = s.schsel := rfl
@[simp] theorem raise_val (s : State) (e : ErrCode) (w : Word) : (s.raise e w).val = s.val := rfl
@[simp] theorem raise_alen (s : State) (e : ErrCode) (w : Word) : (s.raise e w).alen = s.alen := rfl
@[simp] theorem raise_cksum (s : State) (e : ErrCode) (w : Word) : (s.raise e w).cksum = s.cksum := rfl
@[simp] theorem raise_dsc0 (s : State) (e : ErrCode) (w : Word) : (s.raise e w).dsc0 = s.dsc0 := rfl
@[simp] theorem raise_dsc1 (s : State) (e : ErrCode) (w : Word) : (s.raise e w).dsc1 = s.dsc1 := rfl
@[simp] theorem raise_host (s : State) (e : ErrCode) (w : Word) : (s.raise e w).host = s.host := rfl
@[simp] theorem raise_replies (s : State) (e : ErrCode) (w : Word) : (s.raise e w).replies = s.replies := rfl

/-! Error return (R174). -/

@[simp] theorem clearError_cfg (s : State) : (s.clearError).cfg = s.cfg := rfl
@[simp] theorem clearError_recBuf (s : State) : (s.clearError).recBuf = s.recBuf := rfl
@[simp] theorem clearError_auxBuf (s : State) : (s.clearError).auxBuf = s.auxBuf := rfl
@[simp] theorem clearError_err (s : State) : (s.clearError).err = 0 := rfl
@[simp] theorem clearError_bound (s : State) : (s.clearError).bound = s.bound := rfl
@[simp] theorem clearError_ckok (s : State) : (s.clearError).ckok = s.ckok := rfl
@[simp] theorem clearError_errinfo (s : State) : (s.clearError).errinfo = 0 := rfl
@[simp] theorem clearError_gen (s : State) : (s.clearError).gen = s.gen := rfl
@[simp] theorem clearError_rlen (s : State) : (s.clearError).rlen = s.rlen := rfl
@[simp] theorem clearError_schsel (s : State) : (s.clearError).schsel = s.schsel := rfl
@[simp] theorem clearError_val (s : State) : (s.clearError).val = s.val := rfl
@[simp] theorem clearError_alen (s : State) : (s.clearError).alen = s.alen := rfl
@[simp] theorem clearError_cksum (s : State) : (s.clearError).cksum = s.cksum := rfl
@[simp] theorem clearError_dsc0 (s : State) : (s.clearError).dsc0 = s.dsc0 := rfl
@[simp] theorem clearError_dsc1 (s : State) : (s.clearError).dsc1 = s.dsc1 := rfl
@[simp] theorem clearError_host (s : State) : (s.clearError).host = s.host := rfl
@[simp] theorem clearError_replies (s : State) : (s.clearError).replies = s.replies := rfl

/-! A write to `REC`. -/

@[simp] theorem memWrite_cfg (s : State) (a : Nat) (bs : List Byte) : (memWrite s a bs).cfg = s.cfg := rfl
@[simp] theorem memWrite_recBuf (s : State) (a : Nat) (bs : List Byte) : (memWrite s a bs).recBuf = s.recBuf.writeBytes a bs := rfl
@[simp] theorem memWrite_auxBuf (s : State) (a : Nat) (bs : List Byte) : (memWrite s a bs).auxBuf = s.auxBuf := rfl
@[simp] theorem memWrite_err (s : State) (a : Nat) (bs : List Byte) : (memWrite s a bs).err = s.err := rfl
@[simp] theorem memWrite_bound (s : State) (a : Nat) (bs : List Byte) : (memWrite s a bs).bound = s.bound := rfl
@[simp] theorem memWrite_ckok (s : State) (a : Nat) (bs : List Byte) : (memWrite s a bs).ckok = s.ckok := rfl
@[simp] theorem memWrite_errinfo (s : State) (a : Nat) (bs : List Byte) : (memWrite s a bs).errinfo = s.errinfo := rfl
@[simp] theorem memWrite_gen (s : State) (a : Nat) (bs : List Byte) : (memWrite s a bs).gen = s.gen := rfl
@[simp] theorem memWrite_rlen (s : State) (a : Nat) (bs : List Byte) : (memWrite s a bs).rlen = s.rlen := rfl
@[simp] theorem memWrite_schsel (s : State) (a : Nat) (bs : List Byte) : (memWrite s a bs).schsel = s.schsel := rfl
@[simp] theorem memWrite_val (s : State) (a : Nat) (bs : List Byte) : (memWrite s a bs).val = s.val := rfl
@[simp] theorem memWrite_alen (s : State) (a : Nat) (bs : List Byte) : (memWrite s a bs).alen = s.alen := rfl
@[simp] theorem memWrite_cksum (s : State) (a : Nat) (bs : List Byte) : (memWrite s a bs).cksum = s.cksum := rfl
@[simp] theorem memWrite_dsc0 (s : State) (a : Nat) (bs : List Byte) : (memWrite s a bs).dsc0 = s.dsc0 := rfl
@[simp] theorem memWrite_dsc1 (s : State) (a : Nat) (bs : List Byte) : (memWrite s a bs).dsc1 = s.dsc1 := rfl
@[simp] theorem memWrite_host (s : State) (a : Nat) (bs : List Byte) : (memWrite s a bs).host = s.host := rfl
@[simp] theorem memWrite_replies (s : State) (a : Nat) (bs : List Byte) : (memWrite s a bs).replies = s.replies := rfl

/-! A write to `AUX`. -/

@[simp] theorem auxWrite_cfg (s : State) (a : Nat) (bs : List Byte) : (auxWrite s a bs).cfg = s.cfg := rfl
@[simp] theorem auxWrite_recBuf (s : State) (a : Nat) (bs : List Byte) : (auxWrite s a bs).recBuf = s.recBuf := rfl
@[simp] theorem auxWrite_auxBuf (s : State) (a : Nat) (bs : List Byte) : (auxWrite s a bs).auxBuf = s.auxBuf.writeBytes a bs := rfl
@[simp] theorem auxWrite_err (s : State) (a : Nat) (bs : List Byte) : (auxWrite s a bs).err = s.err := rfl
@[simp] theorem auxWrite_bound (s : State) (a : Nat) (bs : List Byte) : (auxWrite s a bs).bound = s.bound := rfl
@[simp] theorem auxWrite_ckok (s : State) (a : Nat) (bs : List Byte) : (auxWrite s a bs).ckok = s.ckok := rfl
@[simp] theorem auxWrite_errinfo (s : State) (a : Nat) (bs : List Byte) : (auxWrite s a bs).errinfo = s.errinfo := rfl
@[simp] theorem auxWrite_gen (s : State) (a : Nat) (bs : List Byte) : (auxWrite s a bs).gen = s.gen := rfl
@[simp] theorem auxWrite_rlen (s : State) (a : Nat) (bs : List Byte) : (auxWrite s a bs).rlen = s.rlen := rfl
@[simp] theorem auxWrite_schsel (s : State) (a : Nat) (bs : List Byte) : (auxWrite s a bs).schsel = s.schsel := rfl
@[simp] theorem auxWrite_val (s : State) (a : Nat) (bs : List Byte) : (auxWrite s a bs).val = s.val := rfl
@[simp] theorem auxWrite_alen (s : State) (a : Nat) (bs : List Byte) : (auxWrite s a bs).alen = s.alen := rfl
@[simp] theorem auxWrite_cksum (s : State) (a : Nat) (bs : List Byte) : (auxWrite s a bs).cksum = s.cksum := rfl
@[simp] theorem auxWrite_dsc0 (s : State) (a : Nat) (bs : List Byte) : (auxWrite s a bs).dsc0 = s.dsc0 := rfl
@[simp] theorem auxWrite_dsc1 (s : State) (a : Nat) (bs : List Byte) : (auxWrite s a bs).dsc1 = s.dsc1 := rfl
@[simp] theorem auxWrite_host (s : State) (a : Nat) (bs : List Byte) : (auxWrite s a bs).host = s.host := rfl
@[simp] theorem auxWrite_replies (s : State) (a : Nat) (bs : List Byte) : (auxWrite s a bs).replies = s.replies := rfl

/-! The replacement of a region (R140). -/

@[simp] theorem splice_cfg (s : State) (a b : Nat) (new : List Byte) : (splice s a b new).cfg = s.cfg := rfl
@[simp] theorem splice_recBuf (s : State) (a b : Nat) (new : List Byte) : (splice s a b new).recBuf = 
    (s.recBuf.writeBytes a new).writeBytes (a + new.length) (memRead s b (s.rlen.toNat - b)) := rfl
@[simp] theorem splice_auxBuf (s : State) (a b : Nat) (new : List Byte) : (splice s a b new).auxBuf = s.auxBuf := rfl
@[simp] theorem splice_err (s : State) (a b : Nat) (new : List Byte) : (splice s a b new).err = s.err := rfl
@[simp] theorem splice_bound (s : State) (a b : Nat) (new : List Byte) : (splice s a b new).bound = 
    if 0 < new.length - (b - a) then false else s.bound := rfl
@[simp] theorem splice_ckok (s : State) (a b : Nat) (new : List Byte) : (splice s a b new).ckok = s.ckok := rfl
@[simp] theorem splice_errinfo (s : State) (a b : Nat) (new : List Byte) : (splice s a b new).errinfo = s.errinfo := rfl
@[simp] theorem splice_gen (s : State) (a b : Nat) (new : List Byte) : (splice s a b new).gen = s.gen := rfl
@[simp] theorem splice_rlen (s : State) (a b : Nat) (new : List Byte) : (splice s a b new).rlen = 
    BitVec.ofNat 16 (s.rlen.toNat + (new.length - (b - a))) := rfl
@[simp] theorem splice_schsel (s : State) (a b : Nat) (new : List Byte) : (splice s a b new).schsel = s.schsel := rfl
@[simp] theorem splice_val (s : State) (a b : Nat) (new : List Byte) : (splice s a b new).val = s.val := rfl
@[simp] theorem splice_alen (s : State) (a b : Nat) (new : List Byte) : (splice s a b new).alen = s.alen := rfl
@[simp] theorem splice_cksum (s : State) (a b : Nat) (new : List Byte) : (splice s a b new).cksum = s.cksum := rfl
@[simp] theorem splice_dsc0 (s : State) (a b : Nat) (new : List Byte) : (splice s a b new).dsc0 = s.dsc0 := rfl
@[simp] theorem splice_dsc1 (s : State) (a b : Nat) (new : List Byte) : (splice s a b new).dsc1 = s.dsc1 := rfl
@[simp] theorem splice_host (s : State) (a b : Nat) (new : List Byte) : (splice s a b new).host = s.host := rfl
@[simp] theorem splice_replies (s : State) (a b : Nat) (new : List Byte) : (splice s a b new).replies = s.replies := rfl

/-! The host about to write a command word. -/

@[simp] theorem issue_cfg (s : State) (w : Word) : (issue w s).cfg = s.cfg := rfl
@[simp] theorem issue_recBuf (s : State) (w : Word) : (issue w s).recBuf = s.recBuf := rfl
@[simp] theorem issue_auxBuf (s : State) (w : Word) : (issue w s).auxBuf = s.auxBuf := rfl
@[simp] theorem issue_err (s : State) (w : Word) : (issue w s).err = s.err := rfl
@[simp] theorem issue_bound (s : State) (w : Word) : (issue w s).bound = s.bound := rfl
@[simp] theorem issue_ckok (s : State) (w : Word) : (issue w s).ckok = s.ckok := rfl
@[simp] theorem issue_errinfo (s : State) (w : Word) : (issue w s).errinfo = s.errinfo := rfl
@[simp] theorem issue_gen (s : State) (w : Word) : (issue w s).gen = s.gen := rfl
@[simp] theorem issue_rlen (s : State) (w : Word) : (issue w s).rlen = s.rlen := rfl
@[simp] theorem issue_schsel (s : State) (w : Word) : (issue w s).schsel = s.schsel := rfl
@[simp] theorem issue_val (s : State) (w : Word) : (issue w s).val = s.val := rfl
@[simp] theorem issue_alen (s : State) (w : Word) : (issue w s).alen = s.alen := rfl
@[simp] theorem issue_cksum (s : State) (w : Word) : (issue w s).cksum = s.cksum := rfl
@[simp] theorem issue_dsc0 (s : State) (w : Word) : (issue w s).dsc0 = s.dsc0 := rfl
@[simp] theorem issue_dsc1 (s : State) (w : Word) : (issue w s).dsc1 = s.dsc1 := rfl
@[simp] theorem issue_host (s : State) (w : Word) : (issue w s).host = .write32 (s.cfg.base + regOffset .cmd) w :: s.host := rfl
@[simp] theorem issue_replies (s : State) (w : Word) : (issue w s).replies = s.replies := rfl

end Sys2Proof.Machine
end

