-- ==== Sys2Proof/Laws/Ops.lean ====
section
/-! SUPPORT. For each shared operation, once, everything it can do. -/

namespace Sys2Proof.Machine

/-! Reading and writing `REC` and `AUX`. -/

/-- A byte of `REC` after a write. -/
theorem recByte_memWrite (s : State) (a x : Nat) (bs : List Byte) :
    (memWrite s a bs).recByte x = if a ≤ x ∧ x < a + bs.length then bs.getD (x - a) 0 else s.recByte x := by
  simp only [State.recByte, memWrite_recBuf, lookup_writeBytes]
  split <;> simp

/-- A byte of `AUX` after a write. -/
theorem auxByte_auxWrite (s : State) (a x : Nat) (bs : List Byte) :
    (auxWrite s a bs).auxByte x = if a ≤ x ∧ x < a + bs.length then bs.getD (x - a) 0 else s.auxByte x := by
  simp only [State.auxByte, auxWrite_auxBuf, lookup_writeBytes]
  split <;> simp

@[simp] theorem recByte_auxWrite (s : State) (a x : Nat) (bs : List Byte) :
    (auxWrite s a bs).recByte x = s.recByte x := rfl

@[simp] theorem auxByte_memWrite (s : State) (a x : Nat) (bs : List Byte) :
    (memWrite s a bs).auxByte x = s.auxByte x := rfl

@[simp] theorem length_memRead (s : State) (a n : Nat) : (memRead s a n).length = n := length_readRun _ _ _

@[simp] theorem length_auxRead (s : State) (a n : Nat) : (auxRead s a n).length = n := length_readRun _ _ _

/-- What was written over a range is what a read of it gives. -/
theorem memRead_memWrite_self (s : State) (a : Nat) (bs : List Byte) :
    memRead (memWrite s a bs) a bs.length = bs := by
  refine readRun_eq_of_getD _ _ _ (fun i hi => ?_)
  rw [recByte_memWrite, if_pos (by omega), Nat.add_sub_cancel_left]

/-- A read of a range apart from a written one gives what it gave before. -/
theorem memRead_memWrite_apart (s : State) (a b n : Nat) (bs : List Byte)
    (h : b + n ≤ a ∨ a + bs.length ≤ b) : memRead (memWrite s a bs) b n = memRead s b n := by
  refine readRun_congr _ _ _ _ (fun x h1 h2 => ?_)
  rw [recByte_memWrite, if_neg (by omega)]

/-- Two states with the same bytes of `REC` on a range read the same there. -/
theorem memRead_congr (s t : State) (a n : Nat) (h : ∀ x, a ≤ x → x < a + n → s.recByte x = t.recByte x) :
    memRead s a n = memRead t a n := readRun_congr _ _ _ _ h

/-! Taking an error and the checks before a command. -/

/-- No error has the code 0, so that a latched error is seen (R170 of `60_exceptions.md`). -/
theorem code_ne_zero (e : ErrCode) : e.code ≠ 0 := by cases e <;> decide

/-- The error codes are numbered one to one (R170). -/
theorem code_injective (e e' : ErrCode) (h : e.code = e'.code) : e = e' := by
  cases e <;> cases e' <;> first | rfl | (exact absurd h (by decide))

/-- All that `conclude` can answer: the state its rule gives, or the error entry. -/
theorem conclude_eq_next {i : Instr} {s t : State} {rule : Except ErrCode State}
    (h : conclude i s rule = .next t) : rule = .ok t ∨ ∃ e, rule = .error e ∧ t = s.raise e (encode i) := by
  cases rule with
  | ok u =>
    simp only [conclude, Host.Outcome.next.injEq] at h
    exact .inl (congrArg _ h)
  | error e =>
    simp only [conclude, Host.Outcome.next.injEq] at h
    exact .inr ⟨e, rfl, h.symm⟩

/-- `conclude` always answers a next state. -/
theorem conclude_completes (i : Instr) (s : State) (rule : Except ErrCode State) :
    ∃ t, conclude i s rule = .next t := by cases rule <;> exact ⟨_, rfl⟩

/-- All that a command that needs no bound record can do: it is ignored, succeeds, or raises. -/
theorem performFree_eq_next {i : Instr} {s t : State} {rule : Except ErrCode State}
    (h : performFree i rule s = .next t) :
    (s.err ≠ 0 ∧ t = s) ∨
      (s.err = 0 ∧ (rule = .ok t ∨ ∃ e, rule = .error e ∧ t = s.raise e (encode i))) := by
  unfold performFree at h
  split at h
  · exact .inr ⟨‹_›, conclude_eq_next h⟩
  · exact .inl ⟨‹_›, by simpa using h.symm⟩

/-- A command that needs no bound record always answers a next state. -/
theorem performFree_completes (i : Instr) (s : State) (rule : Except ErrCode State) :
    ∃ t, performFree i rule s = .next t := by
  unfold performFree
  split
  · exact conclude_completes _ _ _
  · exact ⟨_, rfl⟩

/-- All that a command that needs a bound record can do when it answers a next state: it is ignored, refused for want
of a bound record, succeeds, or raises. -/
theorem performBound_eq_next {i : Instr} {s t : State} {rule : Header → Except ErrCode State}
    (h : performBound i rule s = .next t) :
    (s.err ≠ 0 ∧ t = s) ∨
      (s.err = 0 ∧ s.bound = false ∧ t = s.raise .illegalCommand (encode i)) ∨
      (s.err = 0 ∧ s.bound = true ∧
        ∃ hd, boundHeader s = some hd ∧ (rule hd = .ok t ∨ ∃ e, rule hd = .error e ∧ t = s.raise e (encode i))) := by
  unfold performBound at h
  split at h
  · rename_i he
    split at h
    · rename_i hb
      split at h
      · rename_i hd hhd
        exact .inr (.inr ⟨he, hb, hd, hhd, conclude_eq_next h⟩)
      · exact absurd h (by simp)
    · rename_i hb
      refine .inr (.inl ⟨he, by simpa using hb, ?_⟩)
      simpa [conclude] using h.symm
  · exact .inl ⟨‹_›, by simpa using h.symm⟩

/-- A command that needs a bound record and has one is performed on its schema. -/
theorem performBound_ready {i : Instr} {s : State} {rule : Header → Except ErrCode State} {hd : Header}
    (he : s.err = 0) (hb : s.bound = true) (hhd : boundHeader s = some hd) :
    performBound i rule s = conclude i s (rule hd) := by
  simp [performBound, he, hb, hhd]

/-- A command that needs a bound record faults only where `BOUND = 1` is not true to its meaning (R37). -/
theorem performBound_eq_fault {i : Instr} {s : State} {rule : Header → Except ErrCode State} {f : Fault}
    (h : performBound i rule s = .fault f) : s.err = 0 ∧ s.bound = true ∧ boundHeader s = none := by
  unfold performBound at h
  split at h
  · rename_i he
    split at h
    · rename_i hb
      split at h
      · obtain ⟨t, ht⟩ := conclude_completes i s (rule ‹_›)
        rw [ht] at h
        exact absurd h (by simp)
      · exact ⟨he, hb, ‹_›⟩
    · exact absurd h (by simp [conclude])
  · exact absurd h (by simp)

/-- A command that needs a bound record never refuses. -/
theorem performBound_ne_refused (i : Instr) (s : State) (rule : Header → Except ErrCode State) (r : Refusal) :
    performBound i rule s ≠ .refused r := by
  unfold performBound
  split
  · split
    · split
      · obtain ⟨t, ht⟩ := conclude_completes i s (rule ‹_›)
        simp [ht]
      · simp
    · simp [conclude]
  · simp

/-! The replacement of a region. -/

/-- A byte of `REC` after a region has been replaced: the new bytes, then what followed the region, moved up, and
every other byte as before (R140 of `43_cipher.md`). -/
theorem recByte_splice (s : State) (a b x : Nat) (new : List Byte) :
    (splice s a b new).recByte x =
      if a ≤ x ∧ x < a + new.length then new.getD (x - a) 0
      else if a + new.length ≤ x ∧ x < a + new.length + (s.rlen.toNat - b) then
        s.recByte (b + (x - (a + new.length)))
      else s.recByte x := by
  have h : (splice s a b new).recByte x =
      (memWrite (memWrite s a new) (a + new.length) (memRead s b (s.rlen.toNat - b))).recByte x := rfl
  rw [h, recByte_memWrite, recByte_memWrite, length_memRead]
  by_cases h1 : a + new.length ≤ x ∧ x < a + new.length + (s.rlen.toNat - b)
  · rw [if_pos h1, if_neg (by omega), if_pos h1]
    exact getD_readRun _ _ _ _ (by omega)
  · rw [if_neg h1]
    by_cases h2 : a ≤ x ∧ x < a + new.length
    · rw [if_pos h2, if_pos h2]
    · rw [if_neg h2, if_neg h2, if_neg h1]

/-- A region replaced by as many bytes leaves everything outside it, `RLEN` and `BOUND` as they were (R140). -/
theorem splice_same_length (s : State) (a b : Nat) (new : List Byte) (hab : a ≤ b) (hlen : new.length = b - a) :
    (splice s a b new).rlen = s.rlen ∧ (splice s a b new).bound = s.bound ∧
      ∀ x, (splice s a b new).recByte x = if a ≤ x ∧ x < b then new.getD (x - a) 0 else s.recByte x := by
  refine ⟨?_, ?_, fun x => ?_⟩
  · rw [splice_rlen, hlen]
    apply BitVec.eq_of_toNat_eq
    have := s.rlen.isLt
    simp only [BitVec.toNat_ofNat]
    omega
  · rw [splice_bound, hlen, if_neg (by omega)]
  · rw [recByte_splice]
    by_cases h1 : a ≤ x ∧ x < b
    · rw [if_pos (by omega), if_pos h1]
    · rw [if_neg (by omega), if_neg h1]
      by_cases h2 : a + new.length ≤ x ∧ x < a + new.length + (s.rlen.toNat - b)
      · rw [if_pos h2]
        congr 1
        omega
      · rw [if_neg h2]

end Sys2Proof.Machine
end

