-- ==== Sys2Proof/Laws/Bus.lean ====
section
/-! SUPPORT. The host's side: where the registers and windows are found, and everything one access can do. -/

namespace Sys2Proof.Machine

/-- The register block is the same on every instance: each register is found at its offset (R40 of
`10_state.md`). -/
theorem place_reg (c : Config) (r : Reg) : place c true (c.base + regOffset r) = .ok (.reg r) := by
  have hsub : c.base + regOffset r - c.base = regOffset r := by omega
  have hlt : ¬(c.base + regOffset r < c.base) := by omega
  unfold place
  rw [if_neg hlt, hsub]
  split
  · cases r <;> rfl
  · cases r <;> rfl

/-- A register is found at no offset but its own (R40). -/
theorem regAt_eq_some {off : Nat} {r : Reg} : regAt off = some r ↔ off = regOffset r := by
  constructor
  · intro h
    unfold regAt at h
    split at h <;> cases h <;> rfl
  · rintro rfl
    cases r <;> rfl

/-- The windows of an instance that fits the map are those of R40. -/
theorem windows_of_fits {c : Config} (hok : configOk c = true) (hfit : fitsMap c = true) :
    (c.recWindow = 0x1000 ∧ c.auxWindow = 0x4000 ∧ c.romWindow = 0x8000) ∧
      c.recMax ≤ 0x3000 ∧ c.auxMax ≤ 0x4000 ∧ c.schrom.length ≤ 0x2000 := by
  simp only [configOk, windowsOk, hfit, if_true, Bool.and_eq_true, beq_iff_eq] at hok
  simp only [fitsMap, Bool.and_eq_true, decide_eq_true_eq] at hfit
  tauto

/-- The windows of an instance that does not fit the map share no offset with each other or with the register block
(log 7). -/
theorem windows_of_not_fits {c : Config} (hok : configOk c = true) (hfit : fitsMap c = false) :
    (0x2C ≤ c.recWindow ∧ 0x2C ≤ c.auxWindow ∧ 0x2C ≤ c.romWindow ∧ c.romWindow % 4 = 0) ∧
      (c.recWindow + c.recMax ≤ c.auxWindow ∨ c.auxWindow + c.auxMax ≤ c.recWindow) ∧
      (c.recWindow + c.recMax ≤ c.romWindow ∨ c.romWindow + 4 * c.schrom.length ≤ c.recWindow) ∧
      (c.auxWindow + c.auxMax ≤ c.romWindow ∨ c.romWindow + 4 * c.schrom.length ≤ c.auxWindow) := by
  simp [configOk, windowsOk, hfit, apart] at hok
  omega

/-- Every byte of `REC` is found in its window (R40). -/
theorem place_rec {c : Config} (hok : configOk c = true) {i : Nat} (hi : i < c.recMax) :
    place c false (c.base + c.recWindow + i) = .ok (.recByte i) := by
  have e : c.base + c.recWindow + i - c.base = c.recWindow + i := by omega
  unfold place
  rw [if_neg (by omega), e]
  cases hf : fitsMap c
  · have := windows_of_not_fits hok hf
    simp [platformAccess, platformPlace, inWindow]
    rw [if_neg (by omega)]
    simp [hi, Place.isByte]
  · have := windows_of_fits hok hf
    simp [mapPlace8]
    rw [if_neg (by omega), if_pos (by omega), if_pos (by omega), show c.recWindow + i - 4096 = i by omega]

/-- Every byte of `AUX` is found in its window (R40). -/
theorem place_aux {c : Config} (hok : configOk c = true) {i : Nat} (hi : i < c.auxMax) :
    place c false (c.base + c.auxWindow + i) = .ok (.auxByte i) := by
  have e : c.base + c.auxWindow + i - c.base = c.auxWindow + i := by omega
  unfold place
  rw [if_neg (by omega), e]
  cases hf : fitsMap c
  · have := windows_of_not_fits hok hf
    have h1 : inWindow c.recWindow c.recMax (c.auxWindow + i) = none := by simp [inWindow]; omega
    simp [platformAccess, platformPlace, h1]
    rw [if_neg (by omega)]
    simp [inWindow, hi, Place.isByte]
  · have := windows_of_fits hok hf
    simp [mapPlace8]
    rw [if_neg (by omega), if_neg (by omega), if_pos (by omega), if_pos (by omega),
      show c.auxWindow + i - 16384 = i by omega]

/-- Every word of `SCHROM` is found in its window (R40). -/
theorem place_rom {c : Config} (hok : configOk c = true) {k : Nat} (hk : k < c.schrom.length) :
    place c true (c.base + c.romWindow + 4 * k) = .ok (.romWord k) := by
  have e : c.base + c.romWindow + 4 * k - c.base = c.romWindow + 4 * k := by omega
  unfold place
  rw [if_neg (by omega), e]
  cases hf : fitsMap c
  · have := windows_of_not_fits hok hf
    have h1 : inWindow c.recWindow c.recMax (c.romWindow + 4 * k) = none := by simp [inWindow]; omega
    have h2 : inWindow c.auxWindow c.auxMax (c.romWindow + 4 * k) = none := by simp [inWindow]; omega
    simp [platformAccess, platformPlace, h1, h2]
    rw [if_neg (by omega)]
    simp [inWindow, hk, Place.isByte]
    omega
  · have := windows_of_fits hok hf
    simp [mapPlace32]
    rw [if_neg (by omega), if_pos (by omega), if_neg (by omega), if_pos (by omega), if_pos (by omega),
      show (c.romWindow + 4 * k - 32768) / 4 = k by omega]

/-- Where an 8-bit access is answered on an instance that does not fit the map (log 7). -/
theorem platformAccess_byte {c : Config} (hc : configOk c = true) (hf : fitsMap c = false) (off : Nat) :
    (∃ p, platformAccess c false off = .ok p) ↔
      (c.recWindow ≤ off ∧ off < c.recWindow + c.recMax ∨
        c.auxWindow ≤ off ∧ off < c.auxWindow + c.auxMax) := by
  have hw := windows_of_not_fits hc hf
  unfold platformAccess platformPlace
  by_cases h1 : off < 0x2C
  · rw [if_pos h1]
    constructor
    · have hb : (regPlace (off - off % 4)).isByte = false := by unfold regPlace; split <;> rfl
      simp [hb]
    · intro h; omega
  · rw [if_neg h1]
    by_cases h2 : c.recWindow ≤ off ∧ off < c.recWindow + c.recMax
    · simp [inWindow, h2, Place.isByte]
    · by_cases h3 : c.auxWindow ≤ off ∧ off < c.auxWindow + c.auxMax
      · simp [inWindow, if_neg h2, if_pos h3, Place.isByte]; exact .inr h3
      · simp only [inWindow, if_neg h2, if_neg h3]
        by_cases h5 : c.romWindow ≤ off ∧ off < c.romWindow + 4 * c.schrom.length
        · simp only [if_pos h5, Option.map_some, Place.isByte]; simp; omega
        · simp only [if_neg h5, Option.map_none]; simp; omega

/-- Where a 32-bit access is answered on an instance that does not fit the map (log 7). -/
theorem platformAccess_wide {c : Config} (hc : configOk c = true) (hf : fitsMap c = false) (off : Nat) :
    (∃ p, platformAccess c true off = .ok p) ↔
      off % 4 = 0 ∧ (off < 0x2C ∨ c.romWindow ≤ off ∧ off < c.romWindow + 4 * c.schrom.length) := by
  have hw := windows_of_not_fits hc hf
  unfold platformAccess platformPlace
  by_cases h1 : off < 0x2C
  · rw [if_pos h1]
    have hb : (regPlace (off - off % 4)).isByte = false := by unfold regPlace; split <;> rfl
    simp only [hb, if_true]
    by_cases h4 : off % 4 = 0
    · simp [h4, h1]
    · simp [h4]
  · rw [if_neg h1]
    by_cases h2 : c.recWindow ≤ off ∧ off < c.recWindow + c.recMax
    · simp only [inWindow, if_pos h2, Place.isByte]; simp; omega
    · by_cases h3 : c.auxWindow ≤ off ∧ off < c.auxWindow + c.auxMax
      · simp only [inWindow, if_neg h2, if_pos h3, Place.isByte]; simp; omega
      · simp only [inWindow, if_neg h2, if_neg h3]
        by_cases h5 : c.romWindow ≤ off ∧ off < c.romWindow + 4 * c.schrom.length
        · simp only [if_pos h5, Option.map_some, Place.isByte, if_true]
          by_cases h4 : off % 4 = 0
          · simp [h4, h5]
          · simp [h4]
        · simp only [if_neg h5, Option.map_none]
          simp; omega

/-- A 32-bit access reaches a place exactly where its width is legal (R56). -/
theorem exists_place_wide {c : Config} (hc : configOk c = true) (addr : Nat) :
    (∃ p, place c true addr = .ok p) ↔ legalWide c addr := by
  unfold place legalWide
  split
  · simp; omega
  · cases hf : fitsMap c
    · simp only [Bool.false_eq_true, if_false, platformAccess_wide hc hf, false_and, true_and, false_or]
      omega
    · simp only [if_true, mapPlace32]
      split
      · simp; omega
      · split
        · split
          · simp; omega
          · split <;> simp <;> omega
        · simp; omega

/-- An 8-bit access reaches a place exactly where its width is legal (R56). -/
theorem exists_place_byte {c : Config} (hc : configOk c = true) (addr : Nat) :
    (∃ p, place c false addr = .ok p) ↔ legalByte c addr := by
  unfold place legalByte
  split
  · simp; omega
  · cases hf : fitsMap c
    · simp only [Bool.false_eq_true, if_false, platformAccess_byte hc hf, false_and, true_and, false_or]
      omega
    · simp only [if_true, mapPlace8, Bool.false_eq_true, if_false]
      by_cases h1 : 0x10000 ≤ addr - c.base
      · rw [if_pos h1]; simp; omega
      · rw [if_neg h1]
        by_cases h2 : 0x1000 ≤ addr - c.base ∧ addr - c.base < 0x4000
        · rw [if_pos h2]; simp; omega
        · rw [if_neg h2]
          by_cases h3 : 0x4000 ≤ addr - c.base ∧ addr - c.base < 0x8000
          · rw [if_pos h3]; simp; omega
          · rw [if_neg h3]; simp; omega

/-- A register is reached at its own address and at no other (R40). -/
theorem place_eq_reg {c : Config} {a : Nat} {r : Reg} (h : place c true a = .ok (.reg r)) :
    a = c.base + regOffset r := by
  unfold place at h
  split at h
  · cases h
  · split at h
    · simp only [if_true] at h
      unfold mapPlace32 at h
      split at h
      · cases h
      · split at h
        · split at h
          · simp only [regPlace, Except.ok.injEq] at h
            split at h
            · cases h
              have := regAt_eq_some.mp ‹_›
              omega
            · cases h
          · split at h
            · simp at h; split at h <;> cases h
            · cases h
        · cases h
    · unfold platformAccess at h
      split at h
      · cases h
      · rename_i p hp
        simp only [if_true] at h
        split at h
        · rename_i h4
          cases h
          unfold platformPlace at hp
          split at hp
          · simp only [regPlace, Option.some.injEq] at hp
            split at hp
            · cases hp
              have := regAt_eq_some.mp ‹_›
              omega
            · cases hp
          · split at hp
            · cases hp
            · split at hp
              · cases hp
              · rw [Option.map_eq_some_iff] at hp
                obtain ⟨_, _, h⟩ := hp
                cases h
        · cases h

/-- All that a host read can do: one reply, and nothing else (R39: "no read has any side effect"). -/
theorem hostRead_eq_next {s t : State} {p : Except Refusal Place} (h : hostRead s p = .next t) :
    ∃ q, p = .ok q ∧ t = { s with replies := readPlace s q :: s.replies } := by
  cases p with
  | error r => exact absurd h (by simp [hostRead])
  | ok q =>
    simp only [hostRead, Host.Outcome.next.injEq] at h
    exact ⟨q, rfl, h.symm⟩

/-- All that a 32-bit host write can do: a register is written, or nothing happens (R39, R40). -/
theorem hostWrite32_eq_next {s t : State} {v : Word} {p : Except Refusal Place} (h : hostWrite32 s v p = .next t) :
    (∃ r, p = .ok (.reg r) ∧ writeReg s v r = .next t) ∨ t = s := by
  match p, h with
  | .ok (.reg r), h => exact .inl ⟨r, rfl, h⟩
  | .ok (.recByte _), h => exact .inr (by simpa [hostWrite32] using h.symm)
  | .ok (.auxByte _), h => exact .inr (by simpa [hostWrite32] using h.symm)
  | .ok (.romWord _), h => exact .inr (by simpa [hostWrite32] using h.symm)
  | .ok .reserved, h => exact .inr (by simpa [hostWrite32] using h.symm)

/-- All that an 8-bit host write can do: a byte of `REC` or `AUX` is written, or nothing happens (R39, R40). -/
theorem hostWrite8_eq_next {s t : State} {v : Byte} {p : Except Refusal Place} (h : hostWrite8 s v p = .next t) :
    (∃ i, p = .ok (.recByte i) ∧ t = memWrite s i [v]) ∨ (∃ i, p = .ok (.auxByte i) ∧ t = auxWrite s i [v]) ∨ t = s := by
  match p, h with
  | .ok (.reg r), h => exact .inr (.inr (by simpa [hostWrite8] using h.symm))
  | .ok (.recByte i), h => exact .inl ⟨i, rfl, by simpa [hostWrite8] using h.symm⟩
  | .ok (.auxByte i), h => exact .inr (.inl ⟨i, rfl, by simpa [hostWrite8] using h.symm⟩)
  | .ok (.romWord _), h => exact .inr (.inr (by simpa [hostWrite8] using h.symm))
  | .ok .reserved, h => exact .inr (.inr (by simpa [hostWrite8] using h.symm))

/-- A place lies inside the memory it names. -/
def Place.inside (c : Config) : Place → Prop
  | .reg _ => True
  | .recByte i => i < c.recMax
  | .auxByte i => i < c.auxMax
  | .romWord k => k < c.schrom.length
  | .reserved => True

theorem regPlace_inside (c : Config) (off : Nat) : (regPlace off).inside c := by
  unfold regPlace
  split <;> exact True.intro

theorem mapPlace32_inside {c : Config} {off : Nat} {p : Place} (h : mapPlace32 c off = .ok p) : p.inside c := by
  unfold mapPlace32 at h
  split at h
  · cases h
  · split at h
    · split at h
      · cases h
        exact regPlace_inside c off
      · split at h
        · cases h
          split
          · assumption
          · exact True.intro
        · cases h
    · cases h

theorem mapPlace8_inside {c : Config} {off : Nat} {p : Place} (h : mapPlace8 c off = .ok p) : p.inside c := by
  unfold mapPlace8 at h
  split at h
  · cases h
  · split at h
    · cases h
      split
      · assumption
      · exact True.intro
    · split at h
      · cases h
        split
        · assumption
        · exact True.intro
      · cases h

theorem inWindow_lt {start len off i : Nat} (h : inWindow start len off = some i) : i < len := by
  unfold inWindow at h
  split at h
  · simp only [Option.some.injEq] at h
    omega
  · cases h

theorem platformPlace_inside {c : Config} {off : Nat} {p : Place} (h : platformPlace c off = some p) :
    p.inside c := by
  unfold platformPlace at h
  split at h
  · cases h
    exact regPlace_inside c _
  · split at h
    · cases h
      exact inWindow_lt ‹_›
    · split at h
      · cases h
        exact inWindow_lt ‹_›
      · rw [Option.map_eq_some_iff] at h
        obtain ⟨j, hj, rfl⟩ := h
        have := inWindow_lt hj
        show j / 4 < c.schrom.length
        omega

/-- Every place a host access reaches lies inside its memory (R40). -/
theorem place_inside {c : Config} {wide : Bool} {addr : Nat} {p : Place} (h : place c wide addr = .ok p) :
    p.inside c := by
  unfold place at h
  split at h
  · cases h
  · split at h
    · split at h
      · exact mapPlace32_inside h
      · exact mapPlace8_inside h
    · unfold platformAccess at h
      split at h
      · cases h
      · split at h <;> split at h <;> cases h <;> exact platformPlace_inside ‹_›

/-- What one access answers: a refusal where the parameters are no instance, else what its kind does. -/
theorem perform_of_ok {a : Access} {s : State} (h : configOk s.cfg = true) :
    perform a s =
      match a with
      | .read32 addr => hostRead s (place s.cfg true addr)
      | .read8 addr => hostRead s (place s.cfg false addr)
      | .write32 addr v => hostWrite32 s v (place s.cfg true addr)
      | .write8 addr v => hostWrite8 s v (place s.cfg false addr) := by
  cases a <;> exact if_pos h

/-- Parameters that are no instance are refused whatever the access (R75, U5). -/
theorem perform_of_not_ok {a : Access} {s : State} (h : configOk s.cfg = false) :
    perform a s = .refused .notAnInstance := by
  unfold perform
  rw [if_neg (by simp [h])]

/-- A step with no access to make changes nothing (R190 of `70_reset_and_hazards.md`). -/
theorem step_idle {s : State} (h : s.host = []) : step s = .next s := by
  simp [step, advance, h]

/-- A step performs the host's next access (R39). -/
theorem step_access {s : State} {a : Access} {rest : List Access} (h : s.host = a :: rest) :
    step s = perform a { s with host := rest } := by
  simp [step, advance, h]

end Sys2Proof.Machine
end

