-- ==== Sys2Proof/Laws/Cipher.lean ====
section
/-! SUPPORT. The cipher's primitives and the step its four commands share: lengths, ranges, and everything the
replacement of a region can answer. -/

namespace Sys2Proof.Machine

/-- A shift is one of the 24 (R132 of `43_cipher.md`). -/
theorem shiftOf_lt (pv : BitVec 32) : shiftOf pv < 24 := Nat.mod_lt _ (by decide)

/-- The keyed stream keeps the length (R139). -/
@[simp] theorem length_lcgXor (seed : BitVec 32) (b : List Byte) : (lcgXor seed b).length = b.length := by
  induction b using List.twoStepInduction generalizing seed with
  | nil => rfl
  | singleton x => rfl
  | cons_cons lo hi rest ih _ => simp [lcgXor, ih]

/-- The four blocks of a string of `4n` bytes have `n` bytes each (R134). -/
theorem length_fourBlocks (n : Nat) (b : List Byte) (h : b.length = 4 * n) :
    (fourBlocks n b).map List.length = [n, n, n, n] := by
  simp only [fourBlocks, List.map_cons, List.map_nil, List.length_take, List.length_drop, h]
  congr 1
  · omega
  · congr 1
    · omega
    · congr 1
      · omega
      · congr 1
        omega

/-- Popping four blocks of `n` bytes in the order of a shift gives `4n` bytes (R134). -/
theorem length_popAll (t n : Nat) (ht : t < 24) (blocks : List (List Byte))
    (h : blocks.map List.length = [n, n, n, n]) : (popAll (digits t) blocks).length = 4 * n := by
  obtain ⟨w, x, y, z, rfl⟩ : ∃ w x y z, blocks = [w, x, y, z] := by
    have hlen : blocks.length = 4 := by simpa using congrArg List.length h
    exact List.length_eq_four.mp hlen
  simp only [List.map_cons, List.map_nil, List.cons.injEq, and_true] at h
  obtain ⟨hw, hx, hy, hz⟩ := h
  interval_cases t <;> simp [digits, popAll, hw, hx, hy, hz] <;> omega

/-- A shuffled string has the length of the padded one (R134). -/
@[simp] theorem length_popSeq (t : Nat) (ht : t < 24) (b : List Byte) : (popSeq t b).length = (pad4 b).length := by
  have hm := length_pad4_mod b
  have hlen : (pad4 b).length = 4 * ((pad4 b).length / 4) := by omega
  unfold popSeq
  rw [length_popAll t _ ht _ (length_fourBlocks _ _ hlen)]
  omega

/-- An entry of the inverse-shift table is a shift (R136). -/
theorem invTable_lt (t : Nat) : invTable.getD t 0 < 24 := by
  by_cases h : t < 24
  · interval_cases t <;> decide
  · have hl : invTable.length ≤ t := by
      have : invTable.length = 24 := rfl
      omega
    rw [List.getD_eq_default _ _ hl]
    decide

/-- An unshuffled string has the length of the padded one (R137). -/
@[simp] theorem length_unshuffle (t : Nat) (b : List Byte) : (unshuffle t b).length = (pad4 b).length :=
  length_popSeq _ (invTable_lt t) b

/-- A shuffled region has its length rounded up to a multiple of 4 (R131, R134). -/
theorem length_shuffledRegion (s : State) (a b : Nat) :
    (shuffledRegion s a b).length = (b - a) + (4 - (b - a) % 4) % 4 := by
  simp [shuffledRegion, shiftOf_lt]

/-- A deciphered region has its length rounded up to a multiple of 4 (R131, R142). -/
theorem length_decipheredRegion (s : State) (seed : BitVec 32) (a b : Nat) :
    (decipheredRegion s seed a b).length = (b - a) + (4 - (b - a) % 4) % 4 := by
  simp only [decipheredRegion, length_unshuffle, length_pad4, length_lcgXor, length_memRead]
  omega

/-- All that the replacement of a region can answer: the spliced state where it fits `REC`, else `OutOfRange`
(R140). -/
theorem replaceRegion_eq (s before : State) (a b : Nat) (new : List Byte) :
    (s.rlen.toNat + (new.length - (b - a)) ≤ s.cfg.recMax ∧
        replaceRegion s before a b new = .ok (splice before a b new)) ∨
      (s.cfg.recMax < s.rlen.toNat + (new.length - (b - a)) ∧
        replaceRegion s before a b new = .error .outOfRange) := by
  unfold replaceRegion fitsRec
  split
  · rename_i h
    exact .inl ⟨by simpa using h, rfl⟩
  · rename_i h
    exact .inr ⟨by simpa using h, rfl⟩

end Sys2Proof.Machine
end

