-- ==== Sys2Proof/Laws/Fields.lean ====
section
/-! SUPPORT. Schema selection, field lookup and the operand forms: for each, once, everything it can answer. -/

namespace Sys2Proof.Machine

/-- `Schema(i)` exists exactly for `i < NSCH` (R90 of `40_schema_lookup.md`). -/
theorem schemaAt_eq_some {rom : List Word} {i : Nat} {h : Header} :
    schemaAt rom i = some h ↔ i < nsch rom ∧ h = headerAt rom (schemaBase rom i) := by
  unfold schemaAt
  split <;> simp_all [eq_comm]

/-- What a well-formed header says of its regions (R80 of `30_encoding.md`). -/
theorem hdrOk_iff {recMax : Nat} {h : Header} :
    hdrOk recMax h = true ↔
      h.rsv0 = 0 ∧ h.rsv2 = 0 ∧ 8 ≤ h.payEnd ∧ h.payEnd ≤ h.tailEnd ∧ h.tailEnd ≤ h.size ∧ h.size ≤ recMax := by
  simp [hdrOk, and_assoc]

/-- `SelSchema()` answers the selected schema exactly when it exists and its header is well-formed (R90). -/
theorem selSchema_eq_ok {s : State} {h : Header} :
    selSchema s = .ok h ↔ schemaAt s.cfg.schrom s.schsel.toNat = some h ∧ hdrOk s.cfg.recMax h = true := by
  unfold selSchema
  split
  · simp_all
  · split
    · simp_all
      intro e
      simp_all
    · simp_all
      intro e
      simp_all

/-- `SelSchema()` raises nothing but `BadSchema` (R90). -/
theorem selSchema_eq_error {s : State} {e : ErrCode} (h : selSchema s = .error e) : e = .badSchema := by
  unfold selSchema at h
  split at h
  · simpa using h.symm
  · split at h
    · exact absurd h (by simp)
    · simpa using h.symm

/-- The meaning of `BOUND = 1`: the selected schema exists, is well-formed and has size `RLEN` (R37 of
`10_state.md`). -/
theorem boundHeader_eq_some {s : State} {h : Header} :
    boundHeader s = some h ↔
      schemaAt s.cfg.schrom s.schsel.toNat = some h ∧ hdrOk s.cfg.recMax h = true ∧ s.rlen.toNat = h.size := by
  unfold boundHeader
  split
  · simp_all
  · split
    · simp_all
      intro e
      simp_all
    · simp_all
      intro e
      simp_all

/-- The regions of a bound record lie in order inside it, and it fits `REC` (R58 of `20_memory.md`). -/
theorem boundHeader_regions {s : State} {h : Header} (hb : boundHeader s = some h) :
    8 ≤ h.payEnd ∧ h.payEnd ≤ h.tailEnd ∧ h.tailEnd ≤ s.rlen.toNat ∧ s.rlen.toNat ≤ s.cfg.recMax := by
  obtain ⟨-, hok, hlen⟩ := boundHeader_eq_some.mp hb
  obtain ⟨-, -, h1, h2, h3, h4⟩ := hdrOk_iff.mp hok
  omega

/-- The header of a bound record depends on the parameters, `SCHSEL` and `RLEN` alone (R37). -/
theorem boundHeader_congr {s t : State} (hc : t.cfg = s.cfg) (hs : t.schsel = s.schsel) (hr : t.rlen = s.rlen) :
    boundHeader t = boundHeader s := by simp [boundHeader, hc, hs, hr]

/-- The first index at which a test holds. -/
theorem find?_range_eq_some {n k : Nat} {p : Nat → Bool} :
    (List.range n).find? p = some k ↔ k < n ∧ p k = true ∧ ∀ j, j < k → p j = false := by
  rw [List.find?_range_eq_some]
  simp
  tauto

/-- `FindField` answers the descriptor with the smallest index that has the identifier (R92). -/
theorem findField_eq_ok {rom : List Word} {h : Header} {f : BitVec 16} {d : Desc} :
    findField rom h f = .ok d ↔
      ∃ k, k < h.nfields ∧ d = descAt rom h k ∧ (descAt rom h k).fid = f ∧
        ∀ j, j < k → (descAt rom h j).fid ≠ f := by
  unfold findField
  split
  · rename_i hn
    simp only [List.find?_range_eq_none, Bool.not_eq_true', beq_eq_false_iff_ne] at hn
    simp only [reduceCtorEq, false_iff, not_exists, not_and]
    intro k hk _ hf
    exact absurd hf (hn k hk)
  · rename_i k hk
    rw [find?_range_eq_some] at hk
    simp only [beq_iff_eq, beq_eq_false_iff_ne] at hk
    simp only [Except.ok.injEq]
    constructor
    · rintro rfl
      exact ⟨k, hk.1, rfl, hk.2.1, hk.2.2⟩
    · rintro ⟨k', hk', rfl, hf, hmin⟩
      rcases Nat.lt_trichotomy k k' with hlt | heq | hgt
      · exact absurd hk.2.1 (hmin k hlt)
      · rw [heq]
      · exact absurd hf (hk.2.2 k' hgt)

/-- `FindField` raises nothing but `UnknownField`, and only when no descriptor has the identifier (R92). -/
theorem findField_eq_error {rom : List Word} {h : Header} {f : BitVec 16} {e : ErrCode} :
    findField rom h f = .error e ↔ e = .unknownField ∧ ∀ k, k < h.nfields → (descAt rom h k).fid ≠ f := by
  unfold findField
  split
  · rename_i hn
    simp only [List.find?_range_eq_none, Bool.not_eq_true', beq_eq_false_iff_ne] at hn
    simp only [Except.error.injEq]
    exact ⟨fun he => ⟨he.symm, hn⟩, fun he => he.1.symm⟩
  · rename_i k hk
    rw [find?_range_eq_some] at hk
    simp only [beq_iff_eq] at hk
    simp only [reduceCtorEq, false_iff, not_and, not_forall]
    exact fun _ => ⟨k, hk.1, fun hne => hne hk.2.1⟩

/-- RESOLVE takes the first schema with the generation and the size (R160 of `44_variant_resolver.md`). -/
theorem resolveIndex_eq_some {rom : List Word} {gen : BitVec 8} {size i : Nat} :
    resolveIndex rom gen size = some i ↔
      i < nsch rom ∧
        ((headerAt rom (schemaBase rom i)).gen = gen ∧ (headerAt rom (schemaBase rom i)).size = size) ∧
        ∀ j, j < i →
          ¬((headerAt rom (schemaBase rom j)).gen = gen ∧ (headerAt rom (schemaBase rom j)).size = size) := by
  unfold resolveIndex
  rw [find?_range_eq_some]
  simp only [Bool.and_eq_true, beq_iff_eq, Bool.and_eq_false_iff, beq_eq_false_iff_ne, not_and_or]

/-- RESOLVE finds no schema exactly when none has the generation and the size (R160). -/
theorem resolveIndex_eq_none {rom : List Word} {gen : BitVec 8} {size : Nat} :
    resolveIndex rom gen size = none ↔
      ∀ i, i < nsch rom →
        ¬((headerAt rom (schemaBase rom i)).gen = gen ∧ (headerAt rom (schemaBase rom i)).size = size) := by
  unfold resolveIndex
  rw [List.find?_range_eq_none]
  simp only [Bool.not_eq_true', Bool.and_eq_false_iff, beq_eq_false_iff_ne, not_and_or]

/-- The checks common to GET and SET pass exactly for a field that is found, well-formed and inside the record
(R102, R107 of `41_record_codec.md`). -/
theorem fieldDesc_eq_ok {s : State} {h : Header} {fid : BitVec 16} {d : Desc} :
    fieldDesc s h fid = .ok d ↔
      findField s.cfg.schrom h fid = .ok d ∧ descOk s.cfg.auxMax d = true ∧ d.off + extent d ≤ s.rlen.toNat := by
  unfold fieldDesc
  split
  · simp_all
  · rename_i d' hd'
    rw [hd']
    simp only [Except.ok.injEq]
    split
    · split
      · simp only [Except.ok.injEq]
        exact ⟨fun e => ⟨e, e ▸ ‹_›, e ▸ ‹_›⟩, fun e => e.1⟩
      · simp only [reduceCtorEq, false_iff, not_and]
        rintro rfl _
        assumption
    · simp only [reduceCtorEq, false_iff, not_and]
      rintro rfl hok
      exact absurd hok ‹_›

/-- The errors the common checks raise, each where the ones before it do not apply (R102, R107). -/
theorem fieldDesc_eq_error {s : State} {h : Header} {fid : BitVec 16} {e : ErrCode}
    (he : fieldDesc s h fid = .error e) :
    (findField s.cfg.schrom h fid = .error e ∧ e = .unknownField) ∨
      ∃ d, findField s.cfg.schrom h fid = .ok d ∧
        ((descOk s.cfg.auxMax d = false ∧ e = .badSchema) ∨
          (descOk s.cfg.auxMax d = true ∧ s.rlen.toNat < d.off + extent d ∧ e = .outOfRange)) := by
  unfold fieldDesc at he
  split at he
  · rename_i e' hf
    have : e' = e := by simpa using he
    subst this
    exact .inl ⟨hf, (findField_eq_error.mp hf).1⟩
  · rename_i d hd
    refine .inr ⟨d, hd, ?_⟩
    split at he
    · split at he
      · exact absurd he (by simp)
      · exact .inr ⟨‹_›, by omega, by simpa using he.symm⟩
    · rename_i hok
      exact .inl ⟨by simpa using hok, by simpa using he.symm⟩

@[simp] theorem length_terminators (n : Nat) : (terminators n).length = 2 * n := List.length_replicate

@[simp] theorem length_containerBytes (b : Bool) (n v : Nat) : (containerBytes b n v).length = n := by
  cases b <;> simp [containerBytes]

/-- A padded string fills its field (R110). -/
theorem length_padString (pad : Bool) (w n : Nat) (units : List Byte) (hn : n ≤ w) (hu : units.length = 2 * n) :
    (padString pad w n units).length = 2 * w := by
  unfold padString
  split
  · split
    · simp only [List.length_append, length_terminators, length_zeros, hu]; omega
    · simp only [List.length_append, length_terminators, hu]; omega
  · omega

/-- SET writes exactly the bytes of the field (R107). -/
theorem length_fieldBytes {s : State} {d : Desc} {bs : List Byte} (h : fieldBytes s d = .ok bs) :
    bs.length = extent d := by
  unfold fieldBytes at h
  cases hk : d.dkind <;> simp only [hk] at h <;> split at h <;> cases h <;> simp only [extent, hk]
  · simp
  · simp
  · exact length_padString _ _ _ _ (Nat.min_le_right _ _) (by simp)
  · simp

/-- SET of a value raises nothing but `ValueRange` (R108 to R111). -/
theorem fieldBytes_eq_error {s : State} {d : Desc} {e : ErrCode} (h : fieldBytes s d = .error e) :
    e = .valueRange := by
  unfold fieldBytes at h
  cases hk : d.dkind <;> simp only [hk] at h <;> split at h <;> cases h <;> rfl

/-- The number of code units before the terminator is at most the number of units. -/
theorem unitsBeforeTerminator_le : ∀ bs : List Byte, 2 * unitsBeforeTerminator bs ≤ bs.length
  | [] => by simp [unitsBeforeTerminator]
  | [_] => by simp [unitsBeforeTerminator]
  | a :: b :: rest => by
    have ih := unitsBeforeTerminator_le rest
    unfold unitsBeforeTerminator
    split
    · simp
    · simp only [List.length_cons]
      omega

/-- The bytes a GET delivers to `AUX` fit it (R79, R105, R106). -/
theorem readField_block_le {s : State} {d : Desc} {bs : List Byte} (hok : descOk s.cfg.auxMax d = true)
    (h : readField s d = .block bs) : bs.length ≤ s.cfg.auxMax := by
  unfold readField at h
  unfold descOk at hok
  cases hk : d.dkind <;> simp only [hk] at h hok <;> simp at h
  · subst h
    have := unitsBeforeTerminator_le (memRead s d.off (2 * d.width))
    simp at hok this ⊢
    omega
  · subst h
    simp at hok ⊢
    omega

end Sys2Proof.Machine
end

