-- ==== Sys2Proof/Laws/Exec.lean ====
section
/-! SUPPORT. Everything a command can do, said once: it is ignored, performed, turned away for want of a bound record,
or raises one of its errors. Claims about all commands cite `exec_eq_next` instead of unfolding `exec`. -/

namespace Sys2Proof.Machine

/-- What each command leaves when its own rule succeeds. -/
def Performed (i : Instr) (s t : State) : Prop :=
  match i with
  | .clrerr => t = s.clearError
  | .blank =>
    ∃ h, selSchema s = .ok h ∧
      t = { memWrite s 0 (zeros h.size) with rlen := BitVec.ofNat 16 h.size, bound := true }
  | .resolve =>
    ∃ k, resolveIndex s.cfg.schrom s.gen s.rlen.toNat = some k ∧
      t = { s with
            schsel := BitVec.ofNat 16 k
            val := (headerAt s.cfg.schrom (schemaBase s.cfg.schrom k)).kind.setWidth 32
            bound := false }
  | .parse => ∃ h, selSchema s = .ok h ∧ s.rlen.toNat = h.size ∧ t = { s with bound := true }
  | .lookup f =>
    ∃ h d, selSchema s = .ok h ∧ findField s.cfg.schrom h f = .ok d ∧ t = { s with dsc0 := d.d0, dsc1 := d.d1 }
  | .get f => ∃ h d, boundHeader s = some h ∧ fieldDesc s h f = .ok d ∧ t = deliver s (readField s d)
  | .set f =>
    ∃ h d bs, boundHeader s = some h ∧ fieldDesc s h f = .ok d ∧ fieldBytes s d = .ok bs ∧ t = memWrite s d.off bs
  | .serialize =>
    ∃ h, boundHeader s = some h ∧
      t = { memWrite s 6 (leBytes 2 (payloadSum s h).toNat) with cksum := payloadSum s h }
  | .check =>
    ∃ h, boundHeader s = some h ∧ t = { s with cksum := payloadSum s h, ckok := payloadSum s h == storedChecksum s }
  | .encrypt =>
    ∃ h, boundHeader s = some h ∧ s.rlen.toNat + growth (h.payEnd - 8) ≤ s.cfg.recMax ∧
      t = splice
        { memWrite (memWrite s 4 (zeros 2)) 6 (leBytes 2 (sum16 (shuffledRegion s 8 h.payEnd)).toNat) with
          cksum := sum16 (shuffledRegion s 8 h.payEnd) }
        8 h.payEnd (lcgXor ((sum16 (shuffledRegion s 8 h.payEnd)).setWidth 32) (shuffledRegion s 8 h.payEnd))
  | .decrypt =>
    ∃ h, boundHeader s = some h ∧ s.rlen.toNat + growth (h.payEnd - 8) ≤ s.cfg.recMax ∧
      t = splice s 8 h.payEnd (decipheredRegion s ((storedChecksum s).setWidth 32) 8 h.payEnd)
  | .tencrypt =>
    ∃ h, boundHeader s = some h ∧ s.rlen.toNat + growth (h.tailEnd - h.payEnd) ≤ s.cfg.recMax ∧
      t = splice { s with cksum := sum16 (shuffledRegion s h.payEnd h.tailEnd) } h.payEnd h.tailEnd
        (lcgXor (personality s) (shuffledRegion s h.payEnd h.tailEnd))
  | .tdecrypt =>
    ∃ h, boundHeader s = some h ∧ s.rlen.toNat + growth (h.tailEnd - h.payEnd) ≤ s.cfg.recMax ∧
      t = splice s h.payEnd h.tailEnd (decipheredRegion s (personality s) h.payEnd h.tailEnd)

/-- How a command that answers a next state has ended (R173, R166, R171, R175 of `60_exceptions.md`). -/
inductive Ended (i : Instr) (s t : State) : Prop where
  /-- Ignored: an error is latched. -/
  | ignored (latched : s.err ≠ 0) (notClrerr : i ≠ .clrerr) (same : t = s)
  /-- Performed by its own rule. -/
  | performed (clear : s.err = 0 ∨ i = .clrerr) (bound : needsBound i = true → s.bound = true)
      (result : Performed i s t)
  /-- `IllegalCommand`: it needs a bound record and there is none. -/
  | unbound (clear : s.err = 0) (needs : needsBound i = true) (unbound : s.bound = false)
      (result : t = s.raise .illegalCommand (encode i))
  /-- One of its own errors. -/
  | raised (clear : s.err = 0) (bound : needsBound i = true → s.bound = true) (e : ErrCode)
      (own : e ∈ errorsOf i) (result : t = s.raise e (encode i))

/-- A command that needs no bound record ends as its rule says. -/
theorem ended_of_performFree {i : Instr} {s t : State} {rule : Except ErrCode State} (hn : needsBound i = false)
    (hc : i ≠ .clrerr) (h : performFree i rule s = .next t) (hok : ∀ u, rule = .ok u → Performed i s u)
    (herr : ∀ e, rule = .error e → e ∈ errorsOf i) : Ended i s t := by
  rcases performFree_eq_next h with ⟨he, rfl⟩ | ⟨he, hr | ⟨e, hr, rfl⟩⟩
  · exact .ignored he hc rfl
  · exact .performed (.inl he) (by simp [hn]) (hok t hr)
  · exact .raised he (by simp [hn]) e (herr e hr) rfl

/-- A command that needs a bound record ends as its rule on the record's schema says. -/
theorem ended_of_performBound {i : Instr} {s t : State} {rule : Header → Except ErrCode State}
    (hn : needsBound i = true) (hc : i ≠ .clrerr) (h : performBound i rule s = .next t)
    (hok : ∀ hd u, boundHeader s = some hd → rule hd = .ok u → Performed i s u)
    (herr : ∀ hd e, rule hd = .error e → e ∈ errorsOf i) : Ended i s t := by
  rcases performBound_eq_next h with ⟨he, rfl⟩ | ⟨he, hb, rfl⟩ | ⟨he, hb, hd, hhd, hr | ⟨e, hr, rfl⟩⟩
  · exact .ignored he hc rfl
  · exact .unbound he hn hb rfl
  · exact .performed (.inl he) (fun _ => hb) (hok hd t hhd hr)
  · exact .raised he (fun _ => hb) e (herr hd e hr) rfl

/-- What a shuffled and exclusive-ored region grows by (R131, R140). -/
theorem growth_of_shuffled (s : State) (a b : Nat) (seed : BitVec 32) :
    (lcgXor seed (shuffledRegion s a b)).length - (b - a) = growth (b - a) := by
  rw [length_lcgXor, length_shuffledRegion, growth]
  omega

/-- What a deciphered region grows by (R131, R140). -/
theorem growth_of_deciphered (s : State) (a b : Nat) (seed : BitVec 32) :
    (decipheredRegion s seed a b).length - (b - a) = growth (b - a) := by
  rw [length_decipheredRegion, growth]
  omega

/-- A replaced region fitted `REC`, and the state is the spliced one (R140). -/
theorem replaceRegion_eq_ok {s before t : State} {a b g : Nat} {new : List Byte} (hg : new.length - (b - a) = g)
    (h : replaceRegion s before a b new = .ok t) :
    s.rlen.toNat + g ≤ s.cfg.recMax ∧ t = splice before a b new := by
  rcases replaceRegion_eq s before a b new with ⟨h1, h2⟩ | ⟨_, h2⟩ <;> rw [h2] at h <;> cases h
  exact ⟨hg ▸ h1, rfl⟩

/-- The replacement of a region raises nothing but `OutOfRange` (R140). -/
theorem replaceRegion_eq_error {s before : State} {a b : Nat} {new : List Byte} {e : ErrCode}
    (h : replaceRegion s before a b new = .error e) : e = .outOfRange := by
  rcases replaceRegion_eq s before a b new with ⟨_, h2⟩ | ⟨_, h2⟩ <;> rw [h2] at h <;> cases h
  rfl

/-- Everything a command that answers a next state can have done. -/
theorem exec_eq_next {i : Instr} {s t : State} (h : exec i s = .next t) : Ended i s t := by
  cases i with
  | clrerr =>
    cases h
    exact .performed (.inr rfl) (by simp [needsBound]) rfl
  | blank =>
    refine ended_of_performFree rfl (by simp) h (fun u hr => ?_) (fun e hr => ?_) <;> split at hr <;> cases hr
    · exact ⟨_, ‹_›, rfl⟩
    · rename_i he
      simp [selSchema_eq_error he, errorsOf]
  | resolve =>
    refine ended_of_performFree rfl (by simp) h (fun u hr => ?_) (fun e hr => ?_) <;> split at hr <;> cases hr
    · exact ⟨_, ‹_›, rfl⟩
    · simp [errorsOf]
  | parse =>
    refine ended_of_performFree rfl (by simp) h (fun u hr => ?_) (fun e hr => ?_) <;> split at hr
    · cases hr
    · split at hr <;> cases hr
      exact ⟨_, ‹_›, ‹_›, rfl⟩
    · rename_i he
      cases hr
      simp [selSchema_eq_error he, errorsOf]
    · split at hr <;> cases hr
      simp [errorsOf]
  | lookup f =>
    refine ended_of_performFree rfl (by simp) h (fun u hr => ?_) (fun e hr => ?_) <;> split at hr
    · cases hr
    · split at hr <;> cases hr
      exact ⟨_, _, ‹_›, ‹_›, rfl⟩
    · rename_i he
      cases hr
      simp [selSchema_eq_error he, errorsOf]
    · split at hr <;> cases hr
      rename_i he
      simp [(findField_eq_error.mp he).1, errorsOf]
  | get f =>
    refine ended_of_performBound rfl (by simp) h (fun hd u hhd hr => ?_) (fun hd e hr => ?_) <;> split at hr <;>
      cases hr
    · exact ⟨_, _, hhd, ‹_›, rfl⟩
    · rename_i he
      rcases fieldDesc_eq_error he with ⟨_, rfl⟩ | ⟨_, _, ⟨_, rfl⟩ | ⟨_, _, rfl⟩⟩ <;> simp [errorsOf]
  | set f =>
    refine ended_of_performBound rfl (by simp) h (fun hd u hhd hr => ?_) (fun hd e hr => ?_) <;> split at hr
    · cases hr
    · split at hr <;> cases hr
      exact ⟨_, _, _, hhd, ‹_›, ‹_›, rfl⟩
    · rename_i he
      cases hr
      rcases fieldDesc_eq_error he with ⟨_, rfl⟩ | ⟨_, _, ⟨_, rfl⟩ | ⟨_, _, rfl⟩⟩ <;> simp [errorsOf]
    · split at hr <;> cases hr
      rename_i he
      simp [fieldBytes_eq_error he, errorsOf]
  | serialize =>
    refine ended_of_performBound rfl (by simp) h (fun hd u hhd hr => ?_) (fun hd e hr => ?_) <;> cases hr
    exact ⟨_, hhd, rfl⟩
  | check =>
    refine ended_of_performBound rfl (by simp) h (fun hd u hhd hr => ?_) (fun hd e hr => ?_) <;> cases hr
    exact ⟨_, hhd, rfl⟩
  | encrypt =>
    refine ended_of_performBound rfl (by simp) h (fun hd u hhd hr => ?_) (fun hd e hr => ?_)
    · exact ⟨_, hhd, replaceRegion_eq_ok (growth_of_shuffled _ _ _ _) hr⟩
    · simp [replaceRegion_eq_error hr, errorsOf]
  | decrypt =>
    refine ended_of_performBound rfl (by simp) h (fun hd u hhd hr => ?_) (fun hd e hr => ?_)
    · exact ⟨_, hhd, replaceRegion_eq_ok (growth_of_deciphered _ _ _ _) hr⟩
    · simp [replaceRegion_eq_error hr, errorsOf]
  | tencrypt =>
    refine ended_of_performBound rfl (by simp) h (fun hd u hhd hr => ?_) (fun hd e hr => ?_)
    · exact ⟨_, hhd, replaceRegion_eq_ok (growth_of_shuffled _ _ _ _) hr⟩
    · simp [replaceRegion_eq_error hr, errorsOf]
  | tdecrypt =>
    refine ended_of_performBound rfl (by simp) h (fun hd u hhd hr => ?_) (fun hd e hr => ?_)
    · exact ⟨_, hhd, replaceRegion_eq_ok (growth_of_deciphered _ _ _ _) hr⟩
    · simp [replaceRegion_eq_error hr, errorsOf]

end Sys2Proof.Machine
end

