-- ==== Sys2Proof/Laws/PerInstr.lean ====
section
/-! SUPPORT. A statement about every command as syntax, one lemma for each constructor: the fields of its command
word are what R70 and R71 of `30_encoding.md` give them, and the word is legal by R72. -/

namespace Sys2Proof.Laws.EncodedFields

/-- The word of a command has its opcode in bits 7:0, 0 in bits 15:8, its `fid` in bits 31:16, and is legal. -/
def Statement (i : Instr) : Prop :=
  opField (encode i) = opcodeOf i ∧ rsvField (encode i) = 0 ∧ fidField (encode i) = fidOf i ∧
    legalWord (encode i) = true

/-- The three fields of a word put together from a `fid` and an opcode. -/
theorem fields_of_parts (f : BitVec 16) (op : BitVec 8) :
    opField (f.setWidth 32 <<< 16 ||| op.setWidth 32) = op ∧
      rsvField (f.setWidth 32 <<< 16 ||| op.setWidth 32) = 0 ∧
      fidField (f.setWidth 32 <<< 16 ||| op.setWidth 32) = f := by
  refine ⟨?_, ?_, ?_⟩ <;> ext i hi <;>
    simp [opField, rsvField, fidField, BitVec.getLsbD_shiftLeft, BitVec.getLsbD_setWidth] <;> grind

/-- A word with `rsv = 0` is legal when its opcode is one that takes a `fid`. -/
theorem statement_of_parts (i : Instr) (hop : 5 ≤ (opcodeOf i).toNat ∧ (opcodeOf i).toNat ≤ 7) : Statement i := by
  obtain ⟨h1, h2, h3⟩ := fields_of_parts (fidOf i) (opcodeOf i)
  refine ⟨h1, h2, h3, ?_⟩
  have h1' : opField (encode i) = opcodeOf i := h1
  have h2' : rsvField (encode i) = 0 := h2
  simp only [legalWord, opLegal, takesFid, h1', h2', beq_self_eq_true, Bool.and_true, Bool.and_eq_true,
    Bool.or_eq_true, decide_eq_true_eq]
  omega

theorem clrerr : Statement .clrerr := by unfold Statement; decide
theorem blank : Statement .blank := by unfold Statement; decide
theorem resolve : Statement .resolve := by unfold Statement; decide
theorem parse : Statement .parse := by unfold Statement; decide
theorem lookup (fid : BitVec 16) : Statement (.lookup fid) :=
  statement_of_parts _ ⟨by simp [opcodeOf], by simp [opcodeOf]⟩
theorem get (fid : BitVec 16) : Statement (.get fid) :=
  statement_of_parts _ ⟨by simp [opcodeOf], by simp [opcodeOf]⟩
theorem set (fid : BitVec 16) : Statement (.set fid) :=
  statement_of_parts _ ⟨by simp [opcodeOf], by simp [opcodeOf]⟩
theorem serialize : Statement .serialize := by unfold Statement; decide
theorem check : Statement .check := by unfold Statement; decide
theorem encrypt : Statement .encrypt := by unfold Statement; decide
theorem decrypt : Statement .decrypt := by unfold Statement; decide
theorem tencrypt : Statement .tencrypt := by unfold Statement; decide
theorem tdecrypt : Statement .tdecrypt := by unfold Statement; decide

end Sys2Proof.Laws.EncodedFields
end

