-- ==== Sys2Proof/Tests/Slice0.lean ====
section
/-! SUPPORT. Tests: the words of the spec's encoding, the spec's own vectors (`95_test_vectors.md`, one step each), and
a state that meets the hypotheses of each statement. Expected values are the spec's, not the model's. -/

namespace Sys2Proof.Tests

open Sys2Proof Sys2Proof.Machine

set_option Elab.async false

/-! Helpers. -/

/-- The state an outcome leads to. -/
def after (r : Result) : State :=
  match r with
  | .next t => t
  | .fault _ => State.reset
  | .refused _ => State.reset

/-- Why an access is refused. -/
def refusal (r : Result) : Option Refusal :=
  match r with
  | .next _ => none
  | .fault _ => none
  | .refused f => some f

/-- A bound record of `size` bytes of schema `k` of TESTROM, its bytes not written yet. -/
def bound (k size : Nat) : State :=
  { State.reset with schsel := BitVec.ofNat 16 k, rlen := BitVec.ofNat 16 size, bound := true }

/-- A state before any command, with schema `k` selected. -/
def selected (k : Nat) : State := { State.reset with schsel := BitVec.ofNat 16 k }

/-- The step that performs the command word `w`. -/
def run (s : State) (w : Nat) : State := after (step (s.withFetchWord 32 w))

/-- A header of TESTROM. -/
def schema (k : Nat) : Header := headerAt Config.testRom (schemaBase Config.testRom k)

/-- Descriptor `i` of schema `k` of TESTROM. -/
def field (k i : Nat) : Desc := descAt Config.testRom (schema k) i

/-- Bytes from numbers. -/
def bytes (l : List Nat) : List Byte := l.map (BitVec.ofNat 8)

/-- A record in the ENCRYPT tests: V32c of section 3.7, after its SERIALIZE. -/
def v32c : State := memWrite (bound 3 12) 0 (bytes [0x00, 0x20, 0, 0, 0, 0, 0x44, 0x66, 0x11, 0x22, 0x33, 0x44])

/-- V34's tail of section 3.9, with its personality value. -/
def v34 : State :=
  memWrite (memWrite (bound 2 156) 0 (bytes [0x00, 0xA0, 0x01, 0x00, 0, 0, 0, 0])) 0x88
    (bytes [1, 2, 3, 4, 0x32, 0, 0xC8, 0, 0x10, 0x11, 0x12, 0x13, 0x14, 0x15, 0x16, 0x17, 0x18, 0x19, 0x1A, 0x1B])

/-- V36's record of section 3.8: TS5, a payload of 10 bytes and a tail of 9. -/
def v36 : State :=
  memWrite (bound 5 30) 0
    (bytes ([0, 0, 0, 0, 0, 0, 0, 0, 0x41, 0x42, 0x43, 0x44, 0x45, 0x46, 0x47, 0x48, 0x49, 0x4A] ++
      [0x61, 0x62, 0x63, 0x64, 0x65, 0x66, 0x67, 0x68, 0x69, 0x58, 0x59, 0x5A]))

/-- V38's instance of section 3.8: `RECMAX = 137` and one schema of size 137 without fields, here with a free choice of
the ends of payload and tail. -/
def fullConfig (payEnd tailEnd : Nat) : Config :=
  { recMax := 137, auxMax := 2
    schrom := [0x00000001, 0x00040089, BitVec.ofNat 32 (payEnd + 65536 * tailEnd), 0x00000000]
    base := 0x10000, recWindow := 0x1000, auxWindow := 0x4000, romWindow := 0x8000 }

/-- A bound zero record of that instance. -/
def full (payEnd tailEnd : Nat) : State :=
  { State.resetOf (fullConfig payEnd tailEnd) with
    recBuf := Memory.writeBytes [] 0 (zeros 137), rlen := 137, bound := true }

/-- An instance whose memories do not fit the map of R40, with windows of the platform's choice (log 7). -/
def wideConfig : Config :=
  { recMax := 65535, auxMax := 65534, schrom := Config.testRom, base := 0x20000
    recWindow := 0x10000, auxWindow := 0x20000, romWindow := 0x2C }

/-- The state with one host access to make. -/
def withAccess (s : State) (a : Access) : State := { s with host := [a] }

/-! The words of R70 and R71, written out bit by bit: `fid` 31:16, `rsv` 15:8, `op` 7:0. -/

theorem test_word_clrerr : decode 0b0000000000000000_00000000_00000001 = .ok .clrerr := by decide +kernel
theorem test_word_blank : decode 0b0000000000000000_00000000_00000010 = .ok .blank := by decide +kernel
theorem test_word_resolve : decode 0b0000000000000000_00000000_00000011 = .ok .resolve := by decide +kernel
theorem test_word_parse : decode 0b0000000000000000_00000000_00000100 = .ok .parse := by decide +kernel
theorem test_word_lookup : decode 0b0000000000010010_00000000_00000101 = .ok (.lookup 0x0012) := by decide +kernel
theorem test_word_get : decode 0b1000000000010000_00000000_00000110 = .ok (.get 0x8010) := by decide +kernel
theorem test_word_set : decode 0b1111111111111111_00000000_00000111 = .ok (.set 0xFFFF) := by decide +kernel
theorem test_word_serialize : decode 0b0000000000000000_00000000_00001000 = .ok .serialize := by decide +kernel
theorem test_word_check : decode 0b0000000000000000_00000000_00001001 = .ok .check := by decide +kernel
theorem test_word_encrypt : decode 0b0000000000000000_00000000_00001010 = .ok .encrypt := by decide +kernel
theorem test_word_decrypt : decode 0b0000000000000000_00000000_00001011 = .ok .decrypt := by decide +kernel
theorem test_word_tencrypt : decode 0b0000000000000000_00000000_00001100 = .ok .tencrypt := by decide +kernel
theorem test_word_tdecrypt : decode 0b0000000000000000_00000000_00001101 = .ok .tdecrypt := by decide +kernel

/-- R70: a command is one 32-bit word, so the opcode table's bits are the word's. -/
theorem test_table_word : decodeTableWord 32 0x00120005 = some (.lookup 0x0012) := by decide +kernel

/-! The smoke test of `WellFormed`: one word for each check of R72, refused by the check and by the decoder. -/

theorem test_refuses_op_zero : legalWord 0x00000000 = false ∧ decode 0x00000000 = .error .opcode := by decide +kernel
theorem test_refuses_op_above : legalWord 0x0000000E = false ∧ decode 0x0000000E = .error .opcode := by decide +kernel
theorem test_refuses_rsv : legalWord 0x00000101 = false ∧ decode 0x00000101 = .error .reservedBits := by decide +kernel
theorem test_refuses_fid : legalWord 0x00010002 = false ∧ decode 0x00010002 = .error .unexpectedFid := by
  decide +kernel
theorem test_accepts_fid : legalWord 0xFFFF0005 = true ∧ legalWord 0x0000000D = true := by decide +kernel

/-! The instance of the vectors (section 1 of `95_test_vectors.md`). -/

theorem test_config_ok : configOk Config.testInstance = true := by decide +kernel
theorem test_rom_length : Config.testRom.length = 139 ∧ nsch Config.testRom = 6 := by decide +kernel
theorem test_schema_bases : (List.range 6).map (schemaBase Config.testRom) = [1, 38, 75, 116, 125, 134] := by
  decide +kernel
theorem test_schema_sizes : (List.range 6).map (fun k => (schema k).size) = [136, 136, 156, 12, 18, 30] := by
  decide +kernel
theorem test_config_full : configOk (fullConfig 137 137) = true := by decide +kernel
theorem test_config_wide : configOk wideConfig = true ∧ fitsMap wideConfig = false := by decide +kernel

/-- U5: parameters out of range are refused. -/
theorem test_config_refused :
    refusal (perform (.read32 0) (State.resetOf { Config.testInstance with recMax := 135 })) = some .notAnInstance := by
  decide +kernel

/-! One step on the spec's vectors (section 3 of `95_test_vectors.md`). -/

/-- V1. -/
theorem test_lookup : (run (selected 0) 0x00120005).dsc0 = 0x00380012 ∧
    (run (selected 0) 0x00120005).dsc1 = 0x0AA10004 := by decide +kernel
/-- V3. -/
theorem test_lookup_unknown : (run (selected 0) 0x77770005).status = 3 ∧
    (run (selected 0) 0x77770005).errinfo = 0x77770005 := by decide +kernel
/-- V4, on TS3. -/
theorem test_blank : (run (selected 3) 0x00000002).rlen = 12 ∧ (run (selected 3) 0x00000002).status = 0x10 ∧
    memRead (run (selected 3) 0x00000002) 0 12 = zeros 12 := by decide +kernel
/-- V7. -/
theorem test_blank_bad_schema : (run (selected 7) 0x00000002).status = 7 ∧ (run (selected 7) 0x00000002).rlen = 0 := by
  decide +kernel
/-- V5. -/
theorem test_parse : (run { selected 0 with rlen := 136 } 0x00000004).status = 0x10 := by decide +kernel
/-- V6. -/
theorem test_parse_length : (run { selected 0 with rlen := 135 } 0x00000004).status = 1 ∧
    (run { selected 0 with rlen := 135 } 0x00000004).errinfo = 0x00000004 := by decide +kernel
/-- V39. -/
theorem test_resolve : (run { State.reset with gen := 5, rlen := 136 } 0x00000003).schsel = 1 ∧
    (run { State.reset with gen := 4, rlen := 136 } 0x00000003).schsel = 0 := by decide +kernel
/-- R160, R170. -/
theorem test_resolve_none : (run { State.reset with gen := 6, rlen := 136 } 0x00000003).status = 5 := by decide +kernel
/-- V8. -/
theorem test_get_int :
    (run (memWrite (bound 0 136) 0x10 (bytes [0x40, 0xE2, 0x01, 0x00])) 0x00040006).val = 0x0001E240 := by
  decide +kernel
/-- V10, a big-endian container. -/
theorem test_get_bits :
    (run (memWrite (bound 1 136) 0x38 (bytes [0x1F, 0x7C, 0x00, 0x80])) 0x00140006).val = 23 := by decide +kernel
/-- V19, a big-endian container. -/
theorem test_set_bits :
    memRead (run { memWrite (bound 1 136) 0x38 (zeros 4) with val := 31 } 0x00120007) 0x38 4 =
      bytes [0x00, 0x00, 0x7C, 0x00] := by decide +kernel
/-- V21. -/
theorem test_set_string :
    memRead (run { auxWrite (bound 1 136) 0 (bytes [0x47, 0, 0x65, 0, 0x6E, 0, 0x67, 0, 0x61, 0, 0x72, 0]) with
      alen := 12 } 0x00200007) 0x52 12 = bytes [0x72, 0, 0xFF, 0xFF, 0, 0, 0, 0, 0, 0, 0, 0] := by decide +kernel
/-- V29: the sum wraps. -/
theorem test_serialize :
    memRead (run (memWrite (bound 3 12) 8 (bytes [0xFF, 0xFF, 0x02, 0x00])) 0x00000008) 6 2 = bytes [1, 0] ∧
    (run (memWrite (bound 3 12) 8 (bytes [0xFF, 0xFF, 0x02, 0x00])) 0x00000008).cksum = 1 := by decide +kernel
/-- V32c. -/
theorem test_check : (run v32c 0x00000009).status = 0x30 ∧ (run v32c 0x00000009).cksum = 0x6644 := by decide +kernel
/-- V32c. -/
theorem test_encrypt :
    memRead (run v32c 0x0000000A) 0 12 =
      bytes [0x00, 0x20, 0, 0, 0, 0, 0x55, 0x55, 0xF3, 0x8C, 0x84, 0xB5] ∧
    (run v32c 0x0000000A).cksum = 0x5555 := by decide +kernel
/-- V35: growth unbinds. -/
theorem test_encrypt_growth : (run v36 0x0000000A).rlen = 32 ∧ (run v36 0x0000000A).status = 0 ∧
    memRead (run v36 0x0000000A) 8 24 =
      bytes ([0x4D, 0x37, 0x10, 0xAF, 0x6B, 0xE1, 0x5D, 0x13, 0x6A, 0x19, 0x0C, 0x4F] ++
        [0x61, 0x62, 0x63, 0x64, 0x65, 0x66, 0x67, 0x68, 0x69, 0x58, 0x59, 0x5A]) := by decide +kernel
/-- V32c: DECRYPT of the encrypted record restores the payload. -/
theorem test_decrypt :
    memRead (run (memWrite (bound 3 12) 0
      (bytes [0x00, 0x20, 0, 0, 0, 0, 0x55, 0x55, 0xF3, 0x8C, 0x84, 0xB5])) 0x0000000B) 6 6 =
      bytes [0x55, 0x55, 0x11, 0x22, 0x33, 0x44] := by decide +kernel
/-- V34. -/
theorem test_tencrypt :
    memRead (run v34 0x0000000C) 0x88 8 = bytes [0x63, 0x2C, 0x7D, 0x31, 0x01, 0xA4, 0x2E, 0xC3] ∧
    (run v34 0x0000000C).cksum = 0xA265 ∧ (run v34 0x0000000C).rlen = 156 := by decide +kernel
/-- V34 read backwards: TDECRYPT of the transformed tail. -/
theorem test_tdecrypt :
    memRead (run (memWrite v34 0x88 (bytes ([0x63, 0x2C, 0x7D, 0x31, 0x01, 0xA4, 0x2E, 0xC3, 0xA1, 0x91] ++
      [0xD6, 0xE9, 0xB4, 0x4C, 0x6A, 0xF2, 0x60, 0x54, 0xDB, 0x19]))) 0x0000000D) 0x88 8 =
      bytes [1, 2, 3, 4, 0x32, 0, 0xC8, 0] := by decide +kernel
/-- V38: no room to grow. -/
theorem test_encrypt_capacity : run (full 137 137) 0x0000000A =
    { full 137 137 with err := 2, errinfo := 0x0000000A } := by decide +kernel
/-- R173, R165: latched, an illegal CLRERR is ignored and the exact one clears. -/
theorem test_clrerr : (run { bound 0 136 with err := 3, errinfo := 5 } 0x00000101).status = 0x13 ∧
    (run { bound 0 136 with err := 3, errinfo := 5 } 0x00000001).status = 0x10 := by decide +kernel
/-- V7a, R166: a command that needs a bound record, without one. -/
theorem test_unbound : (run { selected 0 with rlen := 136 } 0x00010006).status = 6 ∧
    (run { selected 0 with rlen := 136 } 0x00010006).errinfo = 0x00010006 := by decide +kernel
/-- V33a. -/
theorem test_shift :
    [0x00002000, 0x0001A000, 0x0002E000, 0x00030000, 0x0003E000, 0xFFFFFFFF, 0x12345678, 0xDEADBEEF].map shiftOf =
      [1, 13, 23, 0, 7, 7, 2, 13] := by decide +kernel
/-- V33c. -/
theorem test_lcg_xor : lcgXor 0x15A (bytes [0x5E, 0, 0xFC, 0, 0, 0, 0, 0]) =
    bytes [0x58, 0xE6, 0xBF, 0xF9, 0x62, 0xFC, 0x78, 0xE6] := by decide +kernel
/-- V33e. -/
theorem test_shuffle : popSeq 9 (bytes [0x41, 0x42, 0x43, 0x44, 0x45, 0x46, 0x47, 0x48, 0x49, 0x4A]) =
    bytes [0x44, 0x45, 0x46, 0x47, 0x48, 0x49, 0x4A, 0, 0, 0x41, 0x42, 0x43] := by decide +kernel

/-! Accesses the model refuses (log 7, log 8). -/

theorem test_refuses_unaligned : refusal (perform (.read32 0x2) State.reset) = some .badAccess := by decide +kernel
theorem test_refuses_wide_rec : refusal (perform (.read32 0x1000) State.reset) = some .badAccess := by decide +kernel
theorem test_refuses_narrow_reg : refusal (perform (.write8 0x10 0) State.reset) = some .badAccess := by decide +kernel
theorem test_refuses_outside : refusal (perform (.read32 0x10000) State.reset) = some .outsideDevice := by decide +kernel

/-! Witnesses: states that meet all hypotheses of a statement together, one for each clause. -/

/-- An outcome is a next state. -/
def isNext (r : Result) : Bool :=
  match r with
  | .next _ => true
  | .fault _ => false
  | .refused _ => false

theorem eq_next_after {r : Result} (h : isNext r = true) : r = .next (after r) := by
  cases r <;> simp_all [isNext, after]

/-- The invariant from one decidable check. -/
theorem inv_of {s : State}
    (h : configOk s.cfg = true ∧ s.recBuf.wf = true ∧ s.auxBuf.wf = true ∧ s.recBuf.within s.cfg.recMax = true ∧
      s.auxBuf.within s.cfg.auxMax = true ∧ (s.bound = true → (boundHeader s).isSome = true) ∧
      errPossible s.err = true ∧ (s.err = 0 → s.errinfo = 0)) : Inv s :=
  ⟨h.1, h.2.1, h.2.2.1, h.2.2.2.1, h.2.2.2.2.1, h.2.2.2.2.2.1, h.2.2.2.2.2.2.1, h.2.2.2.2.2.2.2⟩

theorem witness_ResetMeetsInvariant : configOk Config.testInstance = true := by decide +kernel

theorem witness_StepKeepsInvariant :
    ∃ s t, Inv s ∧ s.bound = true ∧ step s = .next t ∧ t.recBuf ≠ s.recBuf :=
  ⟨v32c.withFetchWord 32 0x0000000A, run v32c 0x0000000A, inv_of (by decide +kernel), by decide +kernel,
    eq_next_after (by decide +kernel), by decide +kernel⟩

/-- A state no run reaches: bound, with no schema of its size. -/
theorem witness_InvariantStatesNeverFault_fault :
    needsBound .check = true ∧ (bound 0 137).err = 0 ∧ (bound 0 137).bound = true ∧
      boundHeader (bound 0 137) = none := by decide +kernel

theorem witness_InvariantStatesNeverFault : Inv (bound 0 136) := inv_of (by decide +kernel)

theorem witness_StepKeepsParametersAndMakesOneAccess :
    ∃ s t, s.host = [.read32 0x04, .read32 0x08] ∧ step s = .next t :=
  ⟨{ State.reset with host := [.read32 0x04, .read32 0x08] }, _, rfl, eq_next_after (by decide +kernel)⟩

theorem witness_StepKeepsParametersAndMakesOneAccess_command : ∃ t, exec (.get 0x0001) (bound 0 136) = .next t :=
  ⟨_, eq_next_after (by decide +kernel)⟩

theorem witness_BoundRecordHasItsRegions : Inv (bound 5 30) ∧ (bound 5 30).bound = true :=
  ⟨inv_of (by decide +kernel), rfl⟩

theorem witness_StepRunsDecodedCommand :
    configOk wideConfig = true ∧
      ({ State.resetOf wideConfig with host := [.write32 0x20000 0x0000000D] }).host = .write32 wideConfig.base 0x0D :: [] ∧
      decode 0x0000000D = .ok .tdecrypt ∧ decode 0x0000000E = .error .opcode ∧
      decodeTableWord 32 0xFFFF0007 = some (.set 0xFFFF) := by decide +kernel

theorem witness_ReadsHaveNoSideEffect :
    (∃ t, perform (.read32 0x9228) State.reset = .next t) ∧ ∃ t, perform (.read8 0x1000) State.reset = .next t :=
  ⟨⟨_, eq_next_after (by decide +kernel)⟩, ⟨_, eq_next_after (by decide +kernel)⟩⟩

theorem witness_RegisterWritesStoreLowBits : configOk State.reset.cfg = true := by decide +kernel

theorem witness_RegisterReadsReturnValue : configOk (State.resetOf wideConfig).cfg = true := by decide +kernel

/-- The last byte of each buffer, on an instance that fits the map and on one that does not. -/
theorem witness_ByteWindowsReachBuffers :
    (configOk Config.testInstance = true ∧ 511 < Config.testInstance.recMax ∧ 255 < Config.testInstance.auxMax) ∧
      configOk wideConfig = true ∧ 65534 < wideConfig.recMax ∧ 65533 < wideConfig.auxMax := by decide +kernel

theorem witness_SchemaMemoryIsReadOnly :
    configOk Config.testInstance = true ∧ 0 < Config.testInstance.schrom.length ∧
      138 < Config.testInstance.schrom.length := by decide +kernel

/-- The first and the last offset of each reserved range. -/
theorem witness_ReservedOffsetsReadZero :
    configOk Config.testInstance = true ∧ fitsMap Config.testInstance = true ∧
      (∀ off ∈ [0x2C, 0xFFC, 0x822C, 0xFFFC], off % 4 = 0 ∧
        (0x2C ≤ off ∧ off < 0x1000 ∨ 0x8000 + 4 * Config.testInstance.schrom.length ≤ off ∧ off < 0x10000)) ∧
      (∀ off ∈ [0x1200, 0x3FFF, 0x4100, 0x7FFF], 0x1000 + Config.testInstance.recMax ≤ off ∧ off < 0x4000 ∨
        0x4000 + Config.testInstance.auxMax ≤ off ∧ off < 0x8000) := by decide +kernel

theorem witness_OnlyLegalReadsAreAnswered : Inv State.reset ∧ Inv (State.resetOf wideConfig) :=
  ⟨inv_of (by decide +kernel), inv_of (by decide +kernel)⟩

/-! Legal and illegal addresses of each width at the edges of the ranges, on an instance that fits the map and on one
that does not. -/

theorem witness_OnlyLegalReadsAreAnswered_wide :
    legalWide Config.testInstance 0xFFC ∧ ¬legalWide Config.testInstance 0x1000 ∧
      legalWide Config.testInstance 0xFFFC ∧ ¬legalWide Config.testInstance 0x10000 ∧
      ¬legalWide Config.testInstance 0x8002 := by
  refine ⟨?_, ?_, ?_, ?_, ?_⟩ <;> decide +kernel

theorem witness_OnlyLegalReadsAreAnswered_byte :
    legalByte Config.testInstance 0x1000 ∧ ¬legalByte Config.testInstance 0xFFF ∧
      legalByte Config.testInstance 0x7FFF ∧ ¬legalByte Config.testInstance 0x8000 := by
  refine ⟨?_, ?_, ?_, ?_⟩ <;> decide +kernel

theorem witness_OnlyLegalReadsAreAnswered_platform_wide :
    legalWide wideConfig 0x20028 ∧ legalWide wideConfig 0x20254 ∧ ¬legalWide wideConfig 0x20258 ∧
      ¬legalWide wideConfig 0x1FFFC := by
  refine ⟨?_, ?_, ?_, ?_⟩ <;> decide +kernel

theorem witness_OnlyLegalReadsAreAnswered_platform_byte :
    legalByte wideConfig 0x3FFFE ∧ ¬legalByte wideConfig 0x3FFFF ∧ legalByte wideConfig 0x40000 := by
  refine ⟨?_, ?_, ?_⟩ <;> decide +kernel

theorem witness_ErrorEntryChangesNothingElse :
    ∃ t, State.reset.err = 0 ∧ commandWrite 0x00000002 (selected 6) = .next t ∧ t.err ≠ 0 :=
  ⟨_, rfl, eq_next_after (by decide +kernel), by decide +kernel⟩

theorem witness_LatchIgnoresOtherCommands :
    ({ bound 0 136 with err := 8, errinfo := 7 }).err ≠ 0 ∧ (0x00000101 : Word) ≠ 1 := by decide +kernel

theorem witness_ClrerrClearsTheLatch :
    State.reset.err = 0 ∧ State.reset.errinfo = 0 ∧ (0x00000101 : Word).extractLsb' 0 8 = 1 ∧
      (0x00000101 : Word) ≠ 1 := by decide +kernel

theorem witness_CommandsRaiseOnlyTheirErrors :
    ∃ t, (bound 0 136).err = 0 ∧ (bound 0 136).bound = true ∧ exec (.get 0x00FF) (bound 0 136) = .next t ∧ t.err ≠ 0 :=
  ⟨_, rfl, rfl, eq_next_after (by decide +kernel), by decide +kernel⟩

theorem witness_OnlyTheseCommandsWriteEachRegister_error :
    (∃ t, exec .clrerr { bound 0 136 with err := 8, errinfo := 7 } = .next t ∧ t.err ≠ 8 ∧ t.errinfo ≠ 7) ∧
      ∃ t, exec (.get 0x7777) (bound 0 136) = .next t ∧ t.err ≠ (bound 0 136).err ∧
        t.errinfo ≠ (bound 0 136).errinfo :=
  ⟨⟨_, eq_next_after (by decide +kernel), by decide +kernel, by decide +kernel⟩,
    ⟨_, eq_next_after (by decide +kernel), by decide +kernel, by decide +kernel⟩⟩

theorem witness_OnlyTheseCommandsWriteEachRegister_bound :
    (∃ t, exec .blank (selected 3) = .next t ∧ t.bound ≠ (selected 3).bound) ∧
      ∃ t, exec .encrypt v36 = .next t ∧ t.bound ≠ v36.bound :=
  ⟨⟨_, eq_next_after (by decide +kernel), by decide +kernel⟩, ⟨_, eq_next_after (by decide +kernel), by decide +kernel⟩⟩

theorem witness_OnlyTheseCommandsWriteEachRegister_check :
    ∃ t, exec .check v32c = .next t ∧ t.ckok ≠ v32c.ckok ∧ t.cksum ≠ v32c.cksum :=
  ⟨_, eq_next_after (by decide +kernel), by decide +kernel, by decide +kernel⟩

theorem witness_OnlyTheseCommandsWriteEachRegister_resolve :
    ∃ t, exec .resolve { State.reset with gen := 4, rlen := 156 } = .next t ∧ t.schsel ≠ State.reset.schsel ∧
      t.val ≠ State.reset.val :=
  ⟨_, eq_next_after (by decide +kernel), by decide +kernel, by decide +kernel⟩

theorem witness_OnlyTheseCommandsWriteEachRegister_get :
    ∃ t, exec (.get 0x0050) v32c = .next t ∧ t.alen ≠ v32c.alen ∧ t.auxBuf ≠ v32c.auxBuf :=
  ⟨_, eq_next_after (by decide +kernel), by decide +kernel, by decide +kernel⟩

theorem witness_OnlyTheseCommandsWriteEachRegister_lookup :
    ∃ t, exec (.lookup 0x0050) v32c = .next t ∧ t.dsc0 ≠ v32c.dsc0 ∧ t.dsc1 ≠ v32c.dsc1 :=
  ⟨_, eq_next_after (by decide +kernel), by decide +kernel, by decide +kernel⟩

theorem witness_OnlyTheseCommandsWriteEachRegister_encrypt :
    ∃ t, exec .encrypt v36 = .next t ∧ t.rlen ≠ v36.rlen ∧ t.recBuf ≠ v36.recBuf :=
  ⟨_, eq_next_after (by decide +kernel), by decide +kernel, by decide +kernel⟩

/-- BLANK sets the bit; RESOLVE, and TENCRYPT with growth, clear it. -/
theorem witness_BoundIsSetAndLostOnlyAsStated :
    (∃ t, exec .blank (selected 3) = .next t ∧ (selected 3).bound = false ∧ t.bound = true) ∧
      (∃ t, exec .resolve { bound 0 136 with gen := 5 } = .next t ∧ (bound 0 136).bound = true ∧ t.bound = false ∧
        t.schsel ≠ (bound 0 136).schsel) ∧
      ∃ t, exec .tencrypt v36 = .next t ∧ v36.bound = true ∧ t.bound = false ∧ t.rlen ≠ v36.rlen :=
  ⟨⟨_, eq_next_after (by decide +kernel), rfl, by decide +kernel⟩,
    ⟨_, eq_next_after (by decide +kernel), rfl, by decide +kernel, by decide +kernel⟩,
    ⟨_, eq_next_after (by decide +kernel), by decide +kernel, by decide +kernel, by decide +kernel⟩⟩

/-- A step that sets the bit, and one that clears it by writing `RLEN` with its present value. -/
theorem witness_BoundIsSetAndLostOnlyAsStated_step :
    (∃ t, step ((selected 3).withFetchWord 32 0x00000002) = .next t ∧
        ((selected 3).withFetchWord 32 0x00000002).bound ≠ t.bound) ∧
      ∃ t, step (withAccess (bound 0 136) (.write32 0x10 136)) = .next t ∧
        (withAccess (bound 0 136) (.write32 0x10 136)).bound ≠ t.bound :=
  ⟨⟨_, eq_next_after (by decide +kernel), by decide +kernel⟩, ⟨_, eq_next_after (by decide +kernel), by decide +kernel⟩⟩

theorem witness_FindFieldTakesFirstDescriptor :
    (16 < (schema 0).nfields ∧ (field 0 16).fid = 0x00FF ∧ ∀ j, j < 16 → (field 0 j).fid ≠ 0x00FF) ∧
      ∀ k, k < (schema 0).nfields → (field 0 k).fid ≠ 0x7777 := by decide +kernel

theorem witness_BadSchemaStopsSelection_absent :
    (selected 6).err = 0 ∧ schemaAt (selected 6).cfg.schrom (selected 6).schsel.toNat = none := by decide +kernel

theorem witness_BadSchemaStopsSelection_header :
    (full 7 137).err = 0 ∧ schemaAt (full 7 137).cfg.schrom (full 7 137).schsel.toNat = some (headerAt (full 7 137).cfg.schrom 1) ∧
      hdrOk (full 7 137).cfg.recMax (headerAt (full 7 137).cfg.schrom 1) = false := by decide +kernel

theorem witness_LookupReportsDescriptorWords :
    (selected 0).err = 0 ∧ schemaAt (selected 0).cfg.schrom (selected 0).schsel.toNat = some (schema 0) ∧
      hdrOk (selected 0).cfg.recMax (schema 0) = true ∧
      (0 < (schema 0).nfields ∧ (romWord Config.testRom ((schema 0).start + 3)).extractLsb' 0 16 = 0x0001) ∧
      (∀ k, k < (schema 0).nfields → (romWord Config.testRom ((schema 0).start + 3 + 2 * k)).extractLsb' 0 16 ≠ 0x7777) := by
  decide +kernel

/-- Schema 2 is the first with generation 4 and size 156; no schema has generation 6. -/
theorem witness_ResolveSelectsFirstMatch :
    (schemaAt Config.testRom 2 = some (schema 2) ∧ (schema 2).gen = 4 ∧ (schema 2).size = 156 ∧
      (∀ j, j < 2 → ¬((schema j).gen = 4 ∧ (schema j).size = 156))) ∧
      (∀ j, j < 6 → ¬((schema j).gen = 6 ∧ (schema j).size = 136)) ∧ schemaAt Config.testRom 6 = none := by
  decide +kernel

theorem witness_BlankMakesZeroRecord :
    (selected 5).err = 0 ∧ schemaAt (selected 5).cfg.schrom (selected 5).schsel.toNat = some (schema 5) ∧
      hdrOk (selected 5).cfg.recMax (schema 5) = true := by decide +kernel

/-- Both cases of PARSE: a length of 135 and one of 136. -/
theorem witness_ParseChecksOnlyTheLength :
    schemaAt (selected 0).cfg.schrom (selected 0).schsel.toNat = some (schema 0) ∧
      hdrOk (selected 0).cfg.recMax (schema 0) = true ∧ ({ selected 0 with rlen := 136 }).rlen.toNat = (schema 0).size ∧
      ({ selected 0 with rlen := 135 }).rlen.toNat ≠ (schema 0).size := by decide +kernel

theorem witness_FieldErrorsComeInOrder :
    Ready (bound 0 136) ∧ boundHeader (bound 0 136) = some (schema 0) ∧
      (∀ k, k < (schema 0).nfields → (field 0 k).fid ≠ 0x7777) ∧
      findField Config.testRom (schema 0) 0x00FF = .ok (field 0 16) ∧ descOk 256 (field 0 16) = true ∧
      (bound 0 136).rlen.toNat < (field 0 16).off + extent (field 0 16) := by
  decide +kernel

/-- A schema of one field whose descriptor is not well-formed (width 3). -/
def badField : State :=
  { State.resetOf { Config.testInstance with
      schrom := [0x00000001, 0x00040008, 0x00080008, 0x00000001, 0x00000001, 0x00000003] } with
    rlen := 8, bound := true }

theorem witness_FieldErrorsComeInOrder_descriptor :
    Ready badField ∧ boundHeader badField = some (headerAt badField.cfg.schrom 1) ∧
      findField badField.cfg.schrom (headerAt badField.cfg.schrom 1) 0x0001 =
        .ok (descAt badField.cfg.schrom (headerAt badField.cfg.schrom 1) 0) ∧
      descOk badField.cfg.auxMax (descAt badField.cfg.schrom (headerAt badField.cfg.schrom 1) 0) = false := by
  decide +kernel

/-- The last field of TS2 that is an integer ends inside the record; its width is 2. -/
theorem witness_GetIntegerReadsLittleEndian :
    FieldReady (bound 2 156) (schema 2) 0x0041 (field 2 18) ∧ (field 2 18).dkind = .int := by decide +kernel

/-- A little-endian and a big-endian container. -/
theorem witness_GetBitsReadsContainerField :
    (FieldReady (bound 0 136) (schema 0) 0x0017 (field 0 12) ∧ (field 0 12).dkind = .bits ∧ (field 0 12).be = false) ∧
      FieldReady (bound 1 136) (schema 1) 0x0010 (field 1 5) ∧ (field 1 5).dkind = .bits ∧ (field 1 5).be = true := by
  decide +kernel

theorem witness_GetStringStopsAtTerminator :
    configOk (bound 0 136).cfg = true ∧ FieldReady (bound 0 136) (schema 0) 0x0020 (field 0 13) ∧
      (field 0 13).dkind = .str := by decide +kernel

/-- The field ends at the record's end. -/
theorem witness_GetRawCopiesBytes :
    FieldReady (bound 3 12) (schema 3) 0x0050 (field 3 2) ∧ (field 3 2).dkind = .raw ∧
      (field 3 2).off + (field 3 2).width = 12 := by decide +kernel

/-- A 16-bit field with the largest value that fits and the smallest that does not. -/
theorem witness_SetIntegerWritesLittleEndian :
    FieldReady { bound 0 136 with val := 0xFFFF } (schema 0) 0x0003 (field 0 2) ∧
      FieldReady { bound 0 136 with val := 0x10000 } (schema 0) 0x0003 (field 0 2) ∧
      (field 0 2).dkind = .int ∧ (field 0 2).width = 2 := by decide +kernel

/-- A 5-bit field with the largest value that fits and the smallest that does not. -/
theorem witness_SetBitsKeepsOtherBits :
    FieldReady { bound 1 136 with val := 31 } (schema 1) 0x0012 (field 1 7) ∧
      FieldReady { bound 1 136 with val := 32 } (schema 1) 0x0012 (field 1 7) ∧
      (field 1 7).dkind = .bits ∧ (field 1 7).bwidth = 5 := by decide +kernel

/-- An empty string under one pad, one longer than the field under the other. -/
theorem witness_SetStringPadsAsDescribed :
    FieldReady { bound 0 136 with alen := 0 } (schema 0) 0x0020 (field 0 13) ∧
      FieldReady { bound 1 136 with alen := 256 } (schema 1) 0x0020 (field 1 13) ∧
      (field 0 13).dkind = .str ∧ (field 1 13).dkind = .str ∧ (field 0 13).pad = false ∧ (field 1 13).pad = true := by
  decide +kernel

/-- An odd count, and one above `AUXMAX`. -/
theorem witness_SetStringPadsAsDescribed_range :
    FieldReady { bound 0 136 with alen := 3 } (schema 0) 0x0020 (field 0 13) ∧
      FieldReady { bound 0 136 with alen := 258 } (schema 0) 0x0020 (field 0 13) ∧
      (field 0 13).dkind = .str ∧ 3 % 2 ≠ 0 ∧ Config.testInstance.auxMax < 258 := by decide +kernel

/-- The field's length and one byte less. -/
theorem witness_SetRawNeedsExactLength :
    FieldReady { bound 0 136 with alen := 8 } (schema 0) 0x0021 (field 0 14) ∧
      FieldReady { bound 0 136 with alen := 7 } (schema 0) 0x0021 (field 0 14) ∧
      (field 0 14).dkind = .raw ∧ (field 0 14).width = 8 := by decide +kernel

theorem witness_GetAfterSetReturnsValue_number :
    ∃ t, FieldReady v32c (schema 3) 0x0002 (field 3 1) ∧ exec (.set 0x0002) v32c = .next t ∧ t.err = 0 ∧
      (field 3 1).dkind = .int :=
  ⟨_, by decide +kernel,
    eq_next_after (by decide +kernel), by decide +kernel, by decide +kernel⟩

theorem witness_GetAfterSetReturnsValue_bits :
    ∃ t, FieldReady (bound 1 136) (schema 1) 0x0012 (field 1 7) ∧ exec (.set 0x0012) (bound 1 136) = .next t ∧
      t.err = 0 ∧ (field 1 7).dkind = .bits :=
  ⟨_, by decide +kernel,
    eq_next_after (by decide +kernel), by decide +kernel, by decide +kernel⟩

theorem witness_GetAfterSetReturnsValue_raw :
    ∃ t, FieldReady { v32c with alen := 4 } (schema 3) 0x0050 (field 3 2) ∧
      exec (.set 0x0050) { v32c with alen := 4 } = .next t ∧ t.err = 0 ∧ (field 3 2).dkind = .raw :=
  ⟨_, by decide +kernel,
    eq_next_after (by decide +kernel), by decide +kernel, by decide +kernel⟩

/-- The longest value that fits the field, 11 code units without a terminator. -/
def fullString : State := { auxWrite (bound 1 136) 0 (zeros 22) with alen := 22 }

theorem witness_GetAfterSetReturnsValue_string :
    ∃ t, FieldReady fullString (schema 1) 0x0020 (field 1 13) ∧ exec (.set 0x0020) fullString = .next t ∧
      t.err = 0 ∧ (field 1 13).dkind = .str ∧ fullString.alen.toNat = 2 * (field 1 13).width ∧
      ∀ k, k < 11 → ¬(fullString.auxByte (2 * k) = 0xFF ∧ fullString.auxByte (2 * k + 1) = 0xFF) :=
  ⟨_, by decide +kernel,
    eq_next_after (by decide +kernel), by decide +kernel, by decide +kernel, by decide +kernel, by decide +kernel⟩

/-- The empty string, one word, the last shift and one string of eight bytes. -/
theorem witness_SumLaws :
    ([] : List Byte).length % 2 = 0 ∧ (bytes [1, 0]).length % 2 = 0 ∧ 23 < 24 ∧ (zeros 8).length % 8 = 0 := by decide

/-- SERIALIZE, CHECK and CHECK after SERIALIZE. -/
theorem witness_SerializeStoresPayloadSum : Ready v32c ∧ boundHeader v32c = some (schema 3) := by decide +kernel
theorem witness_CheckComparesWithoutError : Ready (bound 0 136) ∧ boundHeader (bound 0 136) = some (schema 0) := by
  decide +kernel
theorem witness_CheckAfterSerializeSucceeds : Ready v36 ∧ boundHeader v36 = some (schema 5) := by decide +kernel

/-- The shifts at both ends of the range. -/
theorem witness_ShuffleFollowsOrderTable : 0 < 24 ∧ 23 < 24 := by decide
theorem witness_InverseTableIsTheOnlyOne :
    (invTable.getD 13 0 = 10 ∧ invTable.getD 9 0 = 18) ∧ popSeq 0 [0x41, 0x42, 0x43, 0x44] = pad4 [0x41, 0x42, 0x43, 0x44] := by
  decide +kernel
theorem witness_UnshuffleInvertsShuffle : 0 < 24 ∧ 23 < 24 := by decide

theorem witness_StreamIsKeyedAndSelfInverse : (zeros 8).length % 2 = 0 ∧ 2 * 3 + 1 < (zeros 8).length := by decide

/-- TS5 grows under each of the four commands and still fits. -/
theorem witness_cipher_fits :
    Ready v36 ∧ boundHeader v36 = some (schema 5) ∧
      v36.rlen.toNat + growth ((schema 5).payEnd - 8) ≤ v36.cfg.recMax ∧
      v36.rlen.toNat + growth ((schema 5).tailEnd - (schema 5).payEnd) ≤ v36.cfg.recMax ∧
      growth ((schema 5).payEnd - 8) = 2 ∧ growth ((schema 5).tailEnd - (schema 5).payEnd) = 3 := by decide +kernel

/-- A payload, and a tail, of 129 bytes in a record that fills `REC` (V38). -/
theorem witness_cipher_full :
    (Ready (full 137 137) ∧ boundHeader (full 137 137) = some (headerAt (full 137 137).cfg.schrom 1) ∧
      (full 137 137).cfg.recMax < (full 137 137).rlen.toNat + growth (137 - 8)) ∧
    Ready (full 8 137) ∧ boundHeader (full 8 137) = some (headerAt (full 8 137).cfg.schrom 1) ∧
      (full 8 137).cfg.recMax < (full 8 137).rlen.toNat + growth (137 - 8) := by decide +kernel

theorem witness_DecryptAfterEncryptRestoresPayload :
    Ready v32c ∧ boundHeader v32c = some (schema 3) ∧ ((schema 3).payEnd - 8) % 4 = 0 := by decide +kernel

/-- A record of TS0 with two bytes of payload that are not zero, and their sum stored. -/
def v27 : State :=
  memWrite (memWrite { bound 0 136 with recBuf := Memory.writeBytes [] 0 (zeros 136) } 8 [0x5E]) 6 [0x5E, 0x00]

theorem witness_DecryptAfterEncryptIsIdentity :
    Ready v27 ∧ boundHeader v27 = some (schema 0) ∧ ((schema 0).payEnd - 8) % 8 = 0 ∧
      (v27.recByte 4 = 0 ∧ v27.recByte 5 = 0 ∧ storedChecksum v27 = payloadSum v27 (schema 0)) := by decide +kernel

/-- The encrypted record of V32c. -/
theorem witness_EncryptAfterDecryptRestoresRecord :
    Ready (run v32c 0x0000000A) ∧ boundHeader (run v32c 0x0000000A) = some (schema 3) ∧
      ((schema 3).payEnd - 8) % 4 = 0 ∧
      storedChecksum (run v32c 0x0000000A) =
        sum16 (lcgXor ((storedChecksum (run v32c 0x0000000A)).setWidth 32)
          (memRead (run v32c 0x0000000A) 8 ((schema 3).payEnd - 8))) := by decide +kernel

theorem witness_TailTransformsUndoEachOther :
    Ready v34 ∧ boundHeader v34 = some (schema 2) ∧ ((schema 2).tailEnd - (schema 2).payEnd) % 4 = 0 ∧
      (schema 2).tailEnd - (schema 2).payEnd = 20 := by decide +kernel

theorem witness_EncryptAndTencryptCommute :
    Ready v34 ∧ boundHeader v34 = some (schema 2) ∧ ((schema 2).payEnd - 8) % 4 = 0 ∧
      ((schema 2).tailEnd - (schema 2).payEnd) % 4 = 0 := by decide +kernel

end Sys2Proof.Tests
end

section
/-! The words that decode (R72 of `30_encoding.md`). The decoder falls into four classes: `rsv` not 0, no such
opcode, an opcode that takes a `fid`, and one that takes none. Each has its one lemma; together they say that the
decoder accepts exactly what `legalWord` does, and R72's bit ranges are `legalWord` written out. -/

namespace Sys2Proof

/-- A command without a `fid` is accepted exactly when bits 31:16 are 0. -/
theorem exists_plainCommand_eq_ok (w : Word) (i : Instr) : (∃ j, plainCommand w i = .ok j) ↔ fidField w = 0 := by
  by_cases hfid : fidField w = 0
  · exact iff_of_true ⟨i, if_pos hfid⟩ hfid
  · exact iff_of_false (by simp only [plainCommand, if_neg hfid, reduceCtorEq, exists_false, not_false_eq_true]) hfid

theorem opLegal_iff (w : Word) : opLegal w = true ↔ 1 ≤ (opField w).toNat ∧ (opField w).toNat ≤ 0x0D := by
  simp [opLegal]

theorem takesFid_iff (w : Word) : takesFid w = true ↔ 5 ≤ (opField w).toNat ∧ (opField w).toNat ≤ 7 := by
  simp [takesFid]

theorem legalWord_iff (w : Word) :
    legalWord w = true ↔ opLegal w = true ∧ rsvField w = 0 ∧ (takesFid w = true ∨ fidField w = 0) := by
  simp [legalWord, and_assoc]

theorem decode_of_rsvField_ne_zero (w : Word) (hrsv : rsvField w ≠ 0) : decode w = .error .reservedBits :=
  if_neg hrsv

theorem decode_of_not_opLegal (w : Word) (hrsv : rsvField w = 0) (hop : ¬ opLegal w = true) :
    decode w = .error .opcode := by
  rw [opLegal_iff] at hop
  rw [decode, if_pos hrsv]
  split
  case h_14 => rfl
  all_goals omega

theorem decode_of_takesFid (w : Word) (hrsv : rsvField w = 0) (hfid : takesFid w = true) :
    ∃ i, decode w = .ok i := by
  obtain ⟨hlo, hhi⟩ := (takesFid_iff w).mp hfid
  rw [decode, if_pos hrsv]
  interval_cases (opField w).toNat
  · exact ⟨.lookup (fidField w), rfl⟩
  · exact ⟨.get (fidField w), rfl⟩
  · exact ⟨.set (fidField w), rfl⟩

/-- A legal opcode that takes no `fid` leaves the decision to the check of bits 31:16. -/
theorem decode_of_not_takesFid (w : Word) (hrsv : rsvField w = 0) (hop : opLegal w = true)
    (hfid : ¬ takesFid w = true) : ∃ i, decode w = plainCommand w i := by
  rw [takesFid_iff] at hfid
  obtain ⟨hlo, hhi⟩ := (opLegal_iff w).mp hop
  have hside : (opField w).toNat ≤ 4 ∨ 8 ≤ (opField w).toNat := by omega
  rw [decode, if_pos hrsv]
  obtain hbelow | habove := hside
  · interval_cases (opField w).toNat <;> exact ⟨_, rfl⟩
  · interval_cases (opField w).toNat <;> exact ⟨_, rfl⟩

/-- The decoder accepts exactly the words that the model's own check of R72 accepts. -/
theorem exists_decode_eq_ok_iff_legalWord (w : Word) : (∃ i, decode w = .ok i) ↔ legalWord w = true := by
  rw [legalWord_iff]
  by_cases hrsv : rsvField w = 0
  · by_cases hop : opLegal w = true
    · by_cases hfid : takesFid w = true
      · exact iff_of_true (decode_of_takesFid w hrsv hfid) ⟨hop, hrsv, .inl hfid⟩
      · obtain ⟨i, hi⟩ := decode_of_not_takesFid w hrsv hop hfid
        rw [hi, exists_plainCommand_eq_ok]
        exact ⟨fun h => ⟨hop, hrsv, .inr h⟩, fun ⟨_, _, h⟩ => h.resolve_left hfid⟩
    · exact iff_of_false (by simp [decode_of_not_opLegal w hrsv hop]) fun ⟨h, _, _⟩ => hop h
  · exact iff_of_false (by simp [decode_of_rsvField_ne_zero w hrsv]) fun ⟨_, h, _⟩ => hrsv h

/-- R72 names the three opcodes that take a `fid`; the model's check gives them as a range. -/
theorem takesFid_iff_opField (w : Word) : takesFid w = true ↔ opField w = 5 ∨ opField w = 6 ∨ opField w = 7 := by
  rw [takesFid_iff]
  bv_omega

/-- Settles O2: the decoder accepts what `legalWord` accepts, and its three conditions are R72's bit ranges. -/
theorem legalWordsDecode : Obligations.LegalWordsDecode := by
  intro w
  rw [exists_decode_eq_ok_iff_legalWord, legalWord_iff, opLegal_iff, takesFid_iff_opField,
    or_comm (b := fidField w = 0)]
  rfl

end Sys2Proof
end

section
/-! `FindField` (R92 of `40_schema_lookup.md`). -/

namespace Sys2Proof.Machine

/-- Settles O25: the two laws of `findField` say when it answers and when it raises `UnknownField`; each clause is one
of them read from right to left. -/
theorem findFieldTakesFirstDescriptor : Obligations.FindFieldTakesFirstDescriptor := by
  intro rom h f
  constructor
  · intro k hk hfid hfirst
    exact findField_eq_ok.mpr ⟨k, hk, rfl, hfid, hfirst⟩
  · intro hnone
    exact findField_eq_error.mpr ⟨rfl, hnone⟩

end Sys2Proof.Machine
end

section
/-! GET and SET of one field (R102 to R111 of `41_record_codec.md`). What the two commands do where the common checks
pass is said once; then, for each operand form, what it reads or writes, and the obligation. -/

namespace Sys2Proof.Machine

/-! The two commands on a field that is there, well-formed and inside the record. -/

/-- GET of a ready field delivers what the field reads as. -/
theorem exec_get_of_fieldReady {s : State} {h : Header} {fid : BitVec 16} {d : Desc} (hf : FieldReady s h fid d) :
    exec (.get fid) s = .next (deliver s (readField s d)) := by
  obtain ⟨⟨herr, hbound⟩, hhd, hfield⟩ := hf
  have hdesc : fieldDesc s h fid = .ok d := fieldDesc_eq_ok.mpr hfield
  calc exec (.get fid) s = execGet fid s := rfl
    _ = .next (deliver s (readField s d)) := by simp [execGet, performBound_ready herr hbound hhd, hdesc, conclude]

/-- SET of a ready field ends as the field's bytes say: they are written over it, or there are none and SET raises. -/
theorem exec_set_of_fieldReady {s : State} {h : Header} {fid : BitVec 16} {d : Desc} (hf : FieldReady s h fid d) :
    exec (.set fid) s = conclude (.set fid) s ((fieldBytes s d).map (memWrite s d.off)) := by
  obtain ⟨⟨herr, hbound⟩, hhd, hfield⟩ := hf
  have hdesc : fieldDesc s h fid = .ok d := fieldDesc_eq_ok.mpr hfield
  calc exec (.set fid) s = execSet fid s := rfl
    _ = conclude (.set fid) s ((fieldBytes s d).map (memWrite s d.off)) := by
      simp only [execSet, performBound_ready herr hbound hhd, hdesc]
      cases fieldBytes s d <;> rfl

theorem exec_set_of_fieldBytes_eq_ok {s : State} {h : Header} {fid : BitVec 16} {d : Desc} {bs : List Byte}
    (hf : FieldReady s h fid d) (hbs : fieldBytes s d = .ok bs) :
    exec (.set fid) s = .next (memWrite s d.off bs) := by
  rw [exec_set_of_fieldReady hf, hbs]
  rfl

/-- A value the field cannot hold raises `ValueRange`, code 8 (R170 of `60_exceptions.md`). -/
theorem exec_set_of_fieldBytes_eq_error {s : State} {h : Header} {fid : BitVec 16} {d : Desc} {e : ErrCode}
    (hf : FieldReady s h fid d) (hbs : fieldBytes s d = .error e) :
    exec (.set fid) s = .next { s with err := 8, errinfo := encode (.set fid) } := by
  obtain rfl := fieldBytes_eq_error hbs
  rw [exec_set_of_fieldReady hf, hbs]
  rfl

theorem findField_of_fieldReady {s : State} {h : Header} {fid : BitVec 16} {d : Desc} (hf : FieldReady s h fid d) :
    findField s.cfg.schrom h fid = .ok d := by
  obtain ⟨-, -, hfind, -⟩ := hf
  exact hfind

theorem descOk_of_fieldReady {s : State} {h : Header} {fid : BitVec 16} {d : Desc} (hf : FieldReady s h fid d) :
    descOk s.cfg.auxMax d = true := by
  obtain ⟨-, -, -, hok, -⟩ := hf
  exact hok

/-! What a well-formed descriptor bounds (R77, R79 of `30_encoding.md`). -/

theorem width_le_of_descOk_int {auxMax : Nat} {d : Desc} (hok : descOk auxMax d = true) (hk : d.dkind = .int) :
    d.width ≤ 4 := by
  simp only [descOk, hk, wordWidth, Bool.and_eq_true, Bool.or_eq_true, beq_iff_eq] at hok
  omega

theorem bwidth_le_of_descOk_bits {auxMax : Nat} {d : Desc} (hok : descOk auxMax d = true) (hk : d.dkind = .bits) :
    d.bwidth ≤ 32 := by
  simp only [descOk, hk, Bool.and_eq_true, decide_eq_true_eq] at hok
  omega

theorem width_le_of_descOk_str {auxMax : Nat} {d : Desc} (hok : descOk auxMax d = true) (hk : d.dkind = .str) :
    2 * d.width ≤ auxMax := by
  simp only [descOk, hk, Bool.and_eq_true, decide_eq_true_eq] at hok
  omega

/-- The `width` of a descriptor in the image is a 16-bit value, well-formed or not (R77). -/
theorem width_lt_of_findField {rom : List Word} {h : Header} {f : BitVec 16} {d : Desc}
    (hf : findField rom h f = .ok d) : d.width < 2 ^ 16 := by
  obtain ⟨k, -, rfl, -⟩ := findField_eq_ok.mp hf
  exact BitVec.isLt _

theorem auxMax_lt_of_configOk {c : Config} (hc : configOk c = true) : c.auxMax < 2 ^ 16 := by
  simp only [configOk, Bool.and_eq_true, decide_eq_true_eq] at hc
  omega

/-! What each operand form reads. -/

theorem readField_int {s : State} {d : Desc} (hk : d.dkind = .int) :
    readField s d = .number (BitVec.ofNat 32 (le (memRead s d.off d.width))) := by simp [readField, hk]

theorem readField_bits {s : State} {d : Desc} (hk : d.dkind = .bits) :
    readField s d =
      .number (BitVec.ofNat 32 (bitField (containerValue d.be (memRead s d.off d.width)) d.bshift d.bwidth)) := by
  simp [readField, hk]

theorem readField_str {s : State} {d : Desc} (hk : d.dkind = .str) :
    readField s d = .block (memRead s d.off (2 * unitsBeforeTerminator (memRead s d.off (2 * d.width)))) := by
  simp [readField, hk]

theorem readField_raw {s : State} {d : Desc} (hk : d.dkind = .raw) :
    readField s d = .block (memRead s d.off d.width) := by simp [readField, hk]

/-- `bitField` takes `bwidth` bits of the word from bit `bshift` on (R104). -/
theorem testBit_bitField (word bshift bwidth j : Nat) :
    (bitField word bshift bwidth).testBit j = (decide (j < bwidth) && word.testBit (bshift + j)) := by
  rw [bitField, Nat.one_shiftLeft, Nat.testBit_and, Nat.testBit_shiftRight, Nat.testBit_two_pow_sub_one, Bool.and_comm]

/-- A run of `REC` delivered to `AUX` stands there from 0 on, and the bytes of `AUX` above it are kept. -/
theorem auxByte_deliver_memRead (s : State) (off n a : Nat) :
    (deliver s (.block (memRead s off n))).auxByte a = if a < n then s.recByte (off + a) else s.auxByte a := by
  have hwrite : (deliver s (.block (memRead s off n))).auxByte a = (auxWrite s 0 (memRead s off n)).auxByte a := rfl
  rw [hwrite, auxByte_auxWrite, length_memRead]
  by_cases ha : a < n
  · rw [if_pos (by omega), if_pos ha]
    exact getD_readRun s.recByte off n a ha
  · rw [if_neg (by omega), if_neg ha]

/-- A run of `REC` delivered to `AUX` changes `AUX` and `ALEN`, which is the run's length, and nothing else. -/
theorem deliver_memRead_frame (s : State) (off n : Nat) :
    deliver s (.block (memRead s off n)) =
      { s with auxBuf := (deliver s (.block (memRead s off n))).auxBuf, alen := BitVec.ofNat 16 n } := by
  simp only [deliver, auxWrite, length_memRead]

/-! The terminator of a string field. -/

/-- The code unit at address `a` of a storage is the terminator 0xFFFF. -/
abbrev TerminatorAt (f : Nat → Byte) (a : Nat) : Prop := f a = 0xFF ∧ f (a + 1) = 0xFF

theorem unitsBeforeTerminator_readRun_succ (f : Nat → Byte) (a w : Nat) :
    unitsBeforeTerminator (readRun f a (2 * (w + 1))) =
      if TerminatorAt f a then 0 else unitsBeforeTerminator (readRun f (a + 2) (2 * w)) + 1 := rfl

/-- None of the units that are counted is the terminator. -/
theorem not_terminatorAt_of_lt (f : Nat → Byte) (a w k : Nat)
    (hk : k < unitsBeforeTerminator (readRun f a (2 * w))) : ¬TerminatorAt f (a + 2 * k) := by
  induction w generalizing a k with
  | zero => exact absurd hk (Nat.not_lt_zero k)
  | succ w ih =>
    rw [unitsBeforeTerminator_readRun_succ] at hk
    split at hk
    case isTrue => omega
    case isFalse hfirst =>
      cases k with
      | zero => exact hfirst
      | succ k =>
        have haddr : a + 2 * (k + 1) = a + 2 + 2 * k := by omega
        rw [haddr]
        exact ih (a + 2) k (by omega)

/-- Where the count stops short of the field's units, the terminator stands. -/
theorem terminatorAt_of_unitsBeforeTerminator_lt (f : Nat → Byte) (a w : Nat)
    (hlt : unitsBeforeTerminator (readRun f a (2 * w)) < w) :
    TerminatorAt f (a + 2 * unitsBeforeTerminator (readRun f a (2 * w))) := by
  induction w generalizing a with
  | zero => omega
  | succ w ih =>
    rw [unitsBeforeTerminator_readRun_succ] at hlt ⊢
    split at hlt
    case isTrue hfirst => rwa [if_pos hfirst]
    case isFalse hfirst =>
      have haddr (n : Nat) : a + 2 * (n + 1) = a + 2 + 2 * n := by omega
      rw [if_neg hfirst, haddr]
      exact ih (a + 2) (by omega)

/-! What each operand form writes. -/

theorem fieldBytes_int_fits {s : State} {d : Desc} (hk : d.dkind = .int) (hv : s.val.toNat < 2 ^ (8 * d.width)) :
    fieldBytes s d = .ok (leBytes d.width s.val.toNat) := by simp [fieldBytes, hk, hv]

theorem fieldBytes_int_tooLarge {s : State} {d : Desc} (hk : d.dkind = .int) (hv : 2 ^ (8 * d.width) ≤ s.val.toNat) :
    fieldBytes s d = .error .valueRange := by simp [fieldBytes, hk, hv]

theorem fieldBytes_raw_exact {s : State} {d : Desc} (hk : d.dkind = .raw) (hlen : s.alen.toNat = d.width) :
    fieldBytes s d = .ok (auxRead s 0 d.width) := by simp [fieldBytes, hk, hlen]

theorem fieldBytes_raw_otherLength {s : State} {d : Desc} (hk : d.dkind = .raw) (hlen : s.alen.toNat ≠ d.width) :
    fieldBytes s d = .error .valueRange := by simp [fieldBytes, hk, hlen]

/-- A byte outside the range written is kept. -/
theorem recByte_memWrite_outside (s : State) (off a : Nat) (bs : List Byte) (ha : a < off ∨ off + bs.length ≤ a) :
    (memWrite s off bs).recByte a = s.recByte a := by
  rw [recByte_memWrite, if_neg (by omega)]

/-- A run of `AUX` written to `REC` stands there byte for byte, and the bytes of `REC` around it are kept. -/
theorem recByte_memWrite_auxRead (s : State) (off n a : Nat) :
    (memWrite s off (auxRead s 0 n)).recByte a =
      if off ≤ a ∧ a < off + n then s.auxByte (a - off) else s.recByte a := by
  rw [recByte_memWrite, length_auxRead]
  by_cases ha : off ≤ a ∧ a < off + n
  · rw [if_pos ha, if_pos ha, auxRead, getD_readRun s.auxByte 0 n (a - off) (by omega), Nat.zero_add]
  · rw [if_neg ha, if_neg ha]

/-! The obligations. -/

/-- Settles O32: a field of at most four bytes has a value below 2^32, so `VAL` holds it whole. -/
theorem getIntegerReadsLittleEndian : Obligations.GetIntegerReadsLittleEndian := by
  intro s h fid d hf hk
  have hfits : le (memRead s d.off d.width) < 2 ^ 32 := calc
    le (memRead s d.off d.width) < 256 ^ d.width := by simpa using le_lt (memRead s d.off d.width)
    _ ≤ 256 ^ 4 := Nat.pow_le_pow_right (by omega) (width_le_of_descOk_int (descOk_of_fieldReady hf) hk)
    _ = 2 ^ 32 := by norm_num
  refine ⟨BitVec.ofNat 32 (le (memRead s d.off d.width)), ?_, ?_⟩
  · rw [BitVec.toNat_ofNat, Nat.mod_eq_of_lt hfits]
  · rw [exec_get_of_fieldReady hf, readField_int hk, deliver]

/-- Settles O33: the shift and the mask of R104, bit by bit; a field of at most 32 bits loses none of them in `VAL`. -/
theorem getBitsReadsContainerField : Obligations.GetBitsReadsContainerField := by
  intro s h fid d hf hk
  have hwidth : d.bwidth ≤ 32 := bwidth_le_of_descOk_bits (descOk_of_fieldReady hf) hk
  refine ⟨BitVec.ofNat 32 (bitField (containerValue d.be (memRead s d.off d.width)) d.bshift d.bwidth), ?_, ?_⟩
  · intro j
    rw [BitVec.getLsbD_ofNat, testBit_bitField, containerValue]
    by_cases hj : j < d.bwidth
    · have hj32 : j < 32 := by omega
      simp only [hj, hj32, decide_true, Bool.true_and]
    · simp only [hj, decide_false, Bool.false_and, Bool.and_false]
  · rw [exec_get_of_fieldReady hf, readField_bits hk, deliver]

/-- Settles O34, with `n` the number of units before the terminator: `2 * n ≤ AUXMAX ≤ 65535`, so `ALEN` holds the
byte count. -/
theorem getStringStopsAtTerminator : Obligations.GetStringStopsAtTerminator := by
  intro s h fid d hc hf hk
  have hunits : 2 * unitsBeforeTerminator (memRead s d.off (2 * d.width)) ≤ 2 * d.width := by
    simpa using unitsBeforeTerminator_le (memRead s d.off (2 * d.width))
  have hwidth : 2 * d.width ≤ s.cfg.auxMax := width_le_of_descOk_str (descOk_of_fieldReady hf) hk
  have haux : s.cfg.auxMax < 2 ^ 16 := auxMax_lt_of_configOk hc
  have hget := exec_get_of_fieldReady hf
  rw [readField_str hk] at hget
  refine ⟨unitsBeforeTerminator (memRead s d.off (2 * d.width)), _, by omega,
    not_terminatorAt_of_lt s.recByte d.off d.width, terminatorAt_of_unitsBeforeTerminator_lt s.recByte d.off d.width,
    hget, deliver_memRead_frame s d.off _, ?_, auxByte_deliver_memRead s d.off _⟩
  rw [deliver_memRead_frame, BitVec.toNat_ofNat, Nat.mod_eq_of_lt (by omega)]

/-- Settles O35: `width` is a 16-bit value, so `ALEN` holds it. -/
theorem getRawCopiesBytes : Obligations.GetRawCopiesBytes := by
  intro s h fid d hf hk
  refine ⟨deliver s (.block (memRead s d.off d.width)), ?_, deliver_memRead_frame s d.off d.width, ?_,
    auxByte_deliver_memRead s d.off d.width⟩
  · rw [exec_get_of_fieldReady hf, readField_raw hk]
  · have hwidth : d.width < 2 ^ 16 := width_lt_of_findField (findField_of_fieldReady hf)
    rw [deliver_memRead_frame, BitVec.toNat_ofNat, Nat.mod_eq_of_lt hwidth]

/-- Settles O36: the field reads back the bytes written, and these have the value for a value below `256 ^ width`. -/
theorem setIntegerWritesLittleEndian : Obligations.SetIntegerWritesLittleEndian := by
  intro s h fid d hf hk
  constructor
  · intro hv
    have hv' : s.val.toNat < 256 ^ d.width := by rwa [Nat.pow_mul] at hv
    refine ⟨_, exec_set_of_fieldBytes_eq_ok hf (fieldBytes_int_fits hk hv), rfl, ?_, ?_⟩
    · have hread := memRead_memWrite_self s d.off (leBytes d.width s.val.toNat)
      rw [length_leBytes] at hread
      rw [hread, le_leBytes d.width s.val.toNat hv']
    · intro a ha
      exact recByte_memWrite_outside s d.off a _ (by rwa [length_leBytes])
  · intro hv
    exact exec_set_of_fieldBytes_eq_error hf (fieldBytes_int_tooLarge hk hv)

/-- Settles O39: SET writes the run of `AUX` when `ALEN` is the field's width, and has no bytes to write otherwise. -/
theorem setRawNeedsExactLength : Obligations.SetRawNeedsExactLength := by
  intro s h fid d hf hk
  constructor
  · intro hlen
    exact ⟨_, exec_set_of_fieldBytes_eq_ok hf (fieldBytes_raw_exact hk hlen), rfl,
      recByte_memWrite_auxRead s d.off d.width⟩
  · intro hlen
    exact exec_set_of_fieldBytes_eq_error hf (fieldBytes_raw_otherLength hk hlen)

end Sys2Proof.Machine
end

section
/-! The checksum as the sum of its words (R120 of `42_checksum.md`). -/

namespace Sys2Proof.Machine

/-! `Sum16`, two bytes at a time. -/

@[simp] theorem sum16_nil : sum16 [] = 0 := rfl

/-- A last byte without its high byte is a word of its own: `Pad2` gives it the high byte zero. -/
@[simp] theorem sum16_singleton (b : Byte) : sum16 [b] = BitVec.ofNat 16 b.toNat := by
  simp [sum16, pad2, zeros, wordSum]

theorem pad2_cons_cons (lo hi : Byte) (rest : List Byte) : pad2 (lo :: hi :: rest) = lo :: hi :: pad2 rest := by
  simp [pad2, Nat.add_assoc]

theorem sum16_cons_cons (lo hi : Byte) (rest : List Byte) :
    sum16 (lo :: hi :: rest) = BitVec.ofNat 16 (lo.toNat + 256 * hi.toNat) + sum16 rest := by
  rw [sum16, pad2_cons_cons, wordSum, sum16]

/-! The words of a byte string. -/

/-- Word `i` of a byte string, little-endian; a byte beyond its end counts as zero (R52, R120). -/
def wordAt (b : List Byte) (i : Nat) : Nat := (b.getD (2 * i) 0).toNat + 256 * (b.getD (2 * i + 1) 0).toNat

@[simp] theorem wordAt_cons_cons_zero (lo hi : Byte) (rest : List Byte) :
    wordAt (lo :: hi :: rest) 0 = lo.toNat + 256 * hi.toNat := rfl

@[simp] theorem wordAt_cons_cons_succ (lo hi : Byte) (rest : List Byte) (i : Nat) :
    wordAt (lo :: hi :: rest) (i + 1) = wordAt rest i := rfl

@[simp] theorem wordAt_singleton_zero (b : Byte) : wordAt [b] 0 = b.toNat := rfl

/-- The words of a byte string in order, the last one completed where the length is odd. -/
def wordsOf (b : List Byte) : List Nat := (List.range ((b.length + 1) / 2)).map (wordAt b)

@[simp] theorem wordsOf_nil : wordsOf [] = [] := rfl

@[simp] theorem wordsOf_singleton (b : Byte) : wordsOf [b] = [b.toNat] := by simp [wordsOf]

theorem wordsOf_cons_cons (lo hi : Byte) (rest : List Byte) :
    wordsOf (lo :: hi :: rest) = (lo.toNat + 256 * hi.toNat) :: wordsOf rest := by
  have hcount : ((lo :: hi :: rest).length + 1) / 2 = (rest.length + 1) / 2 + 1 := by
    simp only [List.length_cons]
    omega
  have htail : wordAt (lo :: hi :: rest) ∘ Nat.succ = wordAt rest := funext (wordAt_cons_cons_succ lo hi rest)
  rw [wordsOf, hcount, List.range_succ_eq_map, List.map_cons, List.map_map, htail, wordAt_cons_cons_zero, wordsOf]

/-- `Sum16` is the sum of the words as a 16-bit value: the additions wrap, so it does not matter where they do. -/
theorem sum16_eq_ofNat_sum_wordsOf (b : List Byte) : sum16 b = BitVec.ofNat 16 (wordsOf b).sum := by
  induction b using List.twoStepInduction with
  | nil => simp
  | singleton b => rw [sum16_singleton, wordsOf_singleton, List.sum_singleton]
  | cons_cons lo hi rest ih _ =>
    rw [sum16_cons_cons, wordsOf_cons_cons, List.sum_cons, ih, ← BitVec.ofNat_add]

/-- Settles O41: the value of the 16-bit sum is the sum of the words modulo 2^16. -/
theorem sumIsWordSumModulo : Obligations.SumIsWordSumModulo := by
  intro b
  rw [sum16_eq_ofNat_sum_wordsOf, BitVec.toNat_ofNat]
  rfl

end Sys2Proof.Machine
end

section
/-! The shift of the cipher (R132 of `43_cipher.md`). -/

namespace Sys2Proof.Machine

/-- Shifting down by 13 and keeping the five low bits, as `shiftOf` does, takes the bits 17 to 13. -/
theorem toNat_extractLsb'_shiftField (pv : BitVec 32) :
    (pv.extractLsb' 13 5).toNat = (pv.toNat >>> 13) &&& 0x1F := by
  rw [BitVec.extractLsb'_toNat]
  exact (Nat.and_two_pow_sub_one_eq_mod _ 5).symm

/-- Settles O46: the shift is the field's value modulo 24, so it is one of the 24. -/
theorem shiftIsFiveBitFieldModulo : Obligations.ShiftIsFiveBitFieldModulo := by
  intro pv
  refine ⟨?_, shiftOf_lt pv⟩
  rw [toNat_extractLsb'_shiftField, shiftOf]

end Sys2Proof.Machine
end

section
/-! RESOLVE (R160 of `44_variant_resolver.md`). The search of `resolveIndex` runs over the headers of the image; it is
restated for the schemas that `schemaAt` answers, and the command is then said once for each of its two endings. -/

namespace Sys2Proof.Machine

/-- A command that needs no bound record is performed when no error is latched (R175 of `60_exceptions.md`). -/
theorem performFree_ready {i : Instr} {s : State} {rule : Except ErrCode State} (herr : s.err = 0) :
    performFree i rule s = conclude i s rule := if_pos herr

/-- Every index below `NSCH` names a schema (R90 of `40_schema_lookup.md`). -/
theorem schemaAt_of_lt {rom : List Word} {i : Nat} (hi : i < nsch rom) :
    schemaAt rom i = some (headerAt rom (schemaBase rom i)) := schemaAt_eq_some.mpr ⟨hi, rfl⟩

/-! The search, over schemas. -/

theorem resolveIndex_eq_some_of_first {rom : List Word} {gen : BitVec 8} {size i : Nat} {h : Header}
    (hi : schemaAt rom i = some h) (hmatch : h.gen = gen ∧ h.size = size)
    (hfirst : ∀ (j : Nat) (g : Header), j < i → schemaAt rom j = some g → ¬(g.gen = gen ∧ g.size = size)) :
    resolveIndex rom gen size = some i := by
  obtain ⟨hlt, rfl⟩ := schemaAt_eq_some.mp hi
  exact resolveIndex_eq_some.mpr ⟨hlt, hmatch, fun j hj => hfirst j _ hj (schemaAt_of_lt (hj.trans hlt))⟩

theorem resolveIndex_eq_none_of_forall {rom : List Word} {gen : BitVec 8} {size : Nat}
    (hnone : ∀ (i : Nat) (h : Header), schemaAt rom i = some h → ¬(h.gen = gen ∧ h.size = size)) :
    resolveIndex rom gen size = none :=
  resolveIndex_eq_none.mpr fun i hi => hnone i _ (schemaAt_of_lt hi)

/-! The command. -/

/-- RESOLVE that finds a schema writes `SCHSEL`, `VAL` and `BOUND`, and nothing else. -/
theorem exec_resolve_of_eq_some {s : State} {i : Nat} {h : Header} (herr : s.err = 0)
    (hi : schemaAt s.cfg.schrom i = some h) (hfound : resolveIndex s.cfg.schrom s.gen s.rlen.toNat = some i) :
    exec .resolve s = .next { s with schsel := BitVec.ofNat 16 i, val := h.kind.setWidth 32, bound := false } := by
  obtain ⟨-, rfl⟩ := schemaAt_eq_some.mp hi
  calc exec .resolve s = execResolve s := rfl
    _ = .next { s with schsel := BitVec.ofNat 16 i, val := _, bound := false } := by
      rw [execResolve, performFree_ready herr, hfound, conclude]

/-- RESOLVE that finds none raises `UnsupportedLength`, code 5 (R170 of `60_exceptions.md`). -/
theorem exec_resolve_of_eq_none {s : State} (herr : s.err = 0)
    (hnone : resolveIndex s.cfg.schrom s.gen s.rlen.toNat = none) :
    exec .resolve s = .next { s with err := 5, errinfo := 0x00000003 } := by
  calc exec .resolve s = execResolve s := rfl
    _ = .next (s.raise .unsupportedLength (encode .resolve)) := by
      rw [execResolve, performFree_ready herr, hnone, conclude]
    _ = .next { s with err := 5, errinfo := 0x00000003 } := rfl

/-- Settles O28: the first schema that matches is the one the search stops at, and with no match it finds none. -/
theorem resolveSelectsFirstMatch : Obligations.ResolveSelectsFirstMatch := by
  intro s herr
  constructor
  · intro i h hi hgen hsize hfirst
    exact exec_resolve_of_eq_some herr hi (resolveIndex_eq_some_of_first hi ⟨hgen, hsize⟩ hfirst)
  · intro hnone
    exact exec_resolve_of_eq_none herr (resolveIndex_eq_none_of_forall hnone)

end Sys2Proof.Machine
end

section
/-! The command word, put together from its fields (R70, R71 of `30_encoding.md`): the word a legal `CMD` write carries
is the encoding of the command it decodes to, so the word an error entry records is the one written. -/

namespace Sys2Proof

/-- A command without a `fid` is the one its opcode names, and bits 31:16 of its word are 0. -/
theorem plainCommand_eq_ok {w : Word} {i j : Instr} (h : plainCommand w i = .ok j) : i = j ∧ fidField w = 0 := by
  by_cases hfid : fidField w = 0
  · rw [plainCommand, if_pos hfid] at h
    exact ⟨Except.ok.inj h, hfid⟩
  · rw [plainCommand, if_neg hfid] at h
    exact nomatch h

/-- A word that decodes has `rsv = 0` and the opcode and `fid` of its command. -/
theorem fields_of_decode_eq_ok {w : Word} {i : Instr} (h : decode w = .ok i) :
    rsvField w = 0 ∧ opField w = opcodeOf i ∧ fidField w = fidOf i := by
  by_cases hrsv : rsvField w = 0
  · rw [decode, if_pos hrsv] at h
    refine ⟨hrsv, ?_⟩
    split at h
    case h_5 hop | h_6 hop | h_7 hop =>
      cases h
      exact ⟨BitVec.eq_of_toNat_eq hop, rfl⟩
    case h_14 => exact nomatch h
    all_goals
      obtain ⟨rfl, hfid⟩ := plainCommand_eq_ok h
      exact ⟨BitVec.eq_of_toNat_eq ‹_›, hfid⟩
  · rw [decode_of_rsvField_ne_zero w hrsv] at h
    exact nomatch h

/-- A word with `rsv = 0` is its `fid` and its opcode, put together as `encode` does. -/
theorem parts_of_rsvField_eq_zero {w : Word} (hrsv : rsvField w = 0) :
    (fidField w).setWidth 32 <<< 16 ||| (opField w).setWidth 32 = w := by
  have hmid : ∀ k : Nat, 8 ≤ k → k < 16 → w.getLsbD k = false := by
    intro k hlo hhi
    have hbit := congrArg (fun v => v.getLsbD (k - 8)) hrsv
    simpa [rsvField, show k - 8 < 8 by omega, show 8 + (k - 8) = k by omega] using hbit
  ext k hk
  rw [← BitVec.getLsbD_eq_getElem, ← BitVec.getLsbD_eq_getElem]
  simp only [fidField, opField, BitVec.getLsbD_or, BitVec.getLsbD_shiftLeft, BitVec.getLsbD_setWidth,
    BitVec.getLsbD_extractLsb']
  by_cases hop : k < 8
  · simp [hop, show k < 16 by omega, hk]
  · by_cases hfid : k < 16
    · simp [hop, hfid, hmid k (by omega) hfid]
    · simp [hop, hfid, hk, show k - 16 < 16 by omega, show k - 16 < 32 by omega, show 16 + (k - 16) = k by omega]

/-- The word that decodes to a command is that command's encoding (R71). -/
theorem encode_of_decode_eq_ok {w : Word} {i : Instr} (h : decode w = .ok i) : encode i = w := by
  obtain ⟨hrsv, hop, hfid⟩ := fields_of_decode_eq_ok h
  rw [encode, ← hop, ← hfid, parts_of_rsvField_eq_zero hrsv]

end Sys2Proof
end

section
/-! Error entry (R172 of `60_exceptions.md`). No command writes `ERR` by its own rule, so that an error latched after
a `CMD` write was raised by it, and raising is all the write did. -/

namespace Sys2Proof.Machine

/-- A field's value goes to `VAL`, or to `AUX` and `ALEN`; the latch stays (R103 to R106 of `41_record_codec.md`). -/
@[simp] theorem deliver_err (s : State) (v : FieldValue) : (deliver s v).err = s.err := by cases v <;> rfl

/-- The rule of a command other than CLRERR leaves the latch as it was. -/
theorem err_of_performed {i : Instr} {s t : State} (h : Performed i s t) (hi : i ≠ .clrerr) : t.err = s.err := by
  cases i with
  | clrerr => exact absurd rfl hi
  | blank => obtain ⟨_, _, rfl⟩ := h; rfl
  | resolve => obtain ⟨_, _, rfl⟩ := h; rfl
  | parse => obtain ⟨_, _, _, rfl⟩ := h; rfl
  | lookup f => obtain ⟨_, _, _, _, rfl⟩ := h; rfl
  | get f => obtain ⟨_, _, _, _, rfl⟩ := h; exact deliver_err _ _
  | set f => obtain ⟨_, _, _, _, _, _, rfl⟩ := h; rfl
  | serialize => obtain ⟨_, _, rfl⟩ := h; rfl
  | check => obtain ⟨_, _, rfl⟩ := h; rfl
  | encrypt => obtain ⟨_, _, _, rfl⟩ := h; exact splice_err _ _ _ _
  | decrypt => obtain ⟨_, _, _, rfl⟩ := h; exact splice_err _ _ _ _
  | tencrypt => obtain ⟨_, _, _, rfl⟩ := h; exact splice_err _ _ _ _
  | tdecrypt => obtain ⟨_, _, _, rfl⟩ := h; exact splice_err _ _ _ _

/-- A command performed by its own rule with no error latched leaves none latched. -/
theorem err_eq_zero_of_performed {i : Instr} {s t : State} (hs : s.err = 0) (h : Performed i s t) : t.err = 0 := by
  by_cases hi : i = .clrerr
  · subst hi
    obtain rfl : t = s.clearError := h
    exact clearError_err s
  · rw [err_of_performed h hi, hs]

/-- A command that latches an error has raised it, with its own encoding as the word recorded. -/
theorem raised_of_exec {i : Instr} {s t : State} (hs : s.err = 0) (h : exec i s = .next t) (ht : t.err ≠ 0) :
    ∃ e, t = s.raise e (encode i) := by
  cases exec_eq_next h with
  | ignored latched _ _ => exact absurd hs latched
  | performed _ _ result => exact absurd (err_eq_zero_of_performed hs result) ht
  | unbound _ _ _ result => exact ⟨_, result⟩
  | raised _ _ e _ result => exact ⟨e, result⟩

/-- A word that decodes is written to `CMD` as its command is performed (R24 of `10_state.md`). -/
theorem commandWrite_of_decode_eq_ok {w : Word} {i : Instr} (h : decode w = .ok i) (s : State) :
    commandWrite w s = exec i s := by rw [commandWrite, h]

/-- A word that does not decode raises `IllegalCommand` when no error is latched (R166 of `45_system.md`). -/
theorem commandWrite_of_decode_eq_error {w : Word} {e : IllegalWord} {s : State} (h : decode w = .error e)
    (hs : s.err = 0) : commandWrite w s = .next (s.raise .illegalCommand w) := by
  rw [commandWrite, h]
  exact if_pos hs

/-- Settles O18: an illegal word raises `IllegalCommand` with itself recorded; a legal one ends in its command's
encoding recorded, which is the word written. -/
theorem errorEntryChangesNothingElse : Obligations.ErrorEntryChangesNothingElse := by
  intro w s t hs hw ht
  cases hdec : decode w with
  | ok i =>
    rw [commandWrite_of_decode_eq_ok hdec] at hw
    obtain ⟨e, rfl⟩ := raised_of_exec hs hw ht
    rw [encode_of_decode_eq_ok hdec]
    exact ⟨e, rfl⟩
  | error why =>
    rw [commandWrite_of_decode_eq_error hdec hs] at hw
    cases hw
    exact ⟨.illegalCommand, rfl⟩

end Sys2Proof.Machine
end

section
/-! Decoding inverts encoding (R70, R71 of `30_encoding.md`). -/

namespace Sys2Proof

open Sys2Proof.Laws.EncodedFields in
/-- The fields of a command's word are 0 in `rsv`, its opcode and its `fid`. -/
theorem fields_encode (i : Instr) :
    opField (encode i) = opcodeOf i ∧ rsvField (encode i) = 0 ∧ fidField (encode i) = fidOf i :=
  fields_of_parts (fidOf i) (opcodeOf i)

/-- A word with the fields of a command decodes to it. -/
theorem decode_of_fields {w : Word} {i : Instr} (hrsv : rsvField w = 0) (hop : opField w = opcodeOf i)
    (hfid : fidField w = fidOf i) : decode w = .ok i := by
  rw [decode, if_pos hrsv, hop]
  cases i with
  | lookup fid | get fid | set fid =>
    obtain rfl : fidField w = fid := hfid
    rfl
  | _ => exact if_pos hfid

@[simp] theorem decode_encode (i : Instr) : decode (encode i) = .ok i := by
  obtain ⟨hop, hrsv, hfid⟩ := fields_encode i
  exact decode_of_fields hrsv hop hfid

theorem decode_eq_ok_iff {w : Word} {i : Instr} : decode w = .ok i ↔ encode i = w :=
  ⟨encode_of_decode_eq_ok, fun h => h ▸ decode_encode i⟩

/-- Settles O1: a word that decodes is put together from its fields again, and a command's word has the command's
fields, from which the decoder reads it back. -/
theorem decodeAndEncodeAgree : Obligations.DecodeAndEncodeAgree := fun _ _ => decode_eq_ok_iff

end Sys2Proof
end

section
/-! What a command leaves as it was, and which part of the state each command can change (sections 2 and 3 of
`10_state.md`). The frame of a command's own rule is said once, from `Performed`; with the other endings of a command
it gives the frame of `exec`. -/

namespace Sys2Proof.Machine

/-! The delivery of a field's value (R103 to R106 of `41_record_codec.md`). -/

@[simp] theorem deliver_cfg (s : State) (v : FieldValue) : (deliver s v).cfg = s.cfg := by cases v <;> rfl
@[simp] theorem deliver_recBuf (s : State) (v : FieldValue) : (deliver s v).recBuf = s.recBuf := by cases v <;> rfl
@[simp] theorem deliver_bound (s : State) (v : FieldValue) : (deliver s v).bound = s.bound := by cases v <;> rfl
@[simp] theorem deliver_ckok (s : State) (v : FieldValue) : (deliver s v).ckok = s.ckok := by cases v <;> rfl
@[simp] theorem deliver_errinfo (s : State) (v : FieldValue) : (deliver s v).errinfo = s.errinfo := by cases v <;> rfl
@[simp] theorem deliver_gen (s : State) (v : FieldValue) : (deliver s v).gen = s.gen := by cases v <;> rfl
@[simp] theorem deliver_rlen (s : State) (v : FieldValue) : (deliver s v).rlen = s.rlen := by cases v <;> rfl
@[simp] theorem deliver_schsel (s : State) (v : FieldValue) : (deliver s v).schsel = s.schsel := by cases v <;> rfl
@[simp] theorem deliver_cksum (s : State) (v : FieldValue) : (deliver s v).cksum = s.cksum := by cases v <;> rfl
@[simp] theorem deliver_dsc0 (s : State) (v : FieldValue) : (deliver s v).dsc0 = s.dsc0 := by cases v <;> rfl
@[simp] theorem deliver_dsc1 (s : State) (v : FieldValue) : (deliver s v).dsc1 = s.dsc1 := by cases v <;> rfl
@[simp] theorem deliver_host (s : State) (v : FieldValue) : (deliver s v).host = s.host := by cases v <;> rfl
@[simp] theorem deliver_replies (s : State) (v : FieldValue) : (deliver s v).replies = s.replies := by cases v <;> rfl

/-! The growth of a record (R131, R140 of `43_cipher.md`). -/

theorem growth_lt (n : Nat) : growth n < 4 := Nat.mod_lt _ (by decide)

/-- A cipher command performed by its own rule replaces a region, which grows by the zero-pad; besides `REC` it can only
have written `CKSUM` before, and DECRYPT and TDECRYPT do not. -/
theorem splice_of_performed {i : Instr} {s t : State} (h : Performed i s t) (hi : isCipher i = true) :
    ∃ (m : Memory) (ck : BitVec 16) (a b : Nat) (new : List Byte),
      t = splice { s with recBuf := m, cksum := ck } a b new ∧ new.length - (b - a) = growth (b - a) ∧
        (i = .decrypt ∨ i = .tdecrypt → ck = s.cksum) := by
  cases i with
  | encrypt =>
    obtain ⟨h, -, -, rfl⟩ := h
    exact ⟨_, _, _, _, _, rfl, growth_of_shuffled _ _ _ _, by simp⟩
  | decrypt =>
    obtain ⟨h, -, -, rfl⟩ := h
    exact ⟨s.recBuf, s.cksum, _, _, _, rfl, growth_of_deciphered _ _ _ _, fun _ => rfl⟩
  | tencrypt =>
    obtain ⟨h, -, -, rfl⟩ := h
    exact ⟨s.recBuf, _, _, _, _, rfl, growth_of_shuffled _ _ _ _, by simp⟩
  | tdecrypt =>
    obtain ⟨h, -, -, rfl⟩ := h
    exact ⟨s.recBuf, s.cksum, _, _, _, rfl, growth_of_deciphered _ _ _ _, fun _ => rfl⟩
  | _ => exact absurd hi (by simp [isCipher])

/-- A number below 4 added to a length keeps it modulo 2^16 only when it is 0. -/
theorem ofNat_add_growth_eq_iff (r : BitVec 16) (n : Nat) :
    BitVec.ofNat 16 (r.toNat + growth n) = r ↔ growth n = 0 := by
  have hg := growth_lt n
  have hr := r.isLt
  constructor
  · intro h
    have hv := congrArg BitVec.toNat h
    rw [BitVec.toNat_ofNat] at hv
    omega
  · intro h
    simp [h]

/-- A cipher command performed by its own rule unbinds the record exactly when it changes `RLEN` (R140). -/
theorem bound_of_cipher {i : Instr} {s t : State} (h : Performed i s t) (hi : isCipher i = true) :
    t.bound = if t.rlen = s.rlen then s.bound else false := by
  obtain ⟨m, ck, a, b, new, rfl, hg, -⟩ := splice_of_performed h hi
  simp only [splice_bound, splice_rlen, hg, ofNat_add_growth_eq_iff]
  by_cases h0 : growth (b - a) = 0
  · simp [h0]
  · rw [if_pos (by omega), if_neg h0]

/-! The frame of a command's own rule. -/

/-- No command writes the parameters, the host's queue or its replies (R5, R39). -/
theorem interface_of_performed {i : Instr} {s t : State} (h : Performed i s t) :
    t.cfg = s.cfg ∧ t.host = s.host ∧ t.replies = s.replies := by
  cases i with
  | clrerr => obtain rfl := h; simp
  | blank => obtain ⟨_, _, rfl⟩ := h; simp
  | resolve => obtain ⟨_, _, rfl⟩ := h; simp
  | parse => obtain ⟨_, _, _, rfl⟩ := h; simp
  | lookup f => obtain ⟨_, _, _, _, rfl⟩ := h; simp
  | get f => obtain ⟨_, _, _, _, rfl⟩ := h; simp
  | set f => obtain ⟨_, _, _, _, _, _, rfl⟩ := h; simp
  | serialize => obtain ⟨_, _, rfl⟩ := h; simp
  | check => obtain ⟨_, _, rfl⟩ := h; simp
  | encrypt | decrypt | tencrypt | tdecrypt =>
    obtain ⟨_, _, _, _, _, rfl, -⟩ := splice_of_performed h rfl
    simp

/-- What a command that answers a next state changes besides `ERR` and `ERRINFO` is what its own rule changes. -/
theorem performed_or_registers_same {i : Instr} {s t : State} (h : exec i s = .next t) :
    Performed i s t ∨ t = { s with err := t.err, errinfo := t.errinfo } := by
  cases exec_eq_next h with
  | ignored _ _ same => exact .inr (same ▸ rfl)
  | performed _ _ result => exact .inl result
  | unbound _ _ _ result => exact .inr (result ▸ rfl)
  | raised _ _ _ _ result => exact .inr (result ▸ rfl)

theorem interface_of_exec {i : Instr} {s t : State} (h : exec i s = .next t) :
    t.cfg = s.cfg ∧ t.host = s.host ∧ t.replies = s.replies := by
  rcases performed_or_registers_same h with hp | heq
  · exact interface_of_performed hp
  · rw [heq]
    exact ⟨rfl, rfl, rfl⟩

/-! Which command changes which part. -/

/-- Nothing but its named writers changes each part of the state, `ERR` and `ERRINFO` apart. -/
def OnlyWriters (i : Instr) (s t : State) : Prop :=
  (t.bound ≠ s.bound →
      (t.bound = true ∧ (i = .blank ∨ i = .parse)) ∨
      (t.bound = false ∧ (i = .resolve ∨ (isCipher i = true ∧ t.rlen ≠ s.rlen)))) ∧
    (t.ckok ≠ s.ckok → i = .check) ∧
    t.gen = s.gen ∧
    (t.schsel ≠ s.schsel → i = .resolve) ∧
    (t.val ≠ s.val → i = .resolve ∨ ∃ f, i = .get f) ∧
    (t.alen ≠ s.alen ∨ t.auxBuf ≠ s.auxBuf → ∃ f, i = .get f) ∧
    (t.dsc0 ≠ s.dsc0 ∨ t.dsc1 ≠ s.dsc1 → ∃ f, i = .lookup f) ∧
    (t.cksum ≠ s.cksum → i = .serialize ∨ i = .check ∨ i = .encrypt ∨ i = .tencrypt) ∧
    (t.rlen ≠ s.rlen → i = .blank ∨ isCipher i = true) ∧
    (t.recBuf ≠ s.recBuf → i = .blank ∨ (∃ f, i = .set f) ∨ i = .serialize ∨ isCipher i = true)

/-- A cipher command writes `REC`, `RLEN` and `BOUND`, and `CKSUM` if it encrypts. -/
theorem onlyWriters_of_cipher {i : Instr} {s t : State} (h : Performed i s t) (hi : isCipher i = true) :
    OnlyWriters i s t := by
  have hbound := bound_of_cipher h hi
  obtain ⟨m, ck, a, b, new, rfl, -, hck⟩ := splice_of_performed h hi
  refine ⟨fun hne => .inr ?_, by simp, by simp, by simp, by simp, by simp, by simp, ?_, fun _ => .inr hi,
    fun _ => .inr (.inr (.inr hi))⟩
  · by_cases hr : (splice { s with recBuf := m, cksum := ck } a b new).rlen = s.rlen
    · rw [if_pos hr] at hbound
      exact absurd hbound hne
    · rw [if_neg hr] at hbound
      exact ⟨hbound, .inr ⟨hi, hr⟩⟩
  · intro hne
    cases i with
    | encrypt | tencrypt => simp
    | decrypt | tdecrypt => exact absurd (hck (by simp)) hne
    | _ => exact absurd hi (by simp [isCipher])

theorem onlyWriters_of_performed {i : Instr} {s t : State} (h : Performed i s t) : OnlyWriters i s t := by
  cases i with
  | clrerr => obtain rfl := h; simp [OnlyWriters]
  | blank => obtain ⟨_, _, rfl⟩ := h; simp [OnlyWriters]
  | resolve => obtain ⟨_, _, rfl⟩ := h; simp [OnlyWriters]
  | parse => obtain ⟨_, _, _, rfl⟩ := h; simp [OnlyWriters]
  | lookup f => obtain ⟨_, _, _, _, rfl⟩ := h; simp [OnlyWriters]
  | get f => obtain ⟨_, _, _, _, rfl⟩ := h; simp [OnlyWriters]
  | set f => obtain ⟨_, _, _, _, _, _, rfl⟩ := h; simp [OnlyWriters]
  | serialize => obtain ⟨_, _, rfl⟩ := h; simp [OnlyWriters]
  | check => obtain ⟨_, _, rfl⟩ := h; simp [OnlyWriters]
  | encrypt | decrypt | tencrypt | tdecrypt => exact onlyWriters_of_cipher h rfl

theorem onlyWriters_of_exec {i : Instr} {s t : State} (h : exec i s = .next t) : OnlyWriters i s t := by
  rcases performed_or_registers_same h with hp | heq
  · exact onlyWriters_of_performed hp
  · rw [heq]
    simp [OnlyWriters]

/-- The rule of a command other than CLRERR leaves the recorded word as it was. -/
theorem errinfo_of_performed {i : Instr} {s t : State} (h : Performed i s t) (hi : i ≠ .clrerr) :
    t.errinfo = s.errinfo := by
  cases i with
  | clrerr => exact absurd rfl hi
  | blank => obtain ⟨_, _, rfl⟩ := h; simp
  | resolve => obtain ⟨_, _, rfl⟩ := h; simp
  | parse => obtain ⟨_, _, _, rfl⟩ := h; simp
  | lookup f => obtain ⟨_, _, _, _, rfl⟩ := h; simp
  | get f => obtain ⟨_, _, _, _, rfl⟩ := h; simp
  | set f => obtain ⟨_, _, _, _, _, _, rfl⟩ := h; simp
  | serialize => obtain ⟨_, _, rfl⟩ := h; simp
  | check => obtain ⟨_, _, rfl⟩ := h; simp
  | encrypt | decrypt | tencrypt | tdecrypt =>
    obtain ⟨_, _, _, _, _, rfl, -⟩ := splice_of_performed h rfl
    simp

/-- `ERR` and `ERRINFO` are written by CLRERR, which clears both, and by error entry (R172, R174 of
`60_exceptions.md`). -/
theorem errors_of_exec {i : Instr} {s t : State} (h : exec i s = .next t)
    (hne : t.err ≠ s.err ∨ t.errinfo ≠ s.errinfo) :
    (i = .clrerr ∧ t = { s with err := 0, errinfo := 0 }) ∨
      (s.err = 0 ∧ ∃ e : ErrCode, t = { s with err := e.code, errinfo := encode i }) := by
  cases exec_eq_next h with
  | ignored _ _ same => simp [same] at hne
  | performed _ _ result =>
    by_cases hi : i = .clrerr
    · subst hi
      exact .inl ⟨rfl, result⟩
    · simp [err_of_performed result hi, errinfo_of_performed result hi] at hne
  | unbound clear _ _ result => exact .inr ⟨clear, _, result⟩
  | raised clear _ e _ result => exact .inr ⟨clear, e, result⟩

/-- Settles O23: `ERR` and `ERRINFO` by the endings of a command, every other part by its own rule. -/
theorem onlyTheseCommandsWriteEachRegister : Obligations.OnlyTheseCommandsWriteEachRegister := fun _ _ _ h =>
  ⟨errors_of_exec h, onlyWriters_of_exec h⟩

/-- Settles O22: a command that latches an error is not performed, and it is not turned away for want of a record. -/
theorem commandsRaiseOnlyTheirErrors : Obligations.CommandsRaiseOnlyTheirErrors := by
  intro i s t hs hbound h ht
  cases exec_eq_next h with
  | ignored latched _ _ => exact absurd hs latched
  | performed _ _ result => exact absurd (err_eq_zero_of_performed hs result) ht
  | unbound _ needs unbound _ => simp [hbound needs] at unbound
  | raised _ _ e own result => exact ⟨e, own, result⟩

end Sys2Proof.Machine
end

section
/-! What one host access, and so one step, can do: said once, so that claims about every step are a case for each
kind of access (R39 of `10_state.md`). -/

namespace Sys2Proof.Machine

/-- All that a word written to `CMD` can do: its command is performed, or it is illegal, and raises
`IllegalCommand` or is ignored. -/
theorem commandWrite_eq_next {w : Word} {s t : State} (h : commandWrite w s = .next t) :
    (∃ i, decode w = .ok i ∧ exec i s = .next t) ∨ (s.err = 0 ∧ t = s.raise .illegalCommand w) ∨ t = s := by
  cases hdec : decode w with
  | ok i => exact .inl ⟨i, rfl, by rwa [commandWrite_of_decode_eq_ok hdec] at h⟩
  | error e =>
    by_cases hs : s.err = 0
    · rw [commandWrite_of_decode_eq_error hdec hs] at h
      cases h
      exact .inr (.inl ⟨hs, rfl⟩)
    · simp only [commandWrite, hdec, illegalWord, if_neg hs, Host.Outcome.next.injEq] at h
      exact .inr (.inr h.symm)

/-- How a host access that is answered has ended. -/
inductive Answered (a : Access) (s t : State) : Prop where
  /-- Nothing has happened. -/
  | nothing (same : t = s)
  /-- A read has been replied to. -/
  | reply (v : Word) (result : t = { s with replies := v :: s.replies })
  /-- A word has been written to a register. -/
  | register (r : Reg) (v : Word) (access : a = scriptWr s.cfg r v) (result : writeReg s v r = .next t)
  /-- A byte of `REC` has been written. -/
  | recByte (i : Nat) (b : Byte) (inside : i < s.cfg.recMax) (result : t = memWrite s i [b])
  /-- A byte of `AUX` has been written. -/
  | auxByte (i : Nat) (b : Byte) (inside : i < s.cfg.auxMax) (result : t = auxWrite s i [b])

theorem answered_of_hostRead {a : Access} {s t : State} {p : Except Refusal Place} (h : hostRead s p = .next t) :
    Answered a s t := by
  obtain ⟨q, -, rfl⟩ := hostRead_eq_next h
  exact .reply _ rfl

/-- Everything an access that is answered can have done, and that the parameters are in order. -/
theorem perform_eq_next {a : Access} {s t : State} (h : perform a s = .next t) :
    configOk s.cfg = true ∧ Answered a s t := by
  by_cases hc : configOk s.cfg = true
  · refine ⟨hc, ?_⟩
    rw [perform_of_ok hc] at h
    cases a with
    | read32 addr | read8 addr => exact answered_of_hostRead h
    | write32 addr v =>
      rcases hostWrite32_eq_next h with ⟨r, hp, hw⟩ | rfl
      · exact .register r v (by rw [place_eq_reg hp]; rfl) hw
      · exact .nothing rfl
    | write8 addr v =>
      rcases hostWrite8_eq_next h with ⟨i, hp, rfl⟩ | ⟨i, hp, rfl⟩ | rfl
      · exact .recByte i v (place_inside hp) rfl
      · exact .auxByte i v (place_inside hp) rfl
      · exact .nothing rfl
  · rw [perform_of_not_ok (by simpa using hc)] at h
    exact nomatch h

/-- All that a step can do: nothing, or the host's next access, which then stands no longer in the queue. -/
theorem step_eq_next {s t : State} (h : step s = .next t) :
    (s.host = [] ∧ t = s) ∨
      ∃ a rest, s.host = a :: rest ∧ configOk s.cfg = true ∧ Answered a { s with host := rest } t := by
  cases hq : s.host with
  | nil =>
    rw [step_idle hq] at h
    cases h
    exact .inl ⟨rfl, rfl⟩
  | cons a rest =>
    rw [step_access hq] at h
    exact .inr ⟨a, rest, rfl, perform_eq_next h⟩

/-! The frame of an access and of a step. -/

/-- No access changes the parameters or the accesses the host is still to make. -/
theorem cfg_host_of_answered {a : Access} {s t : State} (h : Answered a s t) : t.cfg = s.cfg ∧ t.host = s.host := by
  cases h with
  | nothing same => simp [same]
  | reply v result => simp [result]
  | recByte i b _ result => simp [result]
  | auxByte i b _ result => simp [result]
  | register r v _ result =>
    cases r with
    | cmd =>
      rcases commandWrite_eq_next result with ⟨i, -, hi⟩ | ⟨-, rfl⟩ | rfl
      · obtain ⟨hcfg, hhost, -⟩ := interface_of_exec hi
        exact ⟨hcfg, hhost⟩
      · simp
      · simp
    | _ => cases result; simp

/-- Settles O8: an idle step changes nothing; any other makes the first access and leaves the rest. -/
theorem stepKeepsParametersAndMakesOneAccess : Obligations.StepKeepsParametersAndMakesOneAccess := by
  refine ⟨fun s t h => ?_, fun _ _ _ h => interface_of_exec h⟩
  rcases step_eq_next h with ⟨hq, rfl⟩ | ⟨a, rest, hq, -, ha⟩
  · simp [hq]
  · simpa [hq] using cfg_host_of_answered ha

end Sys2Proof.Machine
end

section
/-! `BOUND` (R25, R37 of `10_state.md`): what sets it and what clears it. -/

namespace Sys2Proof.Machine

theorem bound_set_of_exec {i : Instr} {s t : State} (h : exec i s = .next t) (hs : s.bound = false)
    (ht : t.bound = true) : i = .blank ∨ i = .parse := by
  obtain ⟨hbound, -⟩ := onlyWriters_of_exec h
  rcases hbound (by simp [hs, ht]) with ⟨-, hi⟩ | ⟨hf, -⟩
  · exact hi
  · simp [ht] at hf

theorem bound_lost_of_exec {i : Instr} {s t : State} (h : exec i s = .next t) (hs : s.bound = true)
    (ht : t.bound = false) : i = .resolve ∨ (isCipher i = true ∧ t.rlen ≠ s.rlen) := by
  obtain ⟨hbound, -⟩ := onlyWriters_of_exec h
  rcases hbound (by simp [hs, ht]) with ⟨hf, -⟩ | ⟨-, hi⟩
  · simp [ht] at hf
  · exact hi

/-- Every way a command other than BLANK has of changing `RLEN` or `SCHSEL` clears `BOUND`: RESOLVE writes `SCHSEL`, and
a cipher command writes `RLEN`. -/
theorem unbound_of_length_or_schema_changed {i : Instr} {s t : State} (h : exec i s = .next t) (hi : i ≠ .blank)
    (hne : t.rlen ≠ s.rlen ∨ t.schsel ≠ s.schsel) : t.bound = false := by
  obtain ⟨-, -, -, hschsel, -, -, -, -, hrlen, -⟩ := onlyWriters_of_exec h
  rcases performed_or_registers_same h with hp | heq
  · rcases hne with hr | hs
    · have hc : isCipher i = true := (hrlen hr).resolve_left hi
      rw [bound_of_cipher hp hc, if_neg hr]
    · obtain rfl := hschsel hs
      obtain ⟨_, _, rfl⟩ := hp
      rfl
  · rw [heq] at hne
    simp at hne

/-- A host access that changes `BOUND` writes `RLEN`, `SCHSEL` or `CMD`, and in the last case its command does. -/
theorem bound_changed_of_answered {a : Access} {s t : State} (h : Answered a s t) (hne : t.bound ≠ s.bound) :
    ∃ (r : Reg) (v : Word), a = scriptWr s.cfg r v ∧
      ((t.bound = false ∧ (r = .rlen ∨ r = .schsel)) ∨ (r = .cmd ∧ ∃ i, decode v = .ok i ∧ exec i s = .next t)) := by
  cases h with
  | nothing same => simp [same] at hne
  | reply v result => simp [result] at hne
  | recByte i b _ result => simp [result] at hne
  | auxByte i b _ result => simp [result] at hne
  | register r v access result =>
    refine ⟨r, v, access, ?_⟩
    cases r with
    | cmd =>
      rcases commandWrite_eq_next result with hi | ⟨-, rfl⟩ | rfl
      · exact .inr ⟨rfl, hi⟩
      · simp at hne
      · simp at hne
    | rlen | schsel => cases result; simp
    | _ => cases result; simp at hne

/-- Settles O24: a step changes `BOUND` only by the host's access, and a command only as its own rule does. -/
theorem boundIsSetAndLostOnlyAsStated : Obligations.BoundIsSetAndLostOnlyAsStated := by
  refine ⟨fun i s t h => ⟨bound_set_of_exec h, bound_lost_of_exec h, unbound_of_length_or_schema_changed h⟩, ?_⟩
  intro s t h hne
  rcases step_eq_next h with ⟨-, rfl⟩ | ⟨a, rest, hq, -, ha⟩
  · exact absurd rfl hne
  · obtain ⟨r, v, rfl, hr⟩ := bound_changed_of_answered ha hne.symm
    refine ⟨r, v, rest, hq, ?_⟩
    rcases hr with ⟨hf, hr⟩ | ⟨rfl, i, hdec, hi⟩
    · simp only [hf, Bool.false_eq_true, if_false]
      exact hr.imp_right .inl
    · by_cases ht : t.bound = true
      · rw [if_pos ht]
        refine ⟨rfl, ?_⟩
        rcases bound_set_of_exec hi (by simpa [ht] using hne) ht with rfl | rfl
        · exact .inl hdec
        · exact .inr hdec
      · rw [if_neg ht]
        have hf : t.bound = false := by simpa using ht
        have hlost := bound_lost_of_exec hi (by simpa [hf] using hne) hf
        exact .inr (.inr ⟨rfl, i, hdec, hlost⟩)

end Sys2Proof.Machine
end

section
/-! The invariant (section 4 of `10_state.md`): each shared update keeps it, and so do every command, every access
and every step. -/

namespace Sys2Proof.Machine

/-- The invariant looks at the parameters, the buffers, `ERR`, `ERRINFO`, `BOUND` and, through the meaning of `BOUND`,
`RLEN` and `SCHSEL`; the other fields are free. -/
theorem inv_of_free_fields {s : State} (h : Inv s) (ckok : Bool) (gen : BitVec 8) (val : Word) (alen cksum : BitVec 16)
    (dsc0 dsc1 : Word) (host : List Access) (replies : List Word) :
    Inv { s with ckok := ckok, gen := gen, val := val, alen := alen, cksum := cksum, dsc0 := dsc0, dsc1 := dsc1
                 host := host, replies := replies } :=
  ⟨h.isInstance, h.recCanonical, h.auxCanonical, h.recWithin, h.auxWithin, h.boundMeaning, h.errCode, h.errinfoClear⟩

/-- Without a bound record, `RLEN`, `SCHSEL` and `VAL` are free too. -/
theorem inv_of_unbound {s : State} (h : Inv s) (rlen schsel : BitVec 16) (val : Word) :
    Inv { s with rlen := rlen, schsel := schsel, val := val, bound := false } :=
  ⟨h.isInstance, h.recCanonical, h.auxCanonical, h.recWithin, h.auxWithin, by simp, h.errCode, h.errinfoClear⟩

theorem inv_memWrite {s : State} (h : Inv s) {a : Nat} {bs : List Byte} (hfit : a + bs.length ≤ s.cfg.recMax) :
    Inv (memWrite s a bs) :=
  ⟨h.isInstance, wf_writeBytes _ _ _ h.recCanonical, h.auxCanonical, within_writeBytes _ _ _ _ hfit h.recWithin,
    h.auxWithin, h.boundMeaning, h.errCode, h.errinfoClear⟩

theorem inv_auxWrite {s : State} (h : Inv s) {a : Nat} {bs : List Byte} (hfit : a + bs.length ≤ s.cfg.auxMax) :
    Inv (auxWrite s a bs) :=
  ⟨h.isInstance, h.recCanonical, wf_writeBytes _ _ _ h.auxCanonical, h.recWithin,
    within_writeBytes _ _ _ _ hfit h.auxWithin, h.boundMeaning, h.errCode, h.errinfoClear⟩

/-- A record whose length is the size of the selected, well-formed schema may be bound (R37). -/
theorem inv_bind {s : State} {h : Header} (hinv : Inv s) (hsel : selSchema s = .ok h) {rlen : BitVec 16}
    (hlen : rlen.toNat = h.size) : Inv { s with rlen := rlen, bound := true } := by
  obtain ⟨hat, hok⟩ := selSchema_eq_ok.mp hsel
  refine ⟨hinv.isInstance, hinv.recCanonical, hinv.auxCanonical, hinv.recWithin, hinv.auxWithin, fun _ => ?_,
    hinv.errCode, hinv.errinfoClear⟩
  exact Option.isSome_iff_exists.mpr ⟨h, boundHeader_eq_some.mpr ⟨hat, hok, hlen⟩⟩

theorem inv_raise {s : State} (h : Inv s) {e : ErrCode} (he : errPossible e.code = true) (w : Word) :
    Inv (s.raise e w) :=
  ⟨h.isInstance, h.recCanonical, h.auxCanonical, h.recWithin, h.auxWithin, h.boundMeaning, he,
    fun h0 => absurd h0 (code_ne_zero e)⟩

theorem inv_clearError {s : State} (h : Inv s) : Inv s.clearError :=
  ⟨h.isInstance, h.recCanonical, h.auxCanonical, h.recWithin, h.auxWithin, h.boundMeaning, rfl, fun _ => rfl⟩

/-- A replaced region keeps the invariant when the record still fits `REC`: where it grows the record is unbound, and
where it does not `RLEN` stays (R140 of `43_cipher.md`). -/
theorem inv_splice {s : State} (h : Inv s) {a b : Nat} {new : List Byte} (hab : a ≤ b) (hb : b ≤ s.rlen.toNat)
    (hnew : b - a ≤ new.length) (hfit : s.rlen.toNat + (new.length - (b - a)) ≤ s.cfg.recMax) :
    Inv (splice s a b new) := by
  have hnewfit : a + new.length ≤ s.cfg.recMax := by omega
  have hrestfit : a + new.length + (memRead s b (s.rlen.toNat - b)).length ≤ s.cfg.recMax := by
    rw [length_memRead]
    omega
  refine ⟨h.isInstance, wf_writeBytes _ _ _ (wf_writeBytes _ _ _ h.recCanonical), h.auxCanonical,
    within_writeBytes _ _ _ _ hrestfit (within_writeBytes _ _ _ _ hnewfit h.recWithin), h.auxWithin, fun hbound => ?_,
    h.errCode, h.errinfoClear⟩
  by_cases hg : 0 < new.length - (b - a)
  · simp [hg] at hbound
  · obtain ⟨hrlen, hsame, -⟩ := splice_same_length s a b new hab (by omega)
    have hheader : boundHeader (splice s a b new) = boundHeader s := boundHeader_congr rfl rfl hrlen
    rw [hheader]
    exact h.boundMeaning (hsame ▸ hbound)

/-! The errors a command can raise. -/

/-- `UnmappableCharacter` is raised by no command, and every other code is possible (R171, R181). -/
theorem errPossible_of_mem_errorsOf {i : Instr} {e : ErrCode} (h : e ∈ errorsOf i) : errPossible e.code = true := by
  cases e with
  | unmappableCharacter => cases i <;> simp [errorsOf] at h
  | _ => decide

/-! The two buffers have room for what a command writes. -/

theorem recMax_ge_of_configOk {c : Config} (hc : configOk c = true) : 136 ≤ c.recMax := by
  simp only [configOk, Bool.and_eq_true, decide_eq_true_eq] at hc
  omega

theorem recMax_lt_of_configOk {c : Config} (hc : configOk c = true) : c.recMax < 2 ^ 16 := by
  simp only [configOk, Bool.and_eq_true, decide_eq_true_eq] at hc
  omega

theorem hdrOk_of_selSchema {s : State} {h : Header} (hsel : selSchema s = .ok h) : hdrOk s.cfg.recMax h = true := by
  obtain ⟨-, hok⟩ := selSchema_eq_ok.mp hsel
  exact hok

/-- The delivery of a field's value keeps the invariant: a block of bytes fits `AUX` (R79, R105, R106). -/
theorem inv_deliver {s : State} (h : Inv s) {d : Desc} (hok : descOk s.cfg.auxMax d = true) :
    Inv (deliver s (readField s d)) := by
  cases hv : readField s d with
  | number v => exact inv_of_free_fields h _ _ _ _ _ _ _ _ _
  | block bs =>
    have hfit : 0 + bs.length ≤ s.cfg.auxMax := by simpa using readField_block_le hok hv
    exact inv_of_free_fields (inv_auxWrite h hfit) _ _ _ _ _ _ _ _ _

/-- The rule of every command keeps the invariant. -/
theorem inv_of_performed {i : Instr} {s t : State} (hinv : Inv s) (h : Performed i s t) : Inv t := by
  have hmin := recMax_ge_of_configOk hinv.isInstance
  have hmax := recMax_lt_of_configOk hinv.isInstance
  cases i with
  | clrerr =>
    obtain rfl := h
    exact inv_clearError hinv
  | blank =>
    obtain ⟨hd, hsel, rfl⟩ := h
    obtain ⟨-, -, -, -, -, hsize⟩ := hdrOk_iff.mp (hdrOk_of_selSchema hsel)
    have hzero : Inv (memWrite s 0 (zeros hd.size)) := inv_memWrite hinv (by simpa using hsize)
    refine inv_bind (s := memWrite s 0 (zeros hd.size)) hzero hsel ?_
    rw [BitVec.toNat_ofNat, Nat.mod_eq_of_lt (by omega)]
  | resolve =>
    obtain ⟨k, -, rfl⟩ := h
    exact inv_of_unbound hinv _ _ _
  | parse =>
    obtain ⟨hd, hsel, hlen, rfl⟩ := h
    exact inv_bind hinv hsel hlen
  | lookup f =>
    obtain ⟨hd, d, -, -, rfl⟩ := h
    exact inv_of_free_fields hinv _ _ _ _ _ _ _ _ _
  | get f =>
    obtain ⟨hd, d, -, hdesc, rfl⟩ := h
    obtain ⟨-, hok, -⟩ := fieldDesc_eq_ok.mp hdesc
    exact inv_deliver hinv hok
  | set f =>
    obtain ⟨hd, d, bs, hhd, hdesc, hbs, rfl⟩ := h
    obtain ⟨-, -, hin⟩ := fieldDesc_eq_ok.mp hdesc
    obtain ⟨-, -, -, hfit⟩ := boundHeader_regions hhd
    exact inv_memWrite hinv (by rw [length_fieldBytes hbs]; omega)
  | serialize =>
    obtain ⟨hd, -, rfl⟩ := h
    have hsum : Inv (memWrite s 6 (leBytes 2 (payloadSum s hd).toNat)) := inv_memWrite hinv (by simp; omega)
    exact inv_of_free_fields hsum _ _ _ _ _ _ _ _ _
  | check =>
    obtain ⟨hd, -, rfl⟩ := h
    exact inv_of_free_fields hinv _ _ _ _ _ _ _ _ _
  | encrypt =>
    obtain ⟨hd, hhd, hfit, rfl⟩ := h
    obtain ⟨h1, h2, h3, -⟩ := boundHeader_regions hhd
    have hgrow := growth_of_shuffled s 8 hd.payEnd ((sum16 (shuffledRegion s 8 hd.payEnd)).setWidth 32)
    have hhead : Inv (memWrite (memWrite s 4 (zeros 2)) 6 (leBytes 2 (sum16 (shuffledRegion s 8 hd.payEnd)).toNat)) :=
      inv_memWrite (inv_memWrite hinv (by simp; omega)) (by simp; omega)
    refine inv_splice (inv_of_free_fields hhead _ _ _ _ _ _ _ _ _) h1 (by simp; omega) ?_ (by rw [hgrow]; exact hfit)
    rw [length_lcgXor, length_shuffledRegion]
    omega
  | decrypt =>
    obtain ⟨hd, hhd, hfit, rfl⟩ := h
    obtain ⟨h1, h2, h3, -⟩ := boundHeader_regions hhd
    have hgrow := growth_of_deciphered s 8 hd.payEnd ((storedChecksum s).setWidth 32)
    refine inv_splice hinv h1 (by omega) ?_ (by omega)
    rw [length_decipheredRegion]
    omega
  | tencrypt =>
    obtain ⟨hd, hhd, hfit, rfl⟩ := h
    obtain ⟨h1, h2, h3, -⟩ := boundHeader_regions hhd
    have hgrow := growth_of_shuffled s hd.payEnd hd.tailEnd (personality s)
    refine inv_splice (inv_of_free_fields hinv _ _ _ _ _ _ _ _ _) h2 (by simp; omega) ?_ (by rw [hgrow]; exact hfit)
    rw [length_lcgXor, length_shuffledRegion]
    omega
  | tdecrypt =>
    obtain ⟨hd, hhd, hfit, rfl⟩ := h
    obtain ⟨h1, h2, h3, -⟩ := boundHeader_regions hhd
    have hgrow := growth_of_deciphered s hd.payEnd hd.tailEnd (personality s)
    refine inv_splice hinv h2 h3 ?_ (by omega)
    rw [length_decipheredRegion]
    omega

theorem inv_of_exec {i : Instr} {s t : State} (hinv : Inv s) (h : exec i s = .next t) : Inv t := by
  cases exec_eq_next h with
  | ignored _ _ same => exact same ▸ hinv
  | performed _ _ result => exact inv_of_performed hinv result
  | unbound _ _ _ result => exact result ▸ inv_raise hinv (by decide) _
  | raised _ _ e own result => exact result ▸ inv_raise hinv (errPossible_of_mem_errorsOf own) _

theorem inv_of_writeReg {s t : State} {v : Word} {r : Reg} (hinv : Inv s) (h : writeReg s v r = .next t) : Inv t := by
  cases r with
  | cmd =>
    rcases commandWrite_eq_next h with ⟨i, -, hi⟩ | ⟨-, rfl⟩ | rfl
    · exact inv_of_exec hinv hi
    · exact inv_raise hinv (by decide) _
    · exact hinv
  | gen | val | alen =>
    cases h
    exact inv_of_free_fields hinv _ _ _ _ _ _ _ _ _
  | rlen | schsel =>
    cases h
    exact inv_of_unbound hinv _ _ _
  | status | errinfo | cksum | dsc0 | dsc1 =>
    cases h
    exact hinv

theorem inv_of_answered {a : Access} {s t : State} (hinv : Inv s) (h : Answered a s t) : Inv t := by
  cases h with
  | nothing same => exact same ▸ hinv
  | reply v result => exact result ▸ inv_of_free_fields hinv _ _ _ _ _ _ _ _ _
  | register r v _ result => exact inv_of_writeReg hinv result
  | recByte i b inside result => exact result ▸ inv_memWrite hinv inside
  | auxByte i b inside result => exact result ▸ inv_auxWrite hinv inside

/-- Settles O6: an idle step changes nothing, and any other is one access from a state that still has the invariant,
the queue being free in it. -/
theorem stepKeepsInvariant : Obligations.StepKeepsInvariant := by
  intro s t hinv h
  rcases step_eq_next h with ⟨-, rfl⟩ | ⟨a, rest, -, -, ha⟩
  · exact hinv
  · exact inv_of_answered (inv_of_free_fields hinv _ _ _ _ _ _ _ _ _) ha

end Sys2Proof.Machine
end

section
/-! The order of the checks a command is subject to (R173, R175 of `60_exceptions.md`): the shape of every command
is said once, and with it when a command is ignored, turned away or faults. -/

namespace Sys2Proof.Machine

/-- A command is CLRERR, or its rule is performed without a bound record, or on one (R71, R175). -/
theorem exec_shape (i : Instr) (s : State) :
    i = .clrerr ∨ (needsBound i = false ∧ ∃ rule, exec i s = performFree i rule s) ∨
      (needsBound i = true ∧ ∃ rule, exec i s = performBound i rule s) := by
  cases i with
  | clrerr => exact .inl rfl
  | blank | resolve | parse | lookup => exact .inr (.inl ⟨rfl, _, rfl⟩)
  | get | set | serialize | check | encrypt | decrypt | tencrypt | tdecrypt => exact .inr (.inr ⟨rfl, _, rfl⟩)

/-- While an error is latched a command other than CLRERR is ignored (R173). -/
theorem exec_of_latched {i : Instr} {s : State} (hs : s.err ≠ 0) (hi : i ≠ .clrerr) : exec i s = .next s := by
  rcases exec_shape i s with rfl | ⟨-, rule, hrule⟩ | ⟨-, rule, hrule⟩
  · exact absurd rfl hi
  · rw [hrule, performFree, if_neg hs]
  · rw [hrule, performBound, if_neg hs]

/-- A command that needs a bound record is turned away without one (R166 of `45_system.md`). -/
theorem exec_of_unbound {i : Instr} {s : State} (hs : s.err = 0) (hi : needsBound i = true) (hb : s.bound = false) :
    exec i s = .next (s.raise .illegalCommand (encode i)) := by
  rcases exec_shape i s with rfl | ⟨hn, -⟩ | ⟨-, rule, hrule⟩
  · simp [needsBound] at hi
  · simp [hi] at hn
  · simp [hrule, performBound, hs, hb, conclude]

theorem exec_ne_refused (i : Instr) (s : State) (r : Refusal) : exec i s ≠ .refused r := by
  rcases exec_shape i s with rfl | ⟨-, rule, hrule⟩ | ⟨-, rule, hrule⟩
  · simp [exec, execClrerr]
  · obtain ⟨t, ht⟩ := performFree_completes i s rule
    simp [hrule, ht]
  · rw [hrule]
    exact performBound_ne_refused i s rule r

/-- A command faults exactly where `BOUND = 1` is needed and not true to its meaning (log 5). -/
theorem exists_exec_eq_fault (i : Instr) (s : State) :
    (∃ f, exec i s = .fault f) ↔ needsBound i = true ∧ s.err = 0 ∧ s.bound = true ∧ boundHeader s = none := by
  rcases exec_shape i s with rfl | ⟨hn, rule, hrule⟩ | ⟨hn, rule, hrule⟩
  · simp [exec, execClrerr, needsBound]
  · obtain ⟨t, ht⟩ := performFree_completes i s rule
    simp [hrule, ht, hn]
  · rw [hrule]
    constructor
    · rintro ⟨f, hf⟩
      exact ⟨hn, performBound_eq_fault hf⟩
    · rintro ⟨-, herr, hb, hnone⟩
      exact ⟨.boundBroken, by simp [performBound, herr, hb, hnone]⟩

/-- From a state of the invariant every command answers a next state. -/
theorem exec_completes {s : State} (hinv : Inv s) (i : Instr) : ∃ t, exec i s = .next t := by
  cases hex : exec i s with
  | next t => exact ⟨t, rfl⟩
  | fault f =>
    obtain ⟨-, -, hb, hnone⟩ := (exists_exec_eq_fault i s).mp ⟨f, hex⟩
    have hsome := hinv.boundMeaning hb
    simp [hnone] at hsome
  | refused r => exact absurd hex (exec_ne_refused i s r)

/-! The word written to `CMD`. -/

/-- CLRERR has the one word 0x00000001 (R165). -/
theorem eq_clrerr_iff {w : Word} {i : Instr} (h : decode w = .ok i) : i = .clrerr ↔ w = 1 := by
  constructor
  · rintro rfl
    exact (encode_of_decode_eq_ok h).symm
  · rintro rfl
    exact (Except.ok.inj ((decode_encode .clrerr).symm.trans h)).symm

theorem commandWrite_clrerr (s : State) : commandWrite 1 s = .next { s with err := 0, errinfo := 0 } :=
  commandWrite_of_decode_eq_ok (decode_encode .clrerr) s

theorem commandWrite_of_not_decoded {w : Word} {e : IllegalWord} (h : decode w = .error e) (s : State) :
    commandWrite w s = illegalWord w s := by rw [commandWrite, h]

theorem commandWrite_of_latched {w : Word} {s : State} (hs : s.err ≠ 0) (hw : w ≠ 1) : commandWrite w s = .next s := by
  cases hdec : decode w with
  | ok i =>
    rw [commandWrite_of_decode_eq_ok hdec]
    exact exec_of_latched hs fun hi => hw ((eq_clrerr_iff hdec).mp hi)
  | error e => rw [commandWrite_of_not_decoded hdec, illegalWord, if_neg hs]

/-- Settles O19: an illegal word is ignored, and a legal one other than 1 is a command other than CLRERR. -/
theorem latchIgnoresOtherCommands : Obligations.LatchIgnoresOtherCommands := fun _ _ => commandWrite_of_latched

/-- A word with the opcode of CLRERR that is not CLRERR's is not legal (R72). -/
theorem decode_eq_error_of_inexact_clrerr {w : Word} (hop : opField w = 1) (hw : w ≠ 1) :
    ∃ e, decode w = .error e := by
  cases hdec : decode w with
  | ok i =>
    obtain ⟨-, hopi, -⟩ := fields_of_decode_eq_ok hdec
    have hi : i = .clrerr := by
      rw [hop] at hopi
      cases i with
      | clrerr => rfl
      | _ => simp [opcodeOf] at hopi
    exact absurd ((eq_clrerr_iff hdec).mp hi) hw
  | error e => exact ⟨e, rfl⟩

/-- Settles O20: CLRERR is the error return, and its opcode with any other bit set is an illegal word. -/
theorem clrerrClearsTheLatch : Obligations.ClrerrClearsTheLatch := by
  refine ⟨fun s => ⟨rfl, commandWrite_clrerr s⟩, ?_, ?_⟩
  · rintro ⟨⟩ rfl rfl
    rfl
  · intro w s hop hw
    obtain ⟨e, he⟩ := decode_eq_error_of_inexact_clrerr hop hw
    rw [commandWrite_of_not_decoded he, illegalWord]
    split <;> rfl

/-- The commands that need a bound record are those from opcode 6 on (R71). -/
theorem needsBound_iff (i : Instr) : needsBound i = true ↔ 6 ≤ (opcodeOf i).toNat := by
  cases i <;> simp [needsBound, opcodeOf]

/-- Settles O21: each check in turn, on a word that passed the ones before it. -/
theorem commandWriteChecksInOrder : Obligations.CommandWriteChecksInOrder := by
  intro w s
  by_cases hs : s.err = 0
  · rw [if_neg (not_not.mpr hs)]
    cases hdec : decode w with
    | error e =>
      have hillegal : legalWord w = false := by
        rw [← Bool.not_eq_true, ← exists_decode_eq_ok_iff_legalWord]
        simp [hdec]
      rw [if_pos hillegal, commandWrite_of_decode_eq_error hdec hs]
    | ok i =>
      have hlegal : legalWord w = true := (exists_decode_eq_ok_iff_legalWord w).mp ⟨i, hdec⟩
      obtain ⟨-, hop, -⟩ := fields_of_decode_eq_ok hdec
      have hneeds : 6 ≤ (w.extractLsb' 0 8).toNat ↔ needsBound i = true := by
        rw [needsBound_iff, ← hop]
        rfl
      rw [if_neg (by simp [hlegal]), commandWrite_of_decode_eq_ok hdec]
      split
      · rename_i hb
        rw [exec_of_unbound hs (hneeds.mp hb.1) hb.2, encode_of_decode_eq_ok hdec]
      · rfl
  · rw [if_pos hs]
    by_cases hw : w = 1
    · rw [if_pos hw, hw, commandWrite_clrerr]
    · rw [if_neg hw, commandWrite_of_latched hs hw]

end Sys2Proof.Machine
end

section
/-! Which accesses are answered (R56 of `20_memory.md`): an access is refused exactly where its address is no place
of its width, and from a state of the invariant it is answered at every other. -/

namespace Sys2Proof.Machine

/-! What is made of a place, by each kind of access. -/

theorem hostRead_completes (s : State) (q : Place) : ∃ t, hostRead s (.ok q) = .next t := ⟨_, rfl⟩

theorem hostWrite8_completes (s : State) (b : Byte) (q : Place) : ∃ t, hostWrite8 s b (.ok q) = .next t := by
  cases q <;> exact ⟨_, rfl⟩

theorem commandWrite_ne_refused (w : Word) (s : State) (r : Refusal) : commandWrite w s ≠ .refused r := by
  cases hdec : decode w with
  | ok i =>
    rw [commandWrite_of_decode_eq_ok hdec]
    exact exec_ne_refused i s r
  | error e =>
    rw [commandWrite_of_not_decoded hdec, illegalWord]
    split <;> simp

theorem hostWrite32_ne_refused (s : State) (v : Word) (q : Place) (r : Refusal) :
    hostWrite32 s v (.ok q) ≠ .refused r := by
  cases q with
  | reg g =>
    cases g with
    | cmd => exact commandWrite_ne_refused v s r
    | _ => simp [hostWrite32, writeReg]
  | _ => simp [hostWrite32]

theorem commandWrite_completes {s : State} (hinv : Inv s) (w : Word) : ∃ t, commandWrite w s = .next t := by
  cases hdec : decode w with
  | ok i =>
    rw [commandWrite_of_decode_eq_ok hdec]
    exact exec_completes hinv i
  | error e =>
    rw [commandWrite_of_not_decoded hdec, illegalWord]
    split <;> exact ⟨_, rfl⟩

theorem hostWrite32_completes {s : State} (hinv : Inv s) (v : Word) (q : Place) :
    ∃ t, hostWrite32 s v (.ok q) = .next t := by
  cases q with
  | reg g =>
    cases g with
    | cmd => exact commandWrite_completes hinv v
    | _ => exact ⟨_, rfl⟩
  | _ => exact ⟨_, rfl⟩

/-! What that says of an access to any address. -/

/-- An access that refuses no place is refused exactly where there is none. -/
theorem refused_iff_no_place {f : Except Refusal Place → Result} (herr : ∀ r, f (.error r) = .refused r)
    (hok : ∀ q r, f (.ok q) ≠ .refused r) (p : Except Refusal Place) :
    (∃ r, f p = .refused r) ↔ ¬∃ q, p = .ok q := by
  cases p with
  | error r => simp [herr]
  | ok q => simp [hok]

/-- An access that is answered at every place is answered exactly where there is one, and never faults. -/
theorem next_iff_place {f : Except Refusal Place → Result} (herr : ∀ r, f (.error r) = .refused r)
    (hok : ∀ q, ∃ t, f (.ok q) = .next t) (p : Except Refusal Place) :
    ((∃ t, f p = .next t) ↔ ∃ q, p = .ok q) ∧ ∀ flt, f p ≠ .fault flt := by
  cases p with
  | error r => simp [herr]
  | ok q =>
    obtain ⟨t, ht⟩ := hok q
    simp [ht]

theorem ne_refused_of_completes {f : Except Refusal Place → Result} (hok : ∀ q, ∃ t, f (.ok q) = .next t) (q : Place)
    (r : Refusal) : f (.ok q) ≠ .refused r := by
  obtain ⟨t, ht⟩ := hok q
  simp [ht]

/-- Settles O17: each access is refused or answered as its place is there or not, and a place of a width is there
exactly at the addresses where the width is legal. -/
theorem onlyLegalReadsAreAnswered : Obligations.OnlyLegalReadsAreAnswered := by
  intro s addr hc
  have hread (p) := next_iff_place (f := hostRead s) (fun _ => rfl) (hostRead_completes s) p
  have hreadRef (p) := refused_iff_no_place (f := hostRead s) (fun _ => rfl)
    (ne_refused_of_completes (hostRead_completes s)) p
  simp only [perform_of_ok hc, ← exists_place_wide hc, ← exists_place_byte hc]
  exact ⟨(hread _).1, hreadRef _, (hread _).1, hreadRef _,
    fun v => refused_iff_no_place (f := hostWrite32 s v) (fun _ => rfl) (hostWrite32_ne_refused s v) _,
    fun hinv v => (next_iff_place (f := hostWrite32 s v) (fun _ => rfl) (hostWrite32_completes hinv v) _).1,
    fun b => refused_iff_no_place (f := hostWrite8 s b) (fun _ => rfl)
      (ne_refused_of_completes (hostWrite8_completes s b)) _,
    fun b => (next_iff_place (f := hostWrite8 s b) (fun _ => rfl) (hostWrite8_completes s b) _).1⟩

/-- No access faults from a state of the invariant. -/
theorem perform_ne_fault {s : State} (hinv : Inv s) (a : Access) (f : Fault) : perform a s ≠ .fault f := by
  rw [perform_of_ok hinv.isInstance]
  cases a with
  | read32 addr | read8 addr => exact (next_iff_place (f := hostRead s) (fun _ => rfl) (hostRead_completes s) _).2 f
  | write32 addr v =>
    exact (next_iff_place (f := hostWrite32 s v) (fun _ => rfl) (hostWrite32_completes hinv v) _).2 f
  | write8 addr b =>
    exact (next_iff_place (f := hostWrite8 s b) (fun _ => rfl) (hostWrite8_completes s b) _).2 f

theorem step_ne_fault {s : State} (hinv : Inv s) (f : Fault) : step s ≠ .fault f := by
  cases hq : s.host with
  | nil => simp [step_idle hq]
  | cons a rest =>
    rw [step_access hq]
    exact perform_ne_fault (inv_of_free_fields hinv _ _ _ _ _ _ _ rest _) a f

/-- Settles O7: the one fault needs `BOUND = 1` without its meaning, which the invariant excludes. -/
theorem invariantStatesNeverFault : Obligations.InvariantStatesNeverFault := by
  refine ⟨fun i s => ⟨exec_ne_refused i s, exists_exec_eq_fault i s⟩, fun s hinv => ⟨step_ne_fault hinv, ?_⟩⟩
  intro i f
  obtain ⟨t, ht⟩ := exec_completes hinv i
  simp [ht]

end Sys2Proof.Machine
end

section
/-! The host's accesses, place by place (R24 to R33, R39, R40 of `10_state.md`). -/

namespace Sys2Proof.Machine

/-! One step on each kind of access that reaches a place. -/

@[simp] theorem readPlace_host (s : State) (rest : List Access) (q : Place) :
    readPlace { s with host := rest } q = readPlace s q := by
  cases q with
  | reg r => cases r <;> rfl
  | _ => rfl

theorem step_first (s : State) (a : Access) (rest : List Access) :
    step { s with host := a :: rest } = perform a { s with host := rest } := rfl

theorem step_read32 {s : State} (hc : configOk s.cfg = true) {addr : Nat} {q : Place}
    (hq : place s.cfg true addr = .ok q) (rest : List Access) :
    step { s with host := .read32 addr :: rest } =
      .next { s with host := rest, replies := readPlace s q :: s.replies } := by
  have hperform : perform (.read32 addr) { s with host := rest } =
      hostRead { s with host := rest } (place s.cfg true addr) := perform_of_ok hc
  rw [step_first, hperform, hq, hostRead, readPlace_host]

theorem step_read8 {s : State} (hc : configOk s.cfg = true) {addr : Nat} {q : Place}
    (hq : place s.cfg false addr = .ok q) (rest : List Access) :
    step { s with host := .read8 addr :: rest } =
      .next { s with host := rest, replies := readPlace s q :: s.replies } := by
  have hperform : perform (.read8 addr) { s with host := rest } =
      hostRead { s with host := rest } (place s.cfg false addr) := perform_of_ok hc
  rw [step_first, hperform, hq, hostRead, readPlace_host]

theorem step_write32 {s : State} (hc : configOk s.cfg = true) {addr : Nat} {q : Place}
    (hq : place s.cfg true addr = .ok q) (v : Word) (rest : List Access) :
    step { s with host := .write32 addr v :: rest } = hostWrite32 { s with host := rest } v (.ok q) := by
  have hperform : perform (.write32 addr v) { s with host := rest } =
      hostWrite32 { s with host := rest } v (place s.cfg true addr) := perform_of_ok hc
  rw [step_first, hperform, hq]

theorem step_write8 {s : State} (hc : configOk s.cfg = true) {addr : Nat} {q : Place}
    (hq : place s.cfg false addr = .ok q) (b : Byte) (rest : List Access) :
    step { s with host := .write8 addr b :: rest } = hostWrite8 { s with host := rest } b (.ok q) := by
  have hperform : perform (.write8 addr b) { s with host := rest } =
      hostWrite8 { s with host := rest } b (place s.cfg false addr) := perform_of_ok hc
  rw [step_first, hperform, hq]

/-! Registers. -/

/-- A word written to a register, in one step. -/
theorem step_scriptWr {s : State} (hc : configOk s.cfg = true) (r : Reg) (v : Word) (rest : List Access) :
    step { s with host := scriptWr s.cfg r v :: rest } = writeReg { s with host := rest } v r :=
  step_write32 hc (place_reg s.cfg r) v rest

/-- Settles O12: each register's write, read off `writeReg`. -/
theorem registerWritesStoreLowBits : Obligations.RegisterWritesStoreLowBits := by
  intro s v rest hc
  refine ⟨step_scriptWr hc .gen v rest, step_scriptWr hc .rlen v rest, step_scriptWr hc .schsel v rest,
    step_scriptWr hc .val v rest, step_scriptWr hc .alen v rest, fun r hr => ?_⟩
  rw [step_scriptWr hc]
  rcases hr with rfl | rfl | rfl | rfl | rfl <;> rfl

/-- The three fields of `STATUS` share no bit (R25). -/
theorem toNat_status (s : State) : s.status.toNat = s.err.toNat + 16 * s.bound.toNat + 32 * s.ckok.toNat := by
  have hfields : ∀ (e : BitVec 4) (b c : Bool),
      (e.setWidth 32 ||| (flagBit b).setWidth 32 <<< 4 ||| (flagBit c).setWidth 32 <<< 5 : Word).toNat =
        e.toNat + 16 * b.toNat + 32 * c.toNat := by decide
  exact hfields s.err s.bound s.ckok

/-- Settles O13: zero-extension keeps a register's value, and `STATUS` is the sum of its fields. -/
theorem registerReadsReturnValue : Obligations.RegisterReadsReturnValue := by
  intro s r rest hc
  refine ⟨readReg s r, step_read32 hc (place_reg s.cfg r) rest, ?_⟩
  cases r with
  | status => exact toNat_status s
  | gen | rlen | schsel | alen | cksum => exact BitVec.toNat_setWidth_of_le (by omega)
  | cmd | errinfo | val | dsc0 | dsc1 => rfl

/-! The byte windows. -/

theorem recByte_memWrite_singleton (s : State) (i a : Nat) (b : Byte) :
    (memWrite s i [b]).recByte a = if a = i then b else s.recByte a := by
  rw [recByte_memWrite]
  by_cases h : a = i
  · simp [h]
  · rw [if_neg (by simp; omega), if_neg h]

theorem auxByte_auxWrite_singleton (s : State) (i a : Nat) (b : Byte) :
    (auxWrite s i [b]).auxByte a = if a = i then b else s.auxByte a := by
  rw [auxByte_auxWrite]
  by_cases h : a = i
  · simp [h]
  · rw [if_neg (by simp; omega), if_neg h]

/-- Settles O14: a byte of a window is the byte of the buffer, and writing it is a write of one byte there. -/
theorem byteWindowsReachBuffers : Obligations.ByteWindowsReachBuffers := by
  intro s i b rest hc
  constructor
  · intro hi
    exact ⟨⟨_, step_write8 hc (place_rec hc hi) b rest, rfl, fun a => recByte_memWrite_singleton _ i a b⟩,
      step_read8 hc (place_rec hc hi) rest⟩
  · intro hi
    exact ⟨⟨_, step_write8 hc (place_aux hc hi) b rest, rfl, fun a => auxByte_auxWrite_singleton _ i a b⟩,
      step_read8 hc (place_aux hc hi) rest⟩

/-! `SCHROM`. -/

/-- Settles O15: the window holds the image's words, which no write changes. -/
theorem schemaMemoryIsReadOnly : Obligations.SchemaMemoryIsReadOnly := by
  intro s k v rest hc hk
  exact ⟨step_read32 hc (place_rom hc hk) rest, step_write32 hc (place_rom hc hk) v rest⟩

/-! Reserved offsets. -/

/-- No register stands above offset 0x28. -/
theorem regAt_eq_none {off : Nat} (h : 0x2C ≤ off) : regAt off = none := by
  cases hr : regAt off with
  | none => rfl
  | some r =>
    obtain rfl := regAt_eq_some.mp hr
    cases r <;> simp [regOffset] at h

theorem place_reserved_wide {c : Config} (hfit : fitsMap c = true) {off : Nat} (h4 : off % 4 = 0)
    (hoff : 0x2C ≤ off ∧ off < 0x1000 ∨ 0x8000 + 4 * c.schrom.length ≤ off ∧ off < 0x10000) :
    place c true (c.base + off) = .ok .reserved := by
  rw [place, if_neg (by omega), if_pos hfit, if_pos rfl, Nat.add_sub_cancel_left, mapPlace32, if_neg (by omega),
    if_pos h4]
  rcases hoff with ⟨hlo, hhi⟩ | ⟨hlo, hhi⟩
  · rw [if_pos hhi, regPlace, regAt_eq_none hlo]
  · rw [if_neg (by omega), if_pos (by omega), if_neg (by omega)]

theorem place_reserved_byte {c : Config} (hfit : fitsMap c = true) {off : Nat}
    (hoff : 0x1000 + c.recMax ≤ off ∧ off < 0x4000 ∨ 0x4000 + c.auxMax ≤ off ∧ off < 0x8000) :
    place c false (c.base + off) = .ok .reserved := by
  rw [place, if_neg (by omega), if_pos hfit, if_neg (by decide), Nat.add_sub_cancel_left, mapPlace8, if_neg (by omega)]
  rcases hoff with ⟨hlo, hhi⟩ | ⟨hlo, hhi⟩
  · rw [if_pos (by omega), if_neg (by omega)]
  · rw [if_neg (by omega), if_pos (by omega), if_neg (by omega)]

/-- Settles O16: on the map of R40 these offsets are reserved places of their window's width. -/
theorem reservedOffsetsReadZero : Obligations.ReservedOffsetsReadZero := by
  intro s off v b hc hfit
  constructor
  · rintro ⟨h4, hoff⟩
    have hp := place_reserved_wide hfit h4 hoff
    constructor
    · rw [perform_of_ok hc]
      simp only [hp, hostRead, readPlace]
    · rw [perform_of_ok hc]
      simp only [hp, hostWrite32]
  · intro hoff
    have hp := place_reserved_byte hfit hoff
    constructor
    · rw [perform_of_ok hc]
      simp only [hp, hostRead, readPlace]
    · rw [perform_of_ok hc]
      simp only [hp, hostWrite8]

/-! Reads, and the step on a command word. -/

/-- Settles O11: an access that reads is answered by its reply alone. -/
theorem readsHaveNoSideEffect : Obligations.ReadsHaveNoSideEffect := by
  intro s t addr h
  have hread : ∃ p, hostRead s p = .next t := by
    rcases h with h | h
    · obtain ⟨hc, -⟩ := perform_eq_next h
      exact ⟨_, (perform_of_ok hc).symm.trans h⟩
    · obtain ⟨hc, -⟩ := perform_eq_next h
      exact ⟨_, (perform_of_ok hc).symm.trans h⟩
  obtain ⟨p, hp⟩ := hread
  obtain ⟨q, -, rfl⟩ := hostRead_eq_next hp
  exact ⟨_, rfl⟩

/-- A step on a word about to be written to `CMD` is what that write does. -/
theorem step_cmd {s : State} {w : Word} {rest : List Access} (hc : configOk s.cfg = true)
    (hq : s.host = .write32 s.cfg.base w :: rest) : step s = commandWrite w { s with host := rest } := by
  have hs : s = { s with host := scriptWr s.cfg .cmd w :: rest } := by
    rw [scriptWr, regOffset, Nat.add_zero, ← hq]
  rw [hs, step_scriptWr hc]
  rfl

theorem decode_of_decodeTableWord {nbits w : Nat} {i : Instr} (h : decodeTableWord nbits w = some i) :
    decode (BitVec.ofNat 32 (w % 2 ^ nbits)) = .ok i := by
  unfold decodeTableWord at h
  split at h
  · rename_i j hj
    cases h
    exact hj
  · cases h

/-- Settles O10: a `CMD` write performs the command of its word or ends as an illegal word does. -/
theorem stepRunsDecodedCommand : Obligations.StepRunsDecodedCommand := by
  refine ⟨fun s w rest hc hq => ⟨fun i hdec => ?_, fun r hdec => ?_⟩, fun s hq => step_idle hq, ?_⟩
  · rw [step_cmd hc hq, commandWrite_of_decode_eq_ok hdec]
  · rw [step_cmd hc hq, commandWrite_of_not_decoded hdec, illegalWord]
    split <;> rfl
  · intro s nbits w i hc hdec
    have hcmd : step (s.withFetchWord nbits w) = commandWrite (BitVec.ofNat 32 (w % 2 ^ nbits)) s :=
      step_cmd (s := s.withFetchWord nbits w) hc rfl
    rw [hcmd, commandWrite_of_decode_eq_ok (decode_of_decodeTableWord hdec)]

end Sys2Proof.Machine
end

section
/-! Reset and the regions of a bound record (sections 4 and 6 of `10_state.md`, R58 of `20_memory.md`), and the command
words of the spec's text. -/

namespace Sys2Proof.Machine

/-- Settles O3: a word decodes to a command when it is the command's encoding, which is a closed value. -/
theorem specWordsDecodeAsPrinted : Obligations.SpecWordsDecodeAsPrinted := by
  simp only [Obligations.SpecWordsDecodeAsPrinted, decode_eq_ok_iff]
  decide

/-- Settles O4: the fields of `State.resetOf`, and buffers that list no byte. -/
theorem resetLeavesRegistersZero : Obligations.ResetLeavesRegistersZero := fun c =>
  ⟨BitVec.eq_of_toNat_eq (toNat_status (State.resetOf c)), rfl, rfl, rfl, rfl, rfl, rfl, rfl, rfl,
    rfl, fun _ => rfl, fun _ => rfl, rfl⟩

theorem inv_resetOf {c : Config} (hc : configOk c = true) : Inv (State.resetOf c) :=
  ⟨hc, (wf_resetOf c).1, (wf_resetOf c).2, within_nil _, within_nil _, nofun, rfl, fun _ => rfl⟩

theorem configOk_testInstance : configOk Config.testInstance = true := by decide +kernel

/-- Settles O5: the buffers list nothing and no field is set, and the parameters of the vectors are in order. -/
theorem resetMeetsInvariant : Obligations.ResetMeetsInvariant :=
  ⟨fun _ => inv_resetOf, inv_resetOf configOk_testInstance⟩

/-- Settles O9: the meaning of `BOUND` gives the schema, whose header is well-formed and of the record's size. -/
theorem boundRecordHasItsRegions : Obligations.BoundRecordHasItsRegions := by
  intro s hinv hb
  obtain ⟨h, hh⟩ := Option.isSome_iff_exists.mp (hinv.boundMeaning hb)
  obtain ⟨-, hok, hlen⟩ := boundHeader_eq_some.mp hh
  obtain ⟨-, -, hpay, htail, hsize, hfit⟩ := hdrOk_iff.mp hok
  exact ⟨h, hh, hpay, htail, hsize, hlen.symm, by omega⟩

end Sys2Proof.Machine
end

section
/-! BLANK, PARSE and LOOKUP (R93 of `40_schema_lookup.md`, R100, R101 of `41_record_codec.md`): each command said once
for each of its endings. -/

namespace Sys2Proof.Machine

/-! Schema selection. -/

theorem selSchema_of_hdrOk {s : State} {h : Header} (hat : schemaAt s.cfg.schrom s.schsel.toNat = some h)
    (hok : hdrOk s.cfg.recMax h = true) : selSchema s = .ok h := selSchema_eq_ok.mpr ⟨hat, hok⟩

/-- Without a well-formed schema at `SCHSEL` the selection raises `BadSchema` (R90). -/
theorem selSchema_eq_badSchema {s : State}
    (hbad : ∀ h, schemaAt s.cfg.schrom s.schsel.toNat = some h → hdrOk s.cfg.recMax h = false) :
    selSchema s = .error .badSchema := by
  cases hsel : selSchema s with
  | ok h =>
    obtain ⟨hat, hok⟩ := selSchema_eq_ok.mp hsel
    simp [hbad h hat] at hok
  | error e => rw [selSchema_eq_error hsel]

/-- Settles O26: the three commands begin with the selection and end with its error. -/
theorem badSchemaStopsSelection : Obligations.BadSchemaStopsSelection := by
  intro i s hi hs hbad
  have hsel := selSchema_eq_badSchema hbad
  rcases hi with rfl | rfl | ⟨f, rfl⟩
  · rw [exec, execBlank, performFree_ready hs, hsel]
    rfl
  · rw [exec, execParse, performFree_ready hs, hsel]
    rfl
  · rw [exec, execLookup, performFree_ready hs, hsel]
    rfl

/-! BLANK. -/

theorem getD_zeros (n i : Nat) : (zeros n).getD i 0 = 0 := by
  simp [zeros, List.getD_eq_getElem?_getD, List.getElem?_replicate]
  split <;> rfl

theorem exec_blank_of_selSchema {s : State} {h : Header} (hs : s.err = 0) (hsel : selSchema s = .ok h) :
    exec .blank s = .next { memWrite s 0 (zeros h.size) with rlen := BitVec.ofNat 16 h.size, bound := true } := by
  rw [exec, execBlank, performFree_ready hs, hsel, conclude]

/-- The size of a schema of the image is a 16-bit value (R76). -/
theorem size_lt_of_schemaAt {rom : List Word} {i : Nat} {h : Header} (hat : schemaAt rom i = some h) :
    h.size < 2 ^ 16 := by
  obtain ⟨-, rfl⟩ := schemaAt_eq_some.mp hat
  exact BitVec.isLt _

/-- Settles O29: the write of zeros from byte 0 on, and a size that `RLEN` holds. -/
theorem blankMakesZeroRecord : Obligations.BlankMakesZeroRecord := by
  intro s h hs hat hok
  refine ⟨_, exec_blank_of_selSchema hs (selSchema_of_hdrOk hat hok), rfl, ?_, fun a => ?_⟩
  · exact (BitVec.toNat_ofNat _ _).trans (Nat.mod_eq_of_lt (size_lt_of_schemaAt hat))
  · have hbyte := recByte_memWrite s 0 a (zeros h.size)
    rw [length_zeros, getD_zeros] at hbyte
    exact hbyte.trans (by simp)

/-! PARSE. -/

/-- Settles O30: with a schema selected, only the length decides. -/
theorem parseChecksOnlyTheLength : Obligations.ParseChecksOnlyTheLength := by
  intro s h hs hat hok
  rw [exec, execParse, performFree_ready hs, selSchema_of_hdrOk hat hok]
  by_cases hlen : s.rlen.toNat = h.size
  · simp only [if_pos hlen, conclude]
  · simp only [if_neg hlen, conclude]
    rfl

/-! LOOKUP. -/

theorem exec_lookup_of_findField_ok {s : State} {h : Header} {fid : BitVec 16} {d : Desc} (hs : s.err = 0)
    (hsel : selSchema s = .ok h) (hd : findField s.cfg.schrom h fid = .ok d) :
    exec (.lookup fid) s = .next { s with dsc0 := d.d0, dsc1 := d.d1 } := by
  rw [exec, execLookup, performFree_ready hs, hsel]
  simp only [hd, conclude]

theorem exec_lookup_of_findField_error {s : State} {h : Header} {fid : BitVec 16} (hs : s.err = 0)
    (hsel : selSchema s = .ok h) (hd : findField s.cfg.schrom h fid = .error .unknownField) :
    exec (.lookup fid) s = .next { s with err := 3, errinfo := encode (.lookup fid) } := by
  rw [exec, execLookup, performFree_ready hs, hsel]
  simp only [hd, conclude]
  rfl

/-! The layout of the image (R75 to R80 of `30_encoding.md`), in arithmetic of its words. -/

theorem toNat_extractLsb'_word (w : Word) (start len : Nat) :
    (w.extractLsb' start len).toNat = w.toNat / 2 ^ start % 2 ^ len := by
  rw [BitVec.extractLsb'_toNat, Nat.shiftRight_eq_div_pow]

/-- A field up to the top bit of a word needs no modulus. -/
theorem toNat_extractLsb'_top (w : Word) (start len : Nat) (h : start + len = 32) :
    (w.extractLsb' start len).toNat = w.toNat / 2 ^ start := by
  rw [toNat_extractLsb'_word]
  refine Nat.mod_eq_of_lt (Nat.div_lt_of_lt_mul ?_)
  rw [← Nat.pow_add, h]
  exact w.isLt

theorem toNat_getLsbD_word (w : Word) (i : Nat) : (w.getLsbD i).toNat = w.toNat / 2 ^ i % 2 := by
  rw [BitVec.getLsbD, Nat.testBit_eq_decide_div_mod_eq]
  rcases Nat.mod_two_eq_zero_or_one (w.toNat / 2 ^ i) with h | h <;> simp [h]

/-- The number of an encoding in bits 17:16 of D1 (R77). -/
theorem dkindOf_number (b : BitVec 2) :
    b.toNat = match dkindOf b with | .int => 0 | .bits => 1 | .str => 2 | .raw => 3 := by
  revert b
  decide

theorem layout_of_schemas (rom : List Word) (i : Nat) :
    schemaBase rom 0 = 1 ∧
    schemaBase rom (i + 1) = schemaBase rom i + 3 + 2 * ((rom.getD (schemaBase rom i + 2) 0).toNat % 2 ^ 16) ∧
    schemaAt rom i =
      if i < (rom.getD 0 0).toNat % 2 ^ 16 then some (headerAt rom (schemaBase rom i)) else none := by
  refine ⟨rfl, ?_, ?_⟩
  · simp only [schemaBase, romWord, toNat_extractLsb'_word, Nat.pow_zero, Nat.div_one]
  · simp only [schemaAt, nsch, romWord, toNat_extractLsb'_word, Nat.pow_zero, Nat.div_one]

theorem layout_of_header (rom : List Word) (p : Nat) :
    (headerAt rom p).start = p ∧
    (headerAt rom p).size = (rom.getD p 0).toNat % 2 ^ 16 ∧
    (headerAt rom p).gen.toNat = (rom.getD p 0).toNat / 2 ^ 16 % 2 ^ 8 ∧
    (headerAt rom p).kind.toNat = (rom.getD p 0).toNat / 2 ^ 24 % 2 ^ 2 ∧
    (headerAt rom p).rsv0.toNat = (rom.getD p 0).toNat / 2 ^ 26 ∧
    (headerAt rom p).payEnd = (rom.getD (p + 1) 0).toNat % 2 ^ 16 ∧
    (headerAt rom p).tailEnd = (rom.getD (p + 1) 0).toNat / 2 ^ 16 ∧
    (headerAt rom p).nfields = (rom.getD (p + 2) 0).toNat % 2 ^ 16 ∧
    (headerAt rom p).rsv2.toNat = (rom.getD (p + 2) 0).toNat / 2 ^ 16 := by
  have hlow (w : Word) : (w.extractLsb' 0 16).toNat = w.toNat % 2 ^ 16 := by
    rw [toNat_extractLsb'_word, Nat.pow_zero, Nat.div_one]
  exact ⟨rfl, hlow _, toNat_extractLsb'_word _ _ _, toNat_extractLsb'_word _ _ _, toNat_extractLsb'_top _ _ _ rfl,
    hlow _, toNat_extractLsb'_top _ _ _ rfl, hlow _, toNat_extractLsb'_top _ _ _ rfl⟩

theorem layout_of_desc (rom : List Word) (h : Header) (k : Nat) : ∃ w0 w1 : Nat,
    w0 = (rom.getD (h.start + 3 + 2 * k) 0).toNat ∧ w1 = (rom.getD (h.start + 4 + 2 * k) 0).toNat ∧
    (descAt rom h k).d0.toNat = w0 ∧ (descAt rom h k).d1.toNat = w1 ∧
    (descAt rom h k).fid.toNat = w0 % 2 ^ 16 ∧
    (descAt rom h k).off = w0 / 2 ^ 16 ∧
    (descAt rom h k).width = w1 % 2 ^ 16 ∧
    w1 / 2 ^ 16 % 4 =
      (match (descAt rom h k).dkind with | .int => 0 | .bits => 1 | .str => 2 | .raw => 3) ∧
    (descAt rom h k).be.toNat = w1 / 2 ^ 18 % 2 ∧
    (descAt rom h k).pad.toNat = w1 / 2 ^ 19 % 2 ∧
    (descAt rom h k).bshift = w1 / 2 ^ 20 % 2 ^ 5 ∧
    (descAt rom h k).bwidth = w1 / 2 ^ 25 % 2 ^ 6 ∧
    (descAt rom h k).rsv.toNat = w1 / 2 ^ 31 := by
  have hlow (w : Word) : (w.extractLsb' 0 16).toNat = w.toNat % 2 ^ 16 := by
    rw [toNat_extractLsb'_word, Nat.pow_zero, Nat.div_one]
  have htop (w : Word) : (w.getLsbD 31).toNat = w.toNat / 2 ^ 31 := by
    have := w.isLt
    rw [toNat_getLsbD_word]
    omega
  exact ⟨_, _, rfl, rfl, rfl, rfl, hlow _, toNat_extractLsb'_top _ _ _ rfl, hlow _,
    (toNat_extractLsb'_word _ 16 2).symm.trans (dkindOf_number _), toNat_getLsbD_word _ _, toNat_getLsbD_word _ _,
    toNat_extractLsb'_word _ _ _, toNat_extractLsb'_word _ _ _, htop _⟩

/-- `DescOK` as the list of conditions R79 gives each encoding. -/
theorem descOk_iff (auxMax : Nat) (d : Desc) : descOk auxMax d = true ↔
    d.rsv = false ∧
    match d.dkind with
    | .int => (d.width = 1 ∨ d.width = 2 ∨ d.width = 4) ∧ d.be = false ∧ d.pad = false ∧ d.bshift = 0 ∧ d.bwidth = 0
    | .bits =>
      (d.width = 1 ∨ d.width = 2 ∨ d.width = 4) ∧ 1 ≤ d.bwidth ∧ d.bwidth ≤ 32 ∧
        d.bshift + d.bwidth ≤ 8 * d.width ∧ d.pad = false
    | .str => 1 ≤ d.width ∧ 2 * d.width ≤ auxMax ∧ d.be = false ∧ d.bshift = 0 ∧ d.bwidth = 0
    | .raw =>
      1 ≤ d.width ∧ d.width ≤ auxMax ∧ d.be = false ∧ d.pad = false ∧ d.bshift = 0 ∧ d.bwidth = 0 := by
  unfold descOk
  cases d.dkind <;> simp [wordWidth, and_assoc, or_assoc]

theorem extent_eq (d : Desc) : extent d = if d.dkind = .str then 2 * d.width else d.width := by
  unfold extent
  cases d.dkind <;> rfl

/-- Settles O27: LOOKUP by the two laws of `findField`, and the layout by the arithmetic of bit ranges. -/
theorem lookupReportsDescriptorWords : Obligations.LookupReportsDescriptorWords := by
  refine ⟨fun s h fid hs hat hok => ⟨fun k hk hfid hfirst => ?_, fun hnone => ?_⟩, layout_of_schemas, layout_of_header,
    layout_of_desc, fun _ _ => hdrOk_iff, descOk_iff, extent_eq⟩
  · exact exec_lookup_of_findField_ok hs (selSchema_of_hdrOk hat hok)
      (findField_eq_ok.mpr ⟨k, hk, rfl, hfid, hfirst⟩)
  · exact exec_lookup_of_findField_error hs (selSchema_of_hdrOk hat hok) (findField_eq_error.mpr ⟨rfl, hnone⟩)

end Sys2Proof.Machine
end

section
/-! GET and SET once more (R102 to R110 of `41_record_codec.md`): the common checks, the two operand forms whose SET is
not settled above, and GET after SET. -/

namespace Sys2Proof.Machine

/-! The common checks. -/

/-- A GET or SET on a bound record whose field the common checks turn away raises their error. -/
theorem exec_of_fieldDesc_eq_error {s : State} {h : Header} {fid : BitVec 16} {i : Instr} {e : ErrCode}
    (hi : i = .get fid ∨ i = .set fid) (hr : Ready s) (hhd : boundHeader s = some h)
    (hdesc : fieldDesc s h fid = .error e) : exec i s = .next (s.raise e (encode i)) := by
  obtain ⟨hs, hb⟩ := hr
  rcases hi with rfl | rfl
  · rw [exec, execGet, performBound_ready hs hb hhd, hdesc, conclude]
  · rw [exec, execSet, performBound_ready hs hb hhd, hdesc, conclude]

theorem fieldDesc_eq_unknownField {s : State} {h : Header} {fid : BitVec 16}
    (hnone : ∀ k, k < h.nfields → (descAt s.cfg.schrom h k).fid ≠ fid) :
    fieldDesc s h fid = .error .unknownField := by
  rw [fieldDesc, findField_eq_error.mpr ⟨rfl, hnone⟩]

theorem fieldDesc_eq_badSchema {s : State} {h : Header} {fid : BitVec 16} {d : Desc}
    (hd : findField s.cfg.schrom h fid = .ok d) (hok : descOk s.cfg.auxMax d = false) :
    fieldDesc s h fid = .error .badSchema := by
  simp [fieldDesc, hd, hok]

theorem fieldDesc_eq_outOfRange {s : State} {h : Header} {fid : BitVec 16} {d : Desc}
    (hd : findField s.cfg.schrom h fid = .ok d) (hok : descOk s.cfg.auxMax d = true)
    (hout : s.rlen.toNat < d.off + extent d) : fieldDesc s h fid = .error .outOfRange := by
  simp [fieldDesc, hd, hok, hout]

/-- Settles O31: each check is reached by a field the earlier ones pass. -/
theorem fieldErrorsComeInOrder : Obligations.FieldErrorsComeInOrder := fun _ _ _ _ hi hr hhd =>
  ⟨fun hnone => exec_of_fieldDesc_eq_error hi hr hhd (fieldDesc_eq_unknownField hnone),
    fun _ hd hok => exec_of_fieldDesc_eq_error hi hr hhd (fieldDesc_eq_badSchema hd hok),
    fun _ hd hok hout => exec_of_fieldDesc_eq_error hi hr hhd (fieldDesc_eq_outOfRange hd hok hout)⟩

/-! BITS: the container word. -/

/-- `putBitField` gives the field's bits those of the value and keeps the others, within the container (R109). -/
theorem testBit_putBitField {nbits bshift bwidth v : Nat} (word j : Nat) (hfit : bshift + bwidth ≤ nbits)
    (hv : v < 2 ^ bwidth) :
    (putBitField nbits word bshift bwidth v).testBit j =
      if bshift ≤ j ∧ j < bshift + bwidth then v.testBit (j - bshift) else (decide (j < nbits) && word.testBit j) := by
  have hhigh (k : Nat) (hk : bwidth ≤ k) : v.testBit k = false :=
    Nat.testBit_lt_two_pow (hv.trans_le (Nat.pow_le_pow_right (by decide) hk))
  rw [putBitField, Nat.one_shiftLeft, Nat.testBit_or, Nat.testBit_and, Nat.testBit_xor, Nat.testBit_shiftLeft,
    Nat.testBit_shiftLeft, Nat.testBit_two_pow_sub_one, Nat.testBit_two_pow_sub_one]
  by_cases hlow : bshift ≤ j
  · by_cases hin : j < bshift + bwidth
    · rw [if_pos ⟨hlow, hin⟩]
      simp [hlow, show j - bshift < bwidth by omega, show j < nbits by omega]
    · rw [if_neg (by omega), hhigh (j - bshift) (by omega)]
      simp [show ¬(j - bshift < bwidth) by omega, Bool.and_comm]
  · rw [if_neg (by omega)]
    simp [hlow, Bool.and_comm]

/-- What is put into a container fits it. -/
theorem putBitField_lt {nbits bshift bwidth v : Nat} (word : Nat) (hfit : bshift + bwidth ≤ nbits)
    (hv : v < 2 ^ bwidth) : putBitField nbits word bshift bwidth v < 2 ^ nbits := by
  refine Nat.lt_pow_two_of_testBit _ fun j hj => ?_
  rw [testBit_putBitField word j hfit hv, if_neg (by omega)]
  simp [show ¬(j < nbits) by omega]

/-- The value put into a container is the one read back from it. -/
theorem bitField_putBitField {nbits bshift bwidth v : Nat} (word : Nat) (hfit : bshift + bwidth ≤ nbits)
    (hv : v < 2 ^ bwidth) : bitField (putBitField nbits word bshift bwidth v) bshift bwidth = v := by
  refine Nat.eq_of_testBit_eq fun j => ?_
  rw [testBit_bitField, testBit_putBitField word _ hfit hv]
  by_cases hj : j < bwidth
  · simp [hj]
  · rw [Nat.testBit_lt_two_pow (hv.trans_le (Nat.pow_le_pow_right (by decide) (not_lt.mp hj)))]
    simp [hj]

/-- A container written back in its byte order has the value written (R51 of `20_memory.md`). -/
theorem containerValue_containerBytes (b : Bool) {n v : Nat} (hv : v < 2 ^ (8 * n)) :
    containerValue b (containerBytes b n v) = v := by
  have hv' : v < 256 ^ n := by rwa [Nat.pow_mul] at hv
  cases b with
  | true => exact be_beBytes n v hv'
  | false => exact le_leBytes n v hv'

theorem bshift_add_bwidth_le_of_descOk_bits {auxMax : Nat} {d : Desc} (hok : descOk auxMax d = true)
    (hk : d.dkind = .bits) : d.bshift + d.bwidth ≤ 8 * d.width := by
  simp only [descOk, hk, Bool.and_eq_true, decide_eq_true_eq] at hok
  omega

/-- The bytes SET writes over a BITS field whose value fits. -/
def bitsBytes (s : State) (d : Desc) : List Byte :=
  containerBytes d.be d.width (putBitField (8 * d.width) (container s d) d.bshift d.bwidth s.val.toNat)

theorem length_bitsBytes (s : State) (d : Desc) : (bitsBytes s d).length = d.width := length_containerBytes _ _ _

theorem fieldBytes_bits_fits {s : State} {d : Desc} (hk : d.dkind = .bits) (hv : s.val.toNat < 2 ^ d.bwidth) :
    fieldBytes s d = .ok (bitsBytes s d) := by simp [fieldBytes, hk, hv, bitsBytes, container]

theorem fieldBytes_bits_tooLarge {s : State} {d : Desc} (hk : d.dkind = .bits) (hv : 2 ^ d.bwidth ≤ s.val.toNat) :
    fieldBytes s d = .error .valueRange := by simp [fieldBytes, hk, hv]

/-- The bytes of a field read back as they were written. -/
theorem memRead_memWrite_of_length (s : State) (a : Nat) {n : Nat} {bs : List Byte} (hn : bs.length = n) :
    memRead (memWrite s a bs) a n = bs := hn ▸ memRead_memWrite_self s a bs

theorem container_after_set {s : State} {d : Desc} (hfit : d.bshift + d.bwidth ≤ 8 * d.width)
    (hv : s.val.toNat < 2 ^ d.bwidth) :
    container (memWrite s d.off (bitsBytes s d)) d =
      putBitField (8 * d.width) (container s d) d.bshift d.bwidth s.val.toNat := by
  rw [container, memRead_memWrite_of_length s d.off (length_bitsBytes s d), bitsBytes,
    containerValue_containerBytes _ (putBitField_lt _ hfit hv)]

/-- Settles O37: SET writes the container with the value put into it, which is read back bit by bit. -/
theorem setBitsKeepsOtherBits : Obligations.SetBitsKeepsOtherBits := by
  intro s h fid d hf hk
  have hfit := bshift_add_bwidth_le_of_descOk_bits (descOk_of_fieldReady hf) hk
  constructor
  · intro hv
    refine ⟨_, exec_set_of_fieldBytes_eq_ok hf (fieldBytes_bits_fits hk hv), rfl, fun j hj => ?_, fun a ha => ?_⟩
    · rw [container_after_set hfit hv, testBit_putBitField _ j hfit hv]
      simp [hj, BitVec.getLsbD]
    · exact recByte_memWrite_outside s d.off a _ (by rwa [length_bitsBytes])
  · intro hv
    exact exec_set_of_fieldBytes_eq_error hf (fieldBytes_bits_tooLarge hk hv)

/-! STR: the padded string. -/

/-- Byte `a` of a padded string: the units, then terminators, or one terminator and zeros (R110). -/
theorem getD_padString {pad : Bool} {w n : Nat} {units : List Byte} (hu : units.length = 2 * n) {a : Nat}
    (ha : a < 2 * w) :
    (padString pad w n units).getD a 0 =
      if a < 2 * n then units.getD a 0 else if pad = false ∨ a < 2 * n + 2 then 0xFF else 0x00 := by
  have hterm (m i : Nat) (hi : i < 2 * m) : (terminators m).getD i 0 = 0xFF := by
    simp [terminators, List.getD_eq_getElem?_getD, hi]
  by_cases hn : n < w
  · rw [padString, if_pos hn]
    by_cases hlow : a < 2 * n
    · rw [if_pos hlow]
      cases pad with
      | true =>
        rw [if_pos rfl, List.append_assoc, List.getD_append _ _ _ _ (by omega)]
      | false => rw [if_neg (by decide), List.getD_append _ _ _ _ (by omega)]
    · rw [if_neg hlow]
      cases pad with
      | true =>
        rw [if_pos rfl, List.append_assoc, List.getD_append_right _ _ _ _ (by omega), hu]
        by_cases hone : a < 2 * n + 2
        · rw [if_pos (.inr hone), List.getD_append _ _ _ _ (by simp; omega), hterm 1 _ (by omega)]
        · rw [if_neg (by simp; omega), List.getD_append_right _ _ _ _ (by simp; omega), getD_zeros]
      | false =>
        rw [if_neg (by decide), if_pos (.inl rfl), List.getD_append_right _ _ _ _ (by omega), hu,
          hterm (w - n) _ (by omega)]
  · rw [padString, if_neg hn, if_pos (by omega)]

/-- The number of code units SET takes from `AUX` for a STR field (R110). -/
abbrev unitsSet (s : State) (d : Desc) : Nat := min (s.alen.toNat / 2) d.width

/-- The bytes SET writes over a STR field whose value is accepted. -/
def stringBytes (s : State) (d : Desc) : List Byte :=
  padString d.pad d.width (unitsSet s d) (auxRead s 0 (2 * unitsSet s d))

theorem length_stringBytes (s : State) (d : Desc) : (stringBytes s d).length = 2 * d.width :=
  length_padString _ _ _ _ (Nat.min_le_right _ _) (length_auxRead _ _ _)

theorem fieldBytes_str_fits {s : State} {d : Desc} (hk : d.dkind = .str)
    (hlen : s.alen.toNat % 2 = 0 ∧ s.alen.toNat ≤ s.cfg.auxMax) : fieldBytes s d = .ok (stringBytes s d) := by
  simp [fieldBytes, hk, hlen, stringBytes]

theorem fieldBytes_str_badLength {s : State} {d : Desc} (hk : d.dkind = .str)
    (hlen : s.alen.toNat % 2 ≠ 0 ∨ s.cfg.auxMax < s.alen.toNat) : fieldBytes s d = .error .valueRange := by
  have hnot : ¬(s.alen.toNat % 2 = 0 ∧ s.alen.toNat ≤ s.cfg.auxMax) := by omega
  simp only [fieldBytes, hk, if_neg hnot]

/-- A byte of a STR field after SET. -/
theorem recByte_set_str (s : State) (d : Desc) {a : Nat} (ha : a < 2 * d.width) :
    (memWrite s d.off (stringBytes s d)).recByte (d.off + a) =
      if a < 2 * unitsSet s d then s.auxByte a
      else if d.pad = false ∨ a < 2 * unitsSet s d + 2 then 0xFF else 0x00 := by
  rw [recByte_memWrite, if_pos (by rw [length_stringBytes]; omega), Nat.add_sub_cancel_left, stringBytes,
    getD_padString (length_auxRead _ _ _) ha]
  by_cases hlow : a < 2 * unitsSet s d
  · rw [if_pos hlow, if_pos hlow, auxRead, getD_readRun _ _ _ _ hlow, Nat.zero_add]
  · rw [if_neg hlow, if_neg hlow]

/-- Settles O38: SET writes the padded string, byte by byte, and has none for a bad length. -/
theorem setStringPadsAsDescribed : Obligations.SetStringPadsAsDescribed := by
  intro s h fid d hf hk
  constructor
  · intro hlen
    refine ⟨_, exec_set_of_fieldBytes_eq_ok hf (fieldBytes_str_fits hk hlen), rfl,
      fun a ha => recByte_set_str s d ha, fun a ha => ?_⟩
    exact recByte_memWrite_outside s d.off a _ (by rwa [length_stringBytes])
  · intro hlen
    exact exec_set_of_fieldBytes_eq_error hf (fieldBytes_str_badLength hk hlen)

/-! GET after SET (section 5 of `41_record_codec.md`). -/

/-- A SET that completes has written the field's bytes. -/
theorem fieldBytes_of_exec_set {s t : State} {h : Header} {fid : BitVec 16} {d : Desc} (hf : FieldReady s h fid d)
    (hset : exec (.set fid) s = .next t) (ht : t.err = 0) :
    ∃ bs, fieldBytes s d = .ok bs ∧ t = memWrite s d.off bs := by
  cases hbs : fieldBytes s d with
  | ok bs =>
    rw [exec_set_of_fieldBytes_eq_ok hf hbs] at hset
    cases hset
    exact ⟨bs, rfl, rfl⟩
  | error e =>
    rw [exec_set_of_fieldBytes_eq_error hf hbs] at hset
    cases hset
    exact absurd ht (code_ne_zero .valueRange)

/-- The state GET finds after a SET of these bytes, with `VAL`, `ALEN` and `AUX` replaced. -/
abbrev afterSet (s : State) (off : Nat) (bs : List Byte) (v : Word) (n : BitVec 16) (aux : Memory) : State :=
  { memWrite s off bs with val := v, alen := n, auxBuf := aux }

/-- The field is ready for GET when it was for SET: neither `RLEN`, `SCHSEL` nor the parameters have changed. -/
theorem fieldReady_afterSet {s : State} {h : Header} {fid : BitVec 16} {d : Desc} (hf : FieldReady s h fid d)
    (bs : List Byte) (v : Word) (n : BitVec 16) (aux : Memory) : FieldReady (afterSet s d.off bs v n aux) h fid d := by
  obtain ⟨hr, hhd, hfield⟩ := hf
  have hheader : boundHeader (afterSet s d.off bs v n aux) = boundHeader s := boundHeader_congr rfl rfl rfl
  exact ⟨hr, hheader.trans hhd, hfield⟩

/-- What a SET of a number wrote is read as that number. -/
theorem readField_afterSet_number {s : State} {d : Desc} {bs : List Byte} (hok : descOk s.cfg.auxMax d = true)
    (hk : d.dkind = .int ∨ d.dkind = .bits) (hbs : fieldBytes s d = .ok bs) (v : Word) (n : BitVec 16) (aux : Memory) :
    readField (afterSet s d.off bs v n aux) d = .number s.val := by
  have hread : memRead (afterSet s d.off bs v n aux) d.off d.width = memRead (memWrite s d.off bs) d.off d.width := rfl
  rcases hk with hk | hk
  · by_cases hv : s.val.toNat < 2 ^ (8 * d.width)
    · obtain rfl := Except.ok.inj ((fieldBytes_int_fits hk hv).symm.trans hbs)
      have hv' : s.val.toNat < 256 ^ d.width := by rwa [Nat.pow_mul] at hv
      rw [readField_int hk, hread, memRead_memWrite_of_length s d.off (length_leBytes _ _), le_leBytes _ _ hv',
        BitVec.ofNat_toNat, BitVec.setWidth_eq]
    · rw [fieldBytes_int_tooLarge hk (not_lt.mp hv)] at hbs
      cases hbs
  · by_cases hv : s.val.toNat < 2 ^ d.bwidth
    · have hfit := bshift_add_bwidth_le_of_descOk_bits hok hk
      obtain rfl := Except.ok.inj ((fieldBytes_bits_fits hk hv).symm.trans hbs)
      have hcontainer := container_after_set hfit hv
      rw [container] at hcontainer
      rw [readField_bits hk, hread, hcontainer, bitField_putBitField _ hfit hv, BitVec.ofNat_toNat, BitVec.setWidth_eq]
    · rw [fieldBytes_bits_tooLarge hk (not_lt.mp hv)] at hbs
      cases hbs

/-- A run of units without the terminator, up to the field's end or the first terminator, is what is counted. -/
theorem unitsBeforeTerminator_eq {f : Nat → Byte} {a w n : Nat} (hn : n ≤ w)
    (hunits : ∀ k, k < n → ¬TerminatorAt f (a + 2 * k)) (hend : n < w → TerminatorAt f (a + 2 * n)) :
    unitsBeforeTerminator (readRun f a (2 * w)) = n := by
  have hle : 2 * unitsBeforeTerminator (readRun f a (2 * w)) ≤ 2 * w := by
    simpa using unitsBeforeTerminator_le (readRun f a (2 * w))
  rcases Nat.lt_trichotomy (unitsBeforeTerminator (readRun f a (2 * w))) n with hlt | heq | hgt
  · exact absurd (terminatorAt_of_unitsBeforeTerminator_lt f a w (by omega)) (hunits _ hlt)
  · exact heq
  · exact absurd (hend (by omega)) (not_terminatorAt_of_lt f a w n hgt)

/-- The units SET wrote are those GET counts, when none of them is the terminator. -/
theorem unitsBeforeTerminator_set_str (s : State) (d : Desc)
    (hunits : ∀ k, k < unitsSet s d → ¬TerminatorAt s.auxByte (2 * k)) :
    unitsBeforeTerminator (memRead (memWrite s d.off (stringBytes s d)) d.off (2 * d.width)) = unitsSet s d := by
  have hle : unitsSet s d ≤ d.width := Nat.min_le_right _ _
  refine unitsBeforeTerminator_eq hle (fun k hk => ?_) (fun hlt => ?_)
  · have hlow := recByte_set_str s d (a := 2 * k) (by omega)
    have hhigh := recByte_set_str s d (a := 2 * k + 1) (by omega)
    rw [if_pos (by omega)] at hlow hhigh
    rw [TerminatorAt, hlow, Nat.add_assoc, hhigh]
    exact hunits k hk
  · have hlow := recByte_set_str s d (a := 2 * unitsSet s d) (by omega)
    have hhigh := recByte_set_str s d (a := 2 * unitsSet s d + 1) (by omega)
    rw [if_neg (by omega), if_pos (.inr (by omega))] at hlow hhigh
    exact ⟨hlow, by rwa [Nat.add_assoc]⟩

/-- GET that reads a block of `n` bytes which SET took from `AUX` gives them back. -/
theorem get_block_returns {s u : State} {off n : Nat} (hn : s.alen.toNat = n)
    (hbytes : ∀ a, a < n → u.recByte (off + a) = s.auxByte a) :
    deliver u (.block (memRead u off n)) =
        { u with auxBuf := (deliver u (.block (memRead u off n))).auxBuf, alen := s.alen } ∧
      ∀ a, (deliver u (.block (memRead u off n))).auxByte a =
        if a < s.alen.toNat then s.auxByte a else u.auxByte a := by
  have halen : BitVec.ofNat 16 n = s.alen := by rw [← hn, BitVec.ofNat_toNat, BitVec.setWidth_eq]
  refine ⟨?_, fun a => ?_⟩
  · rw [← halen]
    exact deliver_memRead_frame u off n
  · rw [auxByte_deliver_memRead, hn]
    by_cases ha : a < n
    · rw [if_pos ha, if_pos ha, hbytes a ha]
    · rw [if_neg ha, if_neg ha]

theorem get_after_set_raw {s : State} {h : Header} {fid : BitVec 16} {d : Desc} {bs : List Byte}
    (hf : FieldReady s h fid d) (hk : d.dkind = .raw) (hbs : fieldBytes s d = .ok bs) (v : Word) (n : BitVec 16)
    (aux : Memory) :
    ∃ u, exec (.get fid) (afterSet s d.off bs v n aux) = .next u ∧
      u = { afterSet s d.off bs v n aux with auxBuf := u.auxBuf, alen := s.alen } ∧
      ∀ a, u.auxByte a = if a < s.alen.toNat then s.auxByte a else (afterSet s d.off bs v n aux).auxByte a := by
  by_cases hlen : s.alen.toNat = d.width
  · obtain rfl := Except.ok.inj ((fieldBytes_raw_exact hk hlen).symm.trans hbs)
    have hget := exec_get_of_fieldReady (fieldReady_afterSet hf (auxRead s 0 d.width) v n aux)
    rw [readField_raw hk] at hget
    refine ⟨_, hget, get_block_returns hlen fun a ha => ?_⟩
    have hbyte := recByte_memWrite_auxRead s d.off d.width (d.off + a)
    rw [if_pos (by omega), Nat.add_sub_cancel_left] at hbyte
    exact hbyte
  · rw [fieldBytes_raw_otherLength hk hlen] at hbs
    cases hbs

theorem get_after_set_str {s : State} {h : Header} {fid : BitVec 16} {d : Desc} {bs : List Byte}
    (hf : FieldReady s h fid d) (hk : d.dkind = .str) (hbs : fieldBytes s d = .ok bs) (v : Word) (n : BitVec 16)
    (aux : Memory) (hshort : s.alen.toNat ≤ 2 * d.width)
    (hunits : ∀ k, 2 * k < s.alen.toNat → ¬TerminatorAt s.auxByte (2 * k)) :
    ∃ u, exec (.get fid) (afterSet s d.off bs v n aux) = .next u ∧
      u = { afterSet s d.off bs v n aux with auxBuf := u.auxBuf, alen := s.alen } ∧
      ∀ a, u.auxByte a = if a < s.alen.toNat then s.auxByte a else (afterSet s d.off bs v n aux).auxByte a := by
  by_cases hlen : s.alen.toNat % 2 = 0 ∧ s.alen.toNat ≤ s.cfg.auxMax
  · obtain rfl := Except.ok.inj ((fieldBytes_str_fits hk hlen).symm.trans hbs)
    have hmin : unitsSet s d = min (s.alen.toNat / 2) d.width := rfl
    have hall : s.alen.toNat = 2 * unitsSet s d := by omega
    have hcount := unitsBeforeTerminator_set_str s d fun k hk => hunits k (by omega)
    have hread : memRead (afterSet s d.off (stringBytes s d) v n aux) d.off (2 * d.width) =
        memRead (memWrite s d.off (stringBytes s d)) d.off (2 * d.width) := rfl
    have hget := exec_get_of_fieldReady (fieldReady_afterSet hf (stringBytes s d) v n aux)
    rw [readField_str hk, hread, hcount] at hget
    refine ⟨_, hget, get_block_returns hall fun a ha => ?_⟩
    have hbyte := recByte_set_str s d (a := a) (by omega)
    rw [if_pos ha] at hbyte
    exact hbyte
  · rw [fieldBytes_str_badLength hk (by omega)] at hbs
    cases hbs

/-- Settles O40: SET has written the field's bytes, and GET reads each operand form back from them. -/
theorem getAfterSetReturnsValue : Obligations.GetAfterSetReturnsValue := by
  intro s t t' h fid d v n aux hf hset ht ht'
  obtain ⟨bs, hbs, rfl⟩ := fieldBytes_of_exec_set hf hset ht
  subst ht'
  refine ⟨fun hk => ?_, fun hk => get_after_set_raw hf hk hbs v n aux,
    fun hk hshort hunits => get_after_set_str hf hk hbs v n aux hshort hunits⟩
  have hnumber := readField_afterSet_number (descOk_of_fieldReady hf) hk hbs v n aux
  rw [exec_get_of_fieldReady (fieldReady_afterSet hf bs v n aux), hnumber, deliver]

end Sys2Proof.Machine
end

section
/-! The values of byte strings (R7 of `00_scope.md`), as weighted sums of their bytes. -/

namespace Sys2Proof.Machine

theorem le_append (a b : List Byte) : le (a ++ b) = le a + 256 ^ a.length * le b := by
  induction a with
  | nil => simp [le]
  | cons x a ih =>
    simp only [List.cons_append, le, ih, List.length_cons, Nat.pow_succ]
    ring

/-- Another byte in front is the least significant of `le`, and shifts the others. -/
theorem le_eq_weighted_sum (s : List Byte) :
    le s = ((List.range s.length).map fun i => (s.getD i 0).toNat * 256 ^ i).sum := by
  induction s with
  | nil => rfl
  | cons b bs ih =>
    have hshift : (fun i => ((b :: bs).getD i 0).toNat * 256 ^ i) ∘ Nat.succ =
        fun i => 256 * ((bs.getD i 0).toNat * 256 ^ i) := by
      funext i
      simp only [Function.comp_apply, List.getD_cons_succ, Nat.pow_succ]
      ring
    rw [le, ih, List.length_cons, List.range_succ_eq_map, List.map_cons, List.map_map, hshift, List.sum_cons,
      List.sum_map_mul_left]
    simp

/-- Another byte in front is the most significant of `be`. -/
theorem be_cons (b : Byte) (bs : List Byte) : be (b :: bs) = b.toNat * 256 ^ bs.length + be bs := by
  simp only [be, List.reverse_cons, le_append, le, List.length_reverse]
  ring

theorem be_eq_weighted_sum (s : List Byte) :
    be s = ((List.range s.length).map fun i => (s.getD i 0).toNat * 256 ^ (s.length - 1 - i)).sum := by
  induction s with
  | nil => rfl
  | cons b bs ih =>
    have hshift : (fun i => ((b :: bs).getD i 0).toNat * 256 ^ (bs.length + 1 - 1 - i)) ∘ Nat.succ =
        fun i => (bs.getD i 0).toNat * 256 ^ (bs.length - 1 - i) := by
      funext i
      simp only [Function.comp_apply, List.getD_cons_succ, Nat.succ_eq_add_one]
      rw [show bs.length + 1 - 1 - (i + 1) = bs.length - 1 - i by omega]
    rw [be_cons, ih, List.length_cons, List.range_succ_eq_map, List.map_cons, List.map_map, hshift, List.sum_cons]
    simp

/-- Settles O60: both sums by induction on the string. -/
theorem byteStringValues : Obligations.ByteStringValues := fun s => ⟨le_eq_weighted_sum s, be_eq_weighted_sum s⟩

end Sys2Proof.Machine
end

section
/-! SERIALIZE and CHECK (R112 of `41_record_codec.md`, R121 of `42_checksum.md`). -/

namespace Sys2Proof.Machine

/-- The state SERIALIZE leaves on a bound record of schema `h`. -/
abbrev serialized (s : State) (h : Header) : State :=
  { memWrite s 6 (leBytes 2 (payloadSum s h).toNat) with cksum := payloadSum s h }

theorem exec_serialize_of_ready {s : State} {h : Header} (hr : Ready s) (hhd : boundHeader s = some h) :
    exec .serialize s = .next (serialized s h) := by
  obtain ⟨hs, hb⟩ := hr
  rw [exec, execSerialize, performBound_ready hs hb hhd, conclude]

theorem exec_check_of_ready {s : State} {h : Header} (hr : Ready s) (hhd : boundHeader s = some h) :
    exec .check s = .next { s with cksum := payloadSum s h, ckok := payloadSum s h == storedChecksum s } := by
  obtain ⟨hs, hb⟩ := hr
  rw [exec, execCheck, performBound_ready hs hb hhd, conclude]

/-- A 16-bit value in two bytes is the value again. -/
theorem le_leBytes_two (v : BitVec 16) : le (leBytes 2 v.toNat) = v.toNat := by
  have hlt := v.isLt
  exact le_leBytes 2 v.toNat (by omega)

/-- Two bytes of `REC` have a value that the stored checksum's 16 bits hold. -/
theorem toNat_storedChecksum (s : State) : (storedChecksum s).toNat = le (memRead s 6 2) := by
  have hlt := le_lt (memRead s 6 2)
  rw [length_memRead] at hlt
  rw [storedChecksum, BitVec.toNat_ofNat, Nat.mod_eq_of_lt (by omega)]

theorem le_memRead_serialized (s : State) (h : Header) :
    le (memRead (serialized s h) 6 2) = (payloadSum s h).toNat := by
  have hread : memRead (serialized s h) 6 2 = leBytes 2 (payloadSum s h).toNat :=
    memRead_memWrite_of_length s 6 (length_leBytes _ _)
  rw [hread, le_leBytes_two]

/-- Settles O43: two bytes are written over 6 and 7, and their value is the sum. -/
theorem serializeStoresPayloadSum : Obligations.SerializeStoresPayloadSum := by
  intro s h hr hhd
  refine ⟨_, exec_serialize_of_ready hr hhd, rfl, le_memRead_serialized s h, fun a h6 h7 => ?_⟩
  exact recByte_memWrite_outside s 6 a _ (by rw [length_leBytes]; omega)

/-- Settles O44: 16-bit values are equal when their numbers are. -/
theorem checkComparesWithoutError : Obligations.CheckComparesWithoutError := by
  intro s h hr hhd
  have hequal : (payloadSum s h == storedChecksum s) =
      decide ((payloadSum s h).toNat = le (memRead s 6 2)) := by
    rw [← toNat_storedChecksum, Bool.eq_iff_iff, beq_iff_eq, decide_eq_true_iff, BitVec.toNat_inj]
  rw [exec_check_of_ready hr hhd, hequal, payloadSum]

/-- SERIALIZE writes no byte of the payload, so the sum stays. -/
theorem payloadSum_serialized (s : State) (h : Header) : payloadSum (serialized s h) h = payloadSum s h := by
  have hread : memRead (serialized s h) 8 (h.payEnd - 8) = memRead s 8 (h.payEnd - 8) :=
    memRead_memWrite_apart s 6 8 _ _ (.inr (by simp))
  rw [payloadSum, hread, ← payloadSum]

theorem storedChecksum_serialized (s : State) (h : Header) : storedChecksum (serialized s h) = payloadSum s h := by
  rw [← BitVec.toNat_inj, toNat_storedChecksum, le_memRead_serialized]

/-- Settles O45: the sum CHECK takes is the one SERIALIZE stored. -/
theorem checkAfterSerializeSucceeds : Obligations.CheckAfterSerializeSucceeds := by
  intro s h hr hhd
  have hheader : boundHeader (serialized s h) = boundHeader s := boundHeader_congr rfl rfl rfl
  refine ⟨serialized s h, _, exec_serialize_of_ready hr hhd, exec_check_of_ready hr (hheader.trans hhd), ?_,
    payloadSum_serialized s h, hr.1⟩
  simp only [payloadSum_serialized, storedChecksum_serialized, beq_self_eq_true]

end Sys2Proof.Machine
end

section
/-! The block shuffle (R134 to R137 of `43_cipher.md`): a shift permutes the four blocks of the padded string by its row
of the order table, so what the shuffles do to each other is what the rows do. -/

namespace Sys2Proof.Machine

/-- The order of a shift, its row of the table (R135). -/
abbrev orderOf (t : Nat) : List Nat := blockOrders.getD t []

theorem orderOf_perm {t : Nat} (ht : t < 24) : (orderOf t).Perm [0, 1, 2, 3] := by
  have hall : ∀ t, t < 24 → (orderOf t).Perm [0, 1, 2, 3] := by decide
  exact hall t ht

theorem length_orderOf {t : Nat} (ht : t < 24) : (orderOf t).length = 4 := (orderOf_perm ht).length_eq

theorem lt_of_mem_orderOf {t k : Nat} (ht : t < 24) (hk : k ∈ orderOf t) : k < 4 := by
  have hmem : k ∈ [0, 1, 2, 3] := (orderOf_perm ht).mem_iff.mp hk
  simp at hmem
  omega

/-! Blocks. -/

/-- The length of each block of a byte string (R134). -/
def blockLength (b : List Byte) : Nat := (pad4 b).length / 4

theorem four_mul_blockLength (b : List Byte) : 4 * blockLength b = (pad4 b).length := by
  have := length_pad4_mod b
  rw [blockLength]
  omega

theorem blockOf_eq (b : List Byte) (k : Nat) :
    blockOf b k = ((pad4 b).drop (k * blockLength b)).take (blockLength b) := rfl

theorem length_blockOf (b : List Byte) {k : Nat} (hk : k < 4) : (blockOf b k).length = blockLength b := by
  have hlen := four_mul_blockLength b
  have hroom : k * blockLength b + blockLength b ≤ 4 * blockLength b := by
    rw [← Nat.succ_mul]
    exact Nat.mul_le_mul_right _ hk
  rw [blockOf_eq, List.length_take, List.length_drop]
  omega

theorem fourBlocks_eq (b : List Byte) :
    fourBlocks (blockLength b) (pad4 b) = [blockOf b 0, blockOf b 1, blockOf b 2, blockOf b 3] := by
  simp [fourBlocks, blockOf_eq]

/-- The digits of a shift pop four blocks in the shift's order (R133, R135). -/
theorem popAll_digits {t : Nat} (ht : t < 24) (f : Nat → List Byte) :
    popAll (digits t) [f 0, f 1, f 2, f 3] = ((orderOf t).map f).flatten := by
  interval_cases t <;> rfl

theorem popSeq_eq_flatten {t : Nat} (ht : t < 24) (b : List Byte) :
    popSeq t b = ((orderOf t).map (blockOf b)).flatten := by
  rw [popSeq, ← blockLength, fourBlocks_eq, popAll_digits ht]

/-- Settles O47: the shuffle by the digits is the order of the table, whose rows are 24 different permutations. -/
theorem shuffleFollowsOrderTable : Obligations.ShuffleFollowsOrderTable :=
  ⟨fun _ b ht => popSeq_eq_flatten ht b, rfl, by decide, by decide⟩

/-- The four blocks in their own order are the padded string. -/
theorem flatten_blocks (b : List Byte) : (([0, 1, 2, 3] : List Nat).map (blockOf b)).flatten = pad4 b := by
  have hlen := four_mul_blockLength b
  have hsplit (k : Nat) :
      blockOf b k ++ (pad4 b).drop ((k + 1) * blockLength b) = (pad4 b).drop (k * blockLength b) := by
    rw [Nat.succ_mul, ← List.drop_drop, blockOf_eq, List.take_append_drop]
  have hend : (pad4 b).drop ((3 + 1) * blockLength b) = [] := List.drop_eq_nil_of_le (by omega)
  calc (([0, 1, 2, 3] : List Nat).map (blockOf b)).flatten
      = blockOf b 0 ++ (blockOf b 1 ++ (blockOf b 2 ++ (blockOf b 3 ++ (pad4 b).drop ((3 + 1) * blockLength b)))) := by
        rw [hend]
        rfl
    _ = pad4 b := by rw [hsplit 3, hsplit 2, hsplit 1, hsplit 0, Nat.zero_mul, List.drop_zero]

/-- Part `k` of a concatenation of parts of one length. -/
theorem take_drop_flatten {n : Nat} {f : Nat → List Byte} (o : List Nat) (hf : ∀ j ∈ o, (f j).length = n) {k : Nat}
    (hk : k < o.length) : (((o.map f).flatten).drop (k * n)).take n = f (o.getD k 0) := by
  induction o generalizing k with
  | nil => exact absurd hk (Nat.not_lt_zero k)
  | cons j o ih =>
    have hj : (f j).length = n := hf j (List.mem_cons_self ..)
    rw [List.map_cons, List.flatten_cons]
    cases k with
    | zero =>
      rw [Nat.zero_mul, List.drop_zero, List.take_left' hj]
      rfl
    | succ k =>
      rw [Nat.succ_mul, Nat.add_comm, ← List.drop_drop, List.drop_left' hj, List.getD_cons_succ]
      exact ih (fun i hi => hf i (List.mem_cons_of_mem _ hi)) (Nat.lt_of_succ_lt_succ hk)

/-! Shuffles of shuffles. -/

theorem pad4_pad4 (b : List Byte) : pad4 (pad4 b) = pad4 b := pad4_of_mod _ (length_pad4_mod b)

theorem pad4_popSeq {t : Nat} (ht : t < 24) (b : List Byte) : pad4 (popSeq t b) = popSeq t b :=
  pad4_of_mod _ (by rw [length_popSeq t ht]; exact length_pad4_mod b)

@[simp] theorem popSeq_pad4 (t : Nat) (b : List Byte) : popSeq t (pad4 b) = popSeq t b := by
  rw [popSeq, popSeq, pad4_pad4]

/-- Block `k` of a shuffled string is the block that stands there in the shift's order. -/
theorem blockOf_popSeq {t k : Nat} (ht : t < 24) (hk : k < 4) (b : List Byte) :
    blockOf (popSeq t b) k = blockOf b ((orderOf t).getD k 0) := by
  have hn : blockLength (popSeq t b) = blockLength b := by
    rw [blockLength, pad4_popSeq ht, length_popSeq t ht, blockLength]
  have hf : ∀ j ∈ orderOf t, (blockOf b j).length = blockLength b := fun j hj =>
    length_blockOf b (lt_of_mem_orderOf ht hj)
  rw [blockOf_eq, hn, pad4_popSeq ht, popSeq_eq_flatten ht, take_drop_flatten _ hf (by rwa [length_orderOf ht])]

/-- One shuffle after another takes the blocks in the order of the one, read in the order of the other. -/
theorem popSeq_popSeq {t u : Nat} (ht : t < 24) (hu : u < 24) (b : List Byte) :
    popSeq u (popSeq t b) =
      (((orderOf u).map fun k => (orderOf t).getD k 0).map (blockOf b)).flatten := by
  rw [popSeq_eq_flatten hu, List.map_map]
  congr 1
  exact List.map_congr_left fun k hk => blockOf_popSeq ht (lt_of_mem_orderOf hu hk) b

/-- The rows of a shift and of its entry in `INV` undo each other, in either order (R136). -/
theorem orderOf_invTable {t : Nat} (ht : t < 24) :
    (orderOf (invTable.getD t 0)).map (fun k => (orderOf t).getD k 0) = [0, 1, 2, 3] ∧
      (orderOf t).map (fun k => (orderOf (invTable.getD t 0)).getD k 0) = [0, 1, 2, 3] := by
  have hall : ∀ t, t < 24 →
      (orderOf (invTable.getD t 0)).map (fun k => (orderOf t).getD k 0) = [0, 1, 2, 3] ∧
        (orderOf t).map (fun k => (orderOf (invTable.getD t 0)).getD k 0) = [0, 1, 2, 3] := by decide
  exact hall t ht

/-- Un-shuffling undoes shuffling, up to the zero-pad. -/
theorem unshuffle_popSeq {t : Nat} (ht : t < 24) (b : List Byte) : unshuffle t (popSeq t b) = pad4 b := by
  obtain ⟨hinv, -⟩ := orderOf_invTable ht
  rw [unshuffle, popSeq_popSeq ht (invTable_lt t), hinv, flatten_blocks]

/-- Shuffling undoes un-shuffling, up to the zero-pad. -/
theorem popSeq_unshuffle {t : Nat} (ht : t < 24) (b : List Byte) : popSeq t (unshuffle t b) = pad4 b := by
  obtain ⟨-, hinv⟩ := orderOf_invTable ht
  rw [unshuffle, popSeq_popSeq (invTable_lt t) ht, hinv, flatten_blocks]

/-- Settles O49: the two laws, and the spec's worked example. -/
theorem unshuffleInvertsShuffle : Obligations.UnshuffleInvertsShuffle :=
  ⟨fun _ b ht => ⟨rfl, unshuffle_popSeq ht b, popSeq_unshuffle ht b⟩, by decide, by decide, by decide⟩

/-- No two shifts order the string 0, 1, 2, 3 alike. -/
theorem popSeq_injective {t u : Nat} (ht : t < 24) (hu : u < 24) (h : ∀ b, popSeq t b = popSeq u b) : t = u := by
  have hall : ∀ t, t < 24 → ∀ u, u < 24 → popSeq t [0, 1, 2, 3] = popSeq u [0, 1, 2, 3] → t = u := by decide +kernel
  exact hall t ht u hu (h _)

/-- A shift that undoes `t` on every string does what the inverse shift of `t` does, and so is it. -/
theorem eq_invTable_of_undoes {t u : Nat} (ht : t < 24) (hu : u < 24) (h : ∀ b, popSeq u (popSeq t b) = pad4 b) :
    invTable.getD t 0 = u := by
  refine popSeq_injective (invTable_lt t) hu fun b => ?_
  calc popSeq (invTable.getD t 0) b = pad4 (unshuffle t b) := (pad4_popSeq (invTable_lt t) b).symm
    _ = popSeq u (popSeq t (unshuffle t b)) := (h _).symm
    _ = popSeq u b := by rw [popSeq_unshuffle ht, popSeq_pad4]

/-- Settles O48: the inverse shift undoes its shift, only one shift can, and the table is a closed list. -/
theorem inverseTableIsTheOnlyOne : Obligations.InverseTableIsTheOnlyOne := by
  refine ⟨fun t u ht hu => ⟨eq_invTable_of_undoes ht hu, ?_⟩, by decide, by decide⟩
  rintro rfl b
  exact unshuffle_popSeq ht b

end Sys2Proof.Machine
end

section
/-! The laws of the sum (section 1 of `42_checksum.md`). -/

namespace Sys2Proof.Machine

/-- The sum of a string of whole words and of what follows it. -/
theorem sum16_append {a : List Byte} (ha : a.length % 2 = 0) (b : List Byte) : sum16 (a ++ b) = sum16 a + sum16 b := by
  induction a using List.twoStepInduction with
  | nil => simp
  | singleton x => simp at ha
  | cons_cons lo hi a ih _ =>
    rw [List.cons_append, List.cons_append, sum16_cons_cons, sum16_cons_cons, ih (by simp at ha; omega), add_assoc]

/-- A zero appended completes the last word or is one more word of value 0. -/
theorem sum16_append_zero (b : List Byte) : sum16 (b ++ [0]) = sum16 b := by
  induction b using List.twoStepInduction with
  | nil => rfl
  | singleton x => simp [sum16_cons_cons]
  | cons_cons lo hi b ih _ => rw [List.cons_append, List.cons_append, sum16_cons_cons, sum16_cons_cons, ih]

theorem sum16_append_zeros (b : List Byte) (k : Nat) : sum16 (b ++ zeros k) = sum16 b := by
  induction k with
  | zero => simp [zeros]
  | succ k ih => rw [zeros, List.replicate_succ', ← List.append_assoc, sum16_append_zero, ← zeros, ih]

theorem sum16_pad4 (b : List Byte) : sum16 (pad4 b) = sum16 b := sum16_append_zeros b _

/-- The sum of parts of whole words is the sum of their sums. -/
theorem sum16_flatten {parts : List (List Byte)} (heven : ∀ p ∈ parts, p.length % 2 = 0) :
    sum16 parts.flatten = (parts.map sum16).sum := by
  induction parts with
  | nil => rfl
  | cons p parts ih =>
    rw [List.flatten_cons, sum16_append (heven p (List.mem_cons_self ..)),
      ih fun q hq => heven q (List.mem_cons_of_mem _ hq), List.map_cons, List.sum_cons]

/-- Blocks of even length keep the sum in any order. -/
theorem sum16_popSeq {t : Nat} (ht : t < 24) {b : List Byte} (hb : b.length % 8 = 0) :
    sum16 (popSeq t b) = sum16 b := by
  have heven (o : List Nat) (ho : ∀ k ∈ o, k < 4) : ∀ p ∈ o.map (blockOf b), p.length % 2 = 0 := by
    intro p hp
    obtain ⟨k, hk, rfl⟩ := List.mem_map.mp hp
    have hpad : pad4 b = b := pad4_of_mod b (by omega)
    rw [length_blockOf b (ho k hk), blockLength, hpad]
    omega
  have hperm : (((orderOf t).map (blockOf b)).map sum16).Perm ((([0, 1, 2, 3] : List Nat).map (blockOf b)).map sum16) :=
    ((orderOf_perm ht).map _).map _
  rw [popSeq_eq_flatten ht, sum16_flatten (heven _ fun _ => lt_of_mem_orderOf ht), hperm.sum_eq,
    ← sum16_flatten (heven _ (by simp)), flatten_blocks, sum16_pad4]

/-- Settles O42: the sum is additive over whole words, and the rest are closed values. -/
theorem sumLaws : Obligations.SumLaws := by
  refine ⟨fun a b ha hb => ⟨?_, sum16_append ha b⟩, fun t b ht hb => sum16_popSeq ht hb, by decide, by decide,
    by decide, by decide, by decide, sum16_append_zeros⟩
  rw [sum16_append ha, sum16_append hb, add_comm]

end Sys2Proof.Machine
end

section
/-! The keyed stream (R138, R139 of `43_cipher.md`). -/

namespace Sys2Proof.Machine

theorem toNat_lcgNext (s : BitVec 32) : (lcgNext s).toNat = (0x41C64E6D * s.toNat + 0x6073) % 2 ^ 32 := by
  have hmul : (0x41C64E6D : BitVec 32).toNat = 0x41C64E6D := by decide
  have hadd : (0x6073 : BitVec 32).toNat = 0x6073 := by decide
  rw [lcgNext, BitVec.toNat_add, BitVec.toNat_mul, Nat.mod_add_mod, hmul, hadd]

/-- The stream from a seed advanced once is the stream one word further on. -/
theorem lcgState_lcgNext (seed : BitVec 32) (n : Nat) : lcgState (lcgNext seed) n = lcgState seed (n + 1) := by
  induction n with
  | zero => simp only [lcgState]
  | succ n ih => rw [lcgState, ih, ← lcgState]

/-- The stream undoes itself, from the same seed. -/
@[simp] theorem lcgXor_lcgXor (seed : BitVec 32) (b : List Byte) : lcgXor seed (lcgXor seed b) = b := by
  induction b using List.twoStepInduction generalizing seed with
  | nil => rfl
  | singleton x => rfl
  | cons_cons lo hi b ih _ => simp [lcgXor, ih]

/-- The two bytes of word `i`, each exclusive-ored with its byte of the generator's state after `i + 1` advances. -/
theorem getD_lcgXor (seed : BitVec 32) (b : List Byte) (i : Nat) (hi : 2 * i + 1 < b.length) :
    (lcgXor seed b).getD (2 * i) 0 = b.getD (2 * i) 0 ^^^ (lcgState seed (i + 1)).extractLsb' 16 8 ∧
      (lcgXor seed b).getD (2 * i + 1) 0 = b.getD (2 * i + 1) 0 ^^^ (lcgState seed (i + 1)).extractLsb' 24 8 := by
  induction b using List.twoStepInduction generalizing seed i with
  | nil => simp at hi
  | singleton x => simp at hi
  | cons_cons lo hi' b ih _ =>
    cases i with
    | zero => simp [lcgXor, lcgState]
    | succ i =>
      have hrest := ih (lcgNext seed) i (by simp at hi; omega)
      rw [lcgState_lcgNext] at hrest
      simpa [lcgXor, Nat.mul_add] using hrest

/-- Settles O50: the generator in numbers, and the stream by induction over the words. -/
theorem streamIsKeyedAndSelfInverse : Obligations.StreamIsKeyedAndSelfInverse :=
  ⟨toNat_lcgNext, fun seed b _ => ⟨length_lcgXor seed b, lcgXor_lcgXor seed b, getD_lcgXor seed b⟩⟩

end Sys2Proof.Machine
end

section
/-! The four cipher commands (R140 to R144 of `43_cipher.md`): the state each leaves on a bound record is named once,
with its frame and its bytes. -/

namespace Sys2Proof.Machine

/-! The replacement of a region, as the commands use it. -/

theorem conclude_replaceRegion_fits {i : Instr} {s before : State} {a b g : Nat} {new : List Byte}
    (hg : new.length - (b - a) = g) (hfit : s.rlen.toNat + g ≤ s.cfg.recMax) :
    conclude i s (replaceRegion s before a b new) = .next (splice before a b new) := by
  subst hg
  rcases replaceRegion_eq s before a b new with ⟨-, hok⟩ | ⟨hout, -⟩
  · rw [hok, conclude]
  · omega

theorem conclude_replaceRegion_overflow {i : Instr} {s before : State} {a b g : Nat} {new : List Byte}
    (hg : new.length - (b - a) = g) (hout : s.cfg.recMax < s.rlen.toNat + g) :
    conclude i s (replaceRegion s before a b new) = .next (s.raise .outOfRange (encode i)) := by
  subst hg
  rcases replaceRegion_eq s before a b new with ⟨hfit, -⟩ | ⟨-, herr⟩
  · omega
  · rw [herr, conclude]

/-- A replaced region of a bound record changes `REC`, lengthens `RLEN` by the growth and unbinds where there is any. -/
theorem splice_frame {s : State} {a b g : Nat} {new : List Byte} (hb : s.bound = true)
    (hg : new.length - (b - a) = g) :
    splice s a b new =
      { s with recBuf := (splice s a b new).recBuf, bound := decide (g = 0)
               rlen := BitVec.ofNat 16 (s.rlen.toNat + g) } := by
  have hbound : (if 0 < g then false else s.bound) = decide (g = 0) := by
    by_cases h0 : g = 0
    · simp [h0, hb]
    · simp [h0, Nat.pos_of_ne_zero h0]
  subst hg
  rw [← hbound]
  rfl

/-- The bytes after a replaced region, where the header bytes before it may have been written too. -/
theorem recByte_splice_eq_replacedByte {s before : State} {head : Nat → Byte} {a b : Nat} {new : List Byte}
    (hbefore : ∀ x, before.recByte x = if x < a then head x else s.recByte x) (hrlen : before.rlen = s.rlen)
    (hab : a ≤ b) (hb : b ≤ s.rlen.toNat) (hnew : b - a ≤ new.length) (x : Nat) :
    (splice before a b new).recByte x = replacedByte s head a b new x := by
  rw [recByte_splice, hrlen, replacedByte]
  by_cases h1 : x < a
  · rw [if_neg (by omega), if_neg (by omega), if_pos h1, hbefore, if_pos h1]
  · by_cases h2 : x < a + new.length
    · rw [if_pos (by omega), if_neg h1, if_pos h2]
    · rw [if_neg (by omega), if_neg h1, if_neg h2]
      by_cases h3 : x < s.rlen.toNat + (new.length - (b - a))
      · rw [if_pos (by omega), if_pos h3, hbefore, if_neg (by omega)]
        congr 1
        omega
      · rw [if_neg (by omega), if_neg h3, hbefore, if_neg h1]

/-! The state after each command. -/

/-- The sum ENCRYPT stores: that of the shuffled payload. -/
abbrev encryptKey (s : State) (h : Header) : BitVec 16 := sum16 (shuffledRegion s 8 h.payEnd)

/-- The state in which ENCRYPT has written the header and `CKSUM`. -/
abbrev headWritten (s : State) (ck : BitVec 16) : State :=
  { memWrite (memWrite s 4 (zeros 2)) 6 (leBytes 2 ck.toNat) with cksum := ck }

/-- The state ENCRYPT leaves where the record fits. -/
def encrypted (s : State) (h : Header) : State :=
  splice (headWritten s (encryptKey s h)) 8 h.payEnd
    (lcgXor ((encryptKey s h).setWidth 32) (shuffledRegion s 8 h.payEnd))

/-- The state DECRYPT leaves where the record fits. -/
def decrypted (s : State) (h : Header) : State :=
  splice s 8 h.payEnd (decipheredRegion s ((storedChecksum s).setWidth 32) 8 h.payEnd)

/-- The state TENCRYPT leaves where the record fits. -/
def tencrypted (s : State) (h : Header) : State :=
  splice { s with cksum := sum16 (shuffledRegion s h.payEnd h.tailEnd) } h.payEnd h.tailEnd
    (lcgXor (personality s) (shuffledRegion s h.payEnd h.tailEnd))

/-- The state TDECRYPT leaves where the record fits. -/
def tdecrypted (s : State) (h : Header) : State :=
  splice s h.payEnd h.tailEnd (decipheredRegion s (personality s) h.payEnd h.tailEnd)

/-! What each command does on a bound record: it leaves that state where the record fits, else raises `OutOfRange`. -/

theorem exec_encrypt {s : State} {h : Header} (hr : Ready s) (hhd : boundHeader s = some h) :
    (s.rlen.toNat + growth (h.payEnd - 8) ≤ s.cfg.recMax → exec .encrypt s = .next (encrypted s h)) ∧
      (s.cfg.recMax < s.rlen.toNat + growth (h.payEnd - 8) →
        exec .encrypt s = .next { s with err := 2, errinfo := 0x0000000A }) := by
  obtain ⟨hs, hb⟩ := hr
  rw [exec, execEncrypt, performBound_ready hs hb hhd]
  exact ⟨conclude_replaceRegion_fits (growth_of_shuffled _ _ _ _),
    conclude_replaceRegion_overflow (growth_of_shuffled _ _ _ _)⟩

theorem exec_decrypt {s : State} {h : Header} (hr : Ready s) (hhd : boundHeader s = some h) :
    (s.rlen.toNat + growth (h.payEnd - 8) ≤ s.cfg.recMax → exec .decrypt s = .next (decrypted s h)) ∧
      (s.cfg.recMax < s.rlen.toNat + growth (h.payEnd - 8) →
        exec .decrypt s = .next { s with err := 2, errinfo := 0x0000000B }) := by
  obtain ⟨hs, hb⟩ := hr
  rw [exec, execDecrypt, performBound_ready hs hb hhd]
  exact ⟨conclude_replaceRegion_fits (growth_of_deciphered _ _ _ _),
    conclude_replaceRegion_overflow (growth_of_deciphered _ _ _ _)⟩

theorem exec_tencrypt {s : State} {h : Header} (hr : Ready s) (hhd : boundHeader s = some h) :
    (s.rlen.toNat + growth (h.tailEnd - h.payEnd) ≤ s.cfg.recMax → exec .tencrypt s = .next (tencrypted s h)) ∧
      (s.cfg.recMax < s.rlen.toNat + growth (h.tailEnd - h.payEnd) →
        exec .tencrypt s = .next { s with err := 2, errinfo := 0x0000000C }) := by
  obtain ⟨hs, hb⟩ := hr
  rw [exec, execTencrypt, performBound_ready hs hb hhd]
  exact ⟨conclude_replaceRegion_fits (growth_of_shuffled _ _ _ _),
    conclude_replaceRegion_overflow (growth_of_shuffled _ _ _ _)⟩

theorem exec_tdecrypt {s : State} {h : Header} (hr : Ready s) (hhd : boundHeader s = some h) :
    (s.rlen.toNat + growth (h.tailEnd - h.payEnd) ≤ s.cfg.recMax → exec .tdecrypt s = .next (tdecrypted s h)) ∧
      (s.cfg.recMax < s.rlen.toNat + growth (h.tailEnd - h.payEnd) →
        exec .tdecrypt s = .next { s with err := 2, errinfo := 0x0000000D }) := by
  obtain ⟨hs, hb⟩ := hr
  rw [exec, execTdecrypt, performBound_ready hs hb hhd]
  exact ⟨conclude_replaceRegion_fits (growth_of_deciphered _ _ _ _),
    conclude_replaceRegion_overflow (growth_of_deciphered _ _ _ _)⟩

/-! Lengths: a replaced region is at least as long as the region was. -/

theorem le_length_shuffled (s : State) (seed : BitVec 32) (a b : Nat) :
    b - a ≤ (lcgXor seed (shuffledRegion s a b)).length := by
  rw [length_lcgXor, length_shuffledRegion]
  omega

theorem le_length_deciphered (s : State) (seed : BitVec 32) (a b : Nat) :
    b - a ≤ (decipheredRegion s seed a b).length := by
  rw [length_decipheredRegion]
  omega

/-! The obligations. -/

/-- The header as ENCRYPT writes it, with `ck` the sum. -/
abbrev headByte (s : State) (ck : BitVec 16) (x : Nat) : Byte :=
  if x < 4 then s.recByte x else if x < 6 then 0 else (leBytes 2 ck.toNat).getD (x - 6) 0

theorem recByte_headWritten (s : State) (ck : BitVec 16) (x : Nat) :
    (headWritten s ck).recByte x = if x < 8 then headByte s ck x else s.recByte x := by
  have hbyte : (headWritten s ck).recByte x =
      (memWrite (memWrite s 4 (zeros 2)) 6 (leBytes 2 ck.toNat)).recByte x := rfl
  rw [hbyte, recByte_memWrite, recByte_memWrite, length_leBytes, length_zeros, getD_zeros]
  by_cases h6 : 6 ≤ x ∧ x < 6 + 2
  · rw [if_pos h6, if_pos (by omega), headByte, if_neg (by omega), if_neg (by omega)]
  · rw [if_neg h6]
    by_cases h4 : 4 ≤ x ∧ x < 4 + 2
    · rw [if_pos h4, if_pos (by omega), headByte, if_neg (by omega), if_pos (by omega)]
    · rw [if_neg h4]
      by_cases h8 : x < 8
      · rw [if_pos h8, headByte, if_pos (by omega)]
      · rw [if_neg h8]

/-- Settles O51: the header and `CKSUM` are written, then the payload is replaced. -/
theorem encryptTransformsPayload : Obligations.EncryptTransformsPayload := by
  rintro s h _ _ hr hhd rfl rfl
  obtain ⟨hfits, hout⟩ := exec_encrypt hr hhd
  obtain ⟨hpay, htail, hend, -⟩ := boundHeader_regions hhd
  refine ⟨fun hfit => ⟨_, hfits hfit, ?_, fun a => ?_⟩, hout⟩
  · exact splice_frame (s := headWritten s (encryptKey s h)) hr.2 (growth_of_shuffled _ _ _ _)
  · exact recByte_splice_eq_replacedByte (recByte_headWritten s _) rfl hpay (by omega) (le_length_shuffled _ _ _ _) a

/-- The seed of DECRYPT is the stored checksum, its upper half zero. -/
theorem setWidth_storedChecksum (s : State) :
    (storedChecksum s).setWidth 32 = BitVec.ofNat 32 (le (memRead s 6 2)) := by
  have hlt := (storedChecksum s).isLt
  rw [toNat_storedChecksum] at hlt
  rw [← BitVec.toNat_inj, BitVec.toNat_setWidth_of_le (by omega), toNat_storedChecksum, BitVec.toNat_ofNat,
    Nat.mod_eq_of_lt (by omega)]

theorem recByte_ite_self (s : State) (a x : Nat) : s.recByte x = if x < a then s.recByte x else s.recByte x :=
  (ite_self _).symm

/-- Settles O52: the payload is replaced and nothing is written before. -/
theorem decryptTransformsPayload : Obligations.DecryptTransformsPayload := by
  rintro s h _ hr hhd rfl
  obtain ⟨hfits, hout⟩ := exec_decrypt hr hhd
  obtain ⟨hpay, htail, hend, -⟩ := boundHeader_regions hhd
  rw [← setWidth_storedChecksum]
  refine ⟨fun hfit => ⟨_, hfits hfit, ?_, fun a => ?_⟩, hout⟩
  · exact splice_frame hr.2 (growth_of_deciphered _ _ _ _)
  · exact recByte_splice_eq_replacedByte (recByte_ite_self s 8) rfl hpay (by omega) (le_length_deciphered _ _ _ _) a

/-- Settles O53: `CKSUM` is written, then the tail is replaced. -/
theorem tencryptTransformsTail : Obligations.TencryptTransformsTail := by
  rintro s h _ _ hr hhd rfl rfl
  obtain ⟨hfits, hout⟩ := exec_tencrypt hr hhd
  obtain ⟨hpay, htail, hend, -⟩ := boundHeader_regions hhd
  refine ⟨fun hfit => ⟨_, hfits hfit, ?_, fun a => ?_⟩, hout⟩
  · exact splice_frame (s := { s with cksum := sum16 (shuffledRegion s h.payEnd h.tailEnd) }) hr.2
      (growth_of_shuffled _ _ _ _)
  · exact recByte_splice_eq_replacedByte (recByte_ite_self s h.payEnd) rfl htail hend (le_length_shuffled _ _ _ _) a

/-- Settles O54: the tail is replaced and nothing is written before. -/
theorem tdecryptTransformsTail : Obligations.TdecryptTransformsTail := by
  rintro s h _ _ hr hhd rfl rfl
  obtain ⟨hfits, hout⟩ := exec_tdecrypt hr hhd
  obtain ⟨hpay, htail, hend, -⟩ := boundHeader_regions hhd
  refine ⟨fun hfit => ⟨_, hfits hfit, ?_, fun a => ?_⟩, hout⟩
  · exact splice_frame hr.2 (growth_of_deciphered _ _ _ _)
  · exact recByte_splice_eq_replacedByte (recByte_ite_self s h.payEnd) rfl htail hend (le_length_deciphered _ _ _ _) a

end Sys2Proof.Machine
end

section
/-! The round trips (section 4 of `43_cipher.md`): where a region's length is a multiple of 4 a cipher command replaces
it in place, the record stays bound, and the primitives undo each other. -/

namespace Sys2Proof.Machine

/-! A region replaced in place. -/

/-- Two states hold a record alike but for its bytes: what a command asks of a bound record has the same answer. -/
def SameRecord (s t : State) : Prop :=
  t.err = s.err ∧ t.bound = s.bound ∧ t.rlen = s.rlen ∧ t.schsel = s.schsel ∧ t.cfg = s.cfg

theorem ready_of_sameRecord {s t : State} {h : Header} (hst : SameRecord s t) (hr : Ready s)
    (hhd : boundHeader s = some h) : Ready t ∧ boundHeader t = some h := by
  obtain ⟨herr, hbound, hrlen, hsel, hcfg⟩ := hst
  exact ⟨⟨herr.trans hr.1, hbound.trans hr.2⟩, (boundHeader_congr hcfg hsel hrlen).trans hhd⟩

theorem sameRecord_splice {s before : State} {a b : Nat} {new : List Byte} (hbefore : SameRecord s before)
    (hab : a ≤ b) (hlen : new.length = b - a) : SameRecord s (splice before a b new) := by
  obtain ⟨herr, hbound, hrlen, hsel, hcfg⟩ := hbefore
  obtain ⟨hrlen', hbound', -⟩ := splice_same_length before a b new hab hlen
  exact ⟨herr, hbound'.trans hbound, hrlen'.trans hrlen, hsel, hcfg⟩

theorem recByte_splice_inPlace {s : State} {a b : Nat} {new : List Byte} (hab : a ≤ b) (hlen : new.length = b - a)
    (x : Nat) : (splice s a b new).recByte x = if a ≤ x ∧ x < b then new.getD (x - a) 0 else s.recByte x := by
  obtain ⟨-, -, hbytes⟩ := splice_same_length s a b new hab hlen
  exact hbytes x

/-- A region replaced in place reads as the bytes it was replaced by. -/
theorem memRead_splice_inPlace {s : State} {a b : Nat} {new : List Byte} (hab : a ≤ b) (hlen : new.length = b - a) :
    memRead (splice s a b new) a (b - a) = new := by
  rw [← hlen]
  refine readRun_eq_of_getD _ _ _ fun i hi => ?_
  rw [recByte_splice_inPlace hab hlen, if_pos (by omega), Nat.add_sub_cancel_left]

/-- A range apart from a region replaced in place reads as before. -/
theorem memRead_splice_apart {s : State} {a b c n : Nat} {new : List Byte} (hab : a ≤ b) (hlen : new.length = b - a)
    (hapart : c + n ≤ a ∨ b ≤ c) : memRead (splice s a b new) c n = memRead s c n := by
  refine memRead_congr _ _ _ _ fun x hlo hhi => ?_
  rw [recByte_splice_inPlace hab hlen, if_neg (by omega)]

/-- A byte of a range is that of its read. -/
theorem getD_memRead (s : State) {a n x : Nat} (hlo : a ≤ x) (hhi : x < a + n) :
    (memRead s a n).getD (x - a) 0 = s.recByte x := by
  have hbyte := getD_readRun s.recByte a n (x - a) (by omega)
  rwa [show a + (x - a) = x by omega] at hbyte

theorem growth_eq_zero {n : Nat} (hn : n % 4 = 0) : growth n = 0 := by
  rw [growth, hn]

theorem length_shuffled_inPlace (s : State) (seed : BitVec 32) {a b : Nat} (hn : (b - a) % 4 = 0) :
    (lcgXor seed (shuffledRegion s a b)).length = b - a := by
  have hg := growth_of_shuffled s a b seed
  have hle := le_length_shuffled s seed a b
  rw [growth_eq_zero hn] at hg
  omega

theorem length_deciphered_inPlace (s : State) (seed : BitVec 32) {a b : Nat} (hn : (b - a) % 4 = 0) :
    (decipheredRegion s seed a b).length = b - a := by
  have hg := growth_of_deciphered s a b seed
  have hle := le_length_deciphered s seed a b
  rw [growth_eq_zero hn] at hg
  omega

/-! The primitives on a region: deciphering undoes shuffling and the stream, and the other way round, when the seed and
the personality value are the same. -/

theorem deciphered_of_shuffled {s t : State} {seed : BitVec 32} {a b : Nat} (hn : (b - a) % 4 = 0)
    (hpv : personality t = personality s) (hread : memRead t a (b - a) = lcgXor seed (shuffledRegion s a b)) :
    decipheredRegion t seed a b = memRead s a (b - a) := by
  have hpad : pad4 (lcgXor seed (shuffledRegion s a b)) = lcgXor seed (shuffledRegion s a b) :=
    pad4_of_mod _ (by rw [length_shuffled_inPlace s seed hn, hn])
  rw [decipheredRegion, hpv, hread, hpad, lcgXor_lcgXor, shuffledRegion, unshuffle_popSeq (shiftOf_lt _),
    pad4_of_mod _ (by rw [length_memRead, hn])]

theorem shuffled_of_deciphered {s t : State} {seed : BitVec 32} {a b : Nat} (hn : (b - a) % 4 = 0)
    (hpv : personality t = personality s) (hread : memRead t a (b - a) = decipheredRegion s seed a b) :
    shuffledRegion t a b = lcgXor seed (memRead s a (b - a)) := by
  have hpad : pad4 (memRead s a (b - a)) = memRead s a (b - a) := pad4_of_mod _ (by rw [length_memRead, hn])
  rw [shuffledRegion, hpv, hread, decipheredRegion, popSeq_unshuffle (shiftOf_lt _), hpad,
    pad4_of_mod _ (by rw [length_lcgXor, length_memRead, hn])]

theorem personality_congr {s t : State} (h : memRead t 0 4 = memRead s 0 4) : personality t = personality s := by
  rw [personality, personality, h]

/-! The payload commands in place. -/

section
variable {s : State} {h : Header} (hpay : 8 ≤ h.payEnd) (hn : (h.payEnd - 8) % 4 = 0)
include hpay hn

theorem sameRecord_encrypted : SameRecord s (encrypted s h) :=
  sameRecord_splice ⟨rfl, rfl, rfl, rfl, rfl⟩ hpay (length_shuffled_inPlace s _ hn)

theorem sameRecord_decrypted : SameRecord s (decrypted s h) :=
  sameRecord_splice ⟨rfl, rfl, rfl, rfl, rfl⟩ hpay (length_deciphered_inPlace s _ hn)

theorem recByte_encrypted (x : Nat) :
    (encrypted s h).recByte x =
      if 8 ≤ x ∧ x < h.payEnd then
        (lcgXor ((encryptKey s h).setWidth 32) (shuffledRegion s 8 h.payEnd)).getD (x - 8) 0
      else if x < 8 then headByte s (encryptKey s h) x else s.recByte x := by
  rw [encrypted, recByte_splice_inPlace hpay (length_shuffled_inPlace s _ hn), recByte_headWritten]

theorem recByte_decrypted (x : Nat) :
    (decrypted s h).recByte x =
      if 8 ≤ x ∧ x < h.payEnd then
        (decipheredRegion s ((storedChecksum s).setWidth 32) 8 h.payEnd).getD (x - 8) 0
      else s.recByte x := by
  rw [decrypted, recByte_splice_inPlace hpay (length_deciphered_inPlace s _ hn)]

theorem memRead_encrypted_payload :
    memRead (encrypted s h) 8 (h.payEnd - 8) =
      lcgXor ((encryptKey s h).setWidth 32) (shuffledRegion s 8 h.payEnd) :=
  memRead_splice_inPlace hpay (length_shuffled_inPlace s _ hn)

theorem memRead_decrypted_payload :
    memRead (decrypted s h) 8 (h.payEnd - 8) = decipheredRegion s ((storedChecksum s).setWidth 32) 8 h.payEnd :=
  memRead_splice_inPlace hpay (length_deciphered_inPlace s _ hn)

/-- ENCRYPT stores its sum, so that DECRYPT finds the seed it used. -/
theorem memRead_encrypted_sum : memRead (encrypted s h) 6 2 = leBytes 2 (encryptKey s h).toNat := by
  have hhead : memRead (headWritten s (encryptKey s h)) 6 2 = leBytes 2 (encryptKey s h).toNat :=
    memRead_memWrite_of_length (memWrite s 4 (zeros 2)) 6 (length_leBytes _ _)
  rw [encrypted, memRead_splice_apart hpay (length_shuffled_inPlace s _ hn) (.inl (by omega)), hhead]

theorem storedChecksum_encrypted : storedChecksum (encrypted s h) = encryptKey s h := by
  rw [← BitVec.toNat_inj, toNat_storedChecksum, memRead_encrypted_sum hpay hn, le_leBytes_two]

theorem personality_encrypted : personality (encrypted s h) = personality s := by
  refine personality_congr (memRead_congr _ _ _ _ fun x _ hx => ?_)
  rw [recByte_encrypted hpay hn, if_neg (by omega), if_pos (by omega), headByte, if_pos (by omega)]

theorem personality_decrypted : personality (decrypted s h) = personality s :=
  personality_congr (memRead_splice_apart hpay (length_deciphered_inPlace s _ hn) (.inl (by omega)))

/-- DECRYPT of the encrypted record works on the payload ENCRYPT found. -/
theorem deciphered_encrypted :
    decipheredRegion (encrypted s h) ((storedChecksum (encrypted s h)).setWidth 32) 8 h.payEnd =
      memRead s 8 (h.payEnd - 8) := by
  rw [storedChecksum_encrypted hpay hn]
  exact deciphered_of_shuffled hn (personality_encrypted hpay hn) (memRead_encrypted_payload hpay hn)

/-- ENCRYPT then DECRYPT: the header as ENCRYPT writes it, and every other byte as before. -/
theorem recByte_decrypted_encrypted (x : Nat) :
    (decrypted (encrypted s h) h).recByte x = if x < 8 then headByte s (encryptKey s h) x else s.recByte x := by
  rw [recByte_decrypted hpay hn, deciphered_encrypted hpay hn, recByte_encrypted hpay hn]
  by_cases hx : 8 ≤ x ∧ x < h.payEnd
  · rw [if_pos hx, if_neg (by omega)]
    exact getD_memRead s hx.1 (by omega)
  · rw [if_neg hx, if_neg hx]

/-- ENCRYPT of the decrypted record shuffles back to the payload under the stream. -/
theorem shuffled_decrypted :
    shuffledRegion (decrypted s h) 8 h.payEnd =
      lcgXor ((storedChecksum s).setWidth 32) (memRead s 8 (h.payEnd - 8)) :=
  shuffled_of_deciphered hn (personality_decrypted hpay hn) (memRead_decrypted_payload hpay hn)

end

/-- In place, every cipher command on a bound record completes. -/
theorem fits_of_growth_eq_zero {s : State} {h : Header} {n : Nat} (hhd : boundHeader s = some h) (hn : n % 4 = 0) :
    s.rlen.toNat + growth n ≤ s.cfg.recMax := by
  obtain ⟨-, -, -, hfit⟩ := boundHeader_regions hhd
  rw [growth_eq_zero hn]
  exact hfit

theorem exec_encrypt_inPlace {s : State} {h : Header} (hr : Ready s) (hhd : boundHeader s = some h)
    (hn : (h.payEnd - 8) % 4 = 0) : exec .encrypt s = .next (encrypted s h) :=
  (exec_encrypt hr hhd).1 (fits_of_growth_eq_zero hhd hn)

theorem exec_decrypt_inPlace {s : State} {h : Header} (hr : Ready s) (hhd : boundHeader s = some h)
    (hn : (h.payEnd - 8) % 4 = 0) : exec .decrypt s = .next (decrypted s h) :=
  (exec_decrypt hr hhd).1 (fits_of_growth_eq_zero hhd hn)

/-- A record after one payload command and another. -/
theorem sameRecord_trans {s t u : State} (hst : SameRecord s t) (htu : SameRecord t u) : SameRecord s u := by
  obtain ⟨h1, h2, h3, h4, h5⟩ := hst
  obtain ⟨k1, k2, k3, k4, k5⟩ := htu
  exact ⟨k1.trans h1, k2.trans h2, k3.trans h3, k4.trans h4, k5.trans h5⟩

/-- What the round trips say of the registers. -/
theorem registers_of_sameRecord {s u : State} (hsu : SameRecord s u) (hr : Ready s) :
    u.rlen = s.rlen ∧ u.bound = true ∧ u.err = 0 := by
  obtain ⟨herr, hbound, hrlen, -, -⟩ := hsu
  exact ⟨hrlen, hbound.trans hr.2, herr.trans hr.1⟩

/-- DECRYPT after ENCRYPT, in place. -/
theorem exec_decrypt_encrypted {s : State} {h : Header} (hr : Ready s) (hhd : boundHeader s = some h)
    (hn : (h.payEnd - 8) % 4 = 0) :
    exec .decrypt (encrypted s h) = .next (decrypted (encrypted s h) h) ∧
      SameRecord s (decrypted (encrypted s h) h) := by
  obtain ⟨hpay, -⟩ := boundHeader_regions hhd
  obtain ⟨hr', hhd'⟩ := ready_of_sameRecord (sameRecord_encrypted hpay hn) hr hhd
  exact ⟨exec_decrypt_inPlace hr' hhd' hn,
    sameRecord_trans (sameRecord_encrypted hpay hn) (sameRecord_decrypted hpay hn)⟩

/-- Settles O55: DECRYPT finds the sum ENCRYPT stored, and with it the payload. -/
theorem decryptAfterEncryptRestoresPayload : Obligations.DecryptAfterEncryptRestoresPayload := by
  intro s h hr hhd hn
  obtain ⟨hpay, -⟩ := boundHeader_regions hhd
  obtain ⟨hexec, hsame⟩ := exec_decrypt_encrypted hr hhd hn
  obtain ⟨hrlen, hbound, herr⟩ := registers_of_sameRecord hsame hr
  have hbytes := recByte_decrypted_encrypted (s := s) hpay hn
  have hsum : memRead (decrypted (encrypted s h) h) 6 2 = leBytes 2 (encryptKey s h).toNat := by
    rw [decrypted, memRead_splice_apart hpay (length_deciphered_inPlace _ _ hn) (.inl (by omega)),
      memRead_encrypted_sum hpay hn]
  refine ⟨_, _, exec_encrypt_inPlace hr hhd hn, hexec, hrlen, hbound, herr, fun a ha => ?_, ?_, ?_, ?_⟩
  · rw [hbytes]
    rcases ha with ha | ha
    · rw [if_pos (by omega), headByte, if_pos ha]
    · rw [if_neg (by omega)]
  · rw [hbytes]
    rfl
  · rw [hbytes]
    rfl
  · rw [hsum, le_leBytes_two]
    rfl

/-- The stored checksum, written back in its two bytes, is what stands there. -/
theorem leBytes_storedChecksum (s : State) : leBytes 2 (storedChecksum s).toNat = memRead s 6 2 := by
  rw [toNat_storedChecksum]
  exact leBytes_le (memRead s 6 2)

/-- The header ENCRYPT writes with the checksum that is stored already: only bytes 4 and 5 can change. -/
theorem headByte_storedChecksum (s : State) {x : Nat} (hx : x < 8) :
    headByte s (storedChecksum s) x = if x = 4 ∨ x = 5 then 0 else s.recByte x := by
  rw [headByte, leBytes_storedChecksum]
  by_cases h4 : x < 4
  · rw [if_pos h4, if_neg (by omega)]
  · rw [if_neg h4]
    by_cases h6 : x < 6
    · rw [if_pos h6, if_pos (by omega)]
    · rw [if_neg h6, if_neg (by omega)]
      exact getD_memRead s (by omega) (by omega)

/-- Settles O56: the shuffle of blocks of even length keeps the sum, so ENCRYPT stores the checksum that stood there,
and bytes 4 and 5 were zero. -/
theorem decryptAfterEncryptIsIdentity : Obligations.DecryptAfterEncryptIsIdentity := by
  rintro s h hr hhd hn8 ⟨hbyte4, hbyte5, hsum⟩
  have hn : (h.payEnd - 8) % 4 = 0 := by omega
  obtain ⟨hpay, -⟩ := boundHeader_regions hhd
  obtain ⟨hexec, hsame⟩ := exec_decrypt_encrypted hr hhd hn
  obtain ⟨hrlen, hbound, herr⟩ := registers_of_sameRecord hsame hr
  have hkey : encryptKey s h = storedChecksum s := by
    rw [hsum, payloadSum, encryptKey, shuffledRegion, sum16_popSeq (shiftOf_lt _) (by rwa [length_memRead])]
  refine ⟨_, _, exec_encrypt_inPlace hr hhd hn, hexec, hrlen, hbound, herr, fun a => ?_⟩
  rw [recByte_decrypted_encrypted hpay hn, hkey]
  by_cases ha : a < 8
  · rw [if_pos ha, headByte_storedChecksum s ha]
    split
    · rename_i h45
      rcases h45 with rfl | rfl
      · exact hbyte4.symm
      · exact hbyte5.symm
    · rfl
  · rw [if_neg ha]

/-- Settles O57: the payload shuffled back sums to the stored checksum, which seeds the stream that was taken off. -/
theorem encryptAfterDecryptRestoresRecord : Obligations.EncryptAfterDecryptRestoresRecord := by
  intro s h hr hhd hn hsum
  obtain ⟨hpay, -⟩ := boundHeader_regions hhd
  have hsameD := sameRecord_decrypted (s := s) hpay hn
  obtain ⟨hr', hhd'⟩ := ready_of_sameRecord hsameD hr hhd
  have hsame := sameRecord_trans hsameD (sameRecord_encrypted (s := decrypted s h) hpay hn)
  obtain ⟨hrlen, hbound, herr⟩ := registers_of_sameRecord hsame hr
  have hshuffled := shuffled_decrypted (s := s) hpay hn
  have hkey : encryptKey (decrypted s h) h = storedChecksum s := by rw [encryptKey, hshuffled, ← hsum]
  have hstored : storedChecksum (decrypted s h) = storedChecksum s := by
    rw [storedChecksum, decrypted, memRead_splice_apart hpay (length_deciphered_inPlace s _ hn) (.inl (by omega)),
      ← storedChecksum]
  refine ⟨_, _, exec_decrypt_inPlace hr hhd hn, exec_encrypt_inPlace hr' hhd' hn, hrlen, hbound, herr, fun a => ?_⟩
  rw [recByte_encrypted hpay hn, hkey, hshuffled, lcgXor_lcgXor, ← hstored]
  by_cases ha : 8 ≤ a ∧ a < h.payEnd
  · rw [if_pos ha, if_neg (by omega)]
    exact getD_memRead s ha.1 (by omega)
  · rw [if_neg ha]
    have hkept : (decrypted s h).recByte a = s.recByte a := by rw [recByte_decrypted hpay hn, if_neg ha]
    by_cases h8 : a < 8
    · rw [if_pos h8, headByte_storedChecksum _ h8, hkept]
    · rw [if_neg h8, if_neg (by omega), hkept]

/-! The tail commands in place. -/

section
variable {s : State} {h : Header} (hpay : 8 ≤ h.payEnd) (htail : h.payEnd ≤ h.tailEnd)
  (hn : (h.tailEnd - h.payEnd) % 4 = 0)
include htail hn

theorem sameRecord_tencrypted : SameRecord s (tencrypted s h) :=
  sameRecord_splice ⟨rfl, rfl, rfl, rfl, rfl⟩ htail (length_shuffled_inPlace s _ hn)

theorem sameRecord_tdecrypted : SameRecord s (tdecrypted s h) :=
  sameRecord_splice ⟨rfl, rfl, rfl, rfl, rfl⟩ htail (length_deciphered_inPlace s _ hn)

theorem recByte_tencrypted (x : Nat) :
    (tencrypted s h).recByte x =
      if h.payEnd ≤ x ∧ x < h.tailEnd then
        (lcgXor (personality s) (shuffledRegion s h.payEnd h.tailEnd)).getD (x - h.payEnd) 0
      else s.recByte x :=
  recByte_splice_inPlace (s := { s with cksum := sum16 (shuffledRegion s h.payEnd h.tailEnd) }) htail
    (length_shuffled_inPlace s _ hn) x

theorem recByte_tdecrypted (x : Nat) :
    (tdecrypted s h).recByte x =
      if h.payEnd ≤ x ∧ x < h.tailEnd then
        (decipheredRegion s (personality s) h.payEnd h.tailEnd).getD (x - h.payEnd) 0
      else s.recByte x :=
  recByte_splice_inPlace htail (length_deciphered_inPlace s _ hn) x

theorem memRead_tencrypted_tail :
    memRead (tencrypted s h) h.payEnd (h.tailEnd - h.payEnd) =
      lcgXor (personality s) (shuffledRegion s h.payEnd h.tailEnd) :=
  memRead_splice_inPlace htail (length_shuffled_inPlace s _ hn)

theorem memRead_tdecrypted_tail :
    memRead (tdecrypted s h) h.payEnd (h.tailEnd - h.payEnd) =
      decipheredRegion s (personality s) h.payEnd h.tailEnd :=
  memRead_splice_inPlace htail (length_deciphered_inPlace s _ hn)

include hpay

theorem personality_tencrypted : personality (tencrypted s h) = personality s := by
  refine personality_congr (memRead_congr _ _ _ _ fun x _ hx => ?_)
  rw [recByte_tencrypted htail hn, if_neg (by omega)]

theorem personality_tdecrypted : personality (tdecrypted s h) = personality s := by
  refine personality_congr (memRead_congr _ _ _ _ fun x _ hx => ?_)
  rw [recByte_tdecrypted htail hn, if_neg (by omega)]

/-- TDECRYPT after TENCRYPT gives every byte back. -/
theorem recByte_tdecrypted_tencrypted (x : Nat) : (tdecrypted (tencrypted s h) h).recByte x = s.recByte x := by
  have hpv := personality_tencrypted (s := s) hpay htail hn
  have hregion : decipheredRegion (tencrypted s h) (personality (tencrypted s h)) h.payEnd h.tailEnd =
      memRead s h.payEnd (h.tailEnd - h.payEnd) := by
    rw [hpv]
    exact deciphered_of_shuffled hn hpv (memRead_tencrypted_tail htail hn)
  rw [recByte_tdecrypted htail hn, hregion, recByte_tencrypted htail hn]
  by_cases hx : h.payEnd ≤ x ∧ x < h.tailEnd
  · rw [if_pos hx]
    exact getD_memRead s hx.1 (by omega)
  · rw [if_neg hx, if_neg hx]

/-- TENCRYPT after TDECRYPT gives every byte back. -/
theorem recByte_tencrypted_tdecrypted (x : Nat) : (tencrypted (tdecrypted s h) h).recByte x = s.recByte x := by
  have hpv := personality_tdecrypted (s := s) hpay htail hn
  have hregion : shuffledRegion (tdecrypted s h) h.payEnd h.tailEnd =
      lcgXor (personality s) (memRead s h.payEnd (h.tailEnd - h.payEnd)) :=
    shuffled_of_deciphered hn hpv (memRead_tdecrypted_tail htail hn)
  rw [recByte_tencrypted htail hn, hregion, hpv, lcgXor_lcgXor, recByte_tdecrypted htail hn]
  by_cases hx : h.payEnd ≤ x ∧ x < h.tailEnd
  · rw [if_pos hx]
    exact getD_memRead s hx.1 (by omega)
  · rw [if_neg hx, if_neg hx]

end

theorem exec_tencrypt_inPlace {s : State} {h : Header} (hr : Ready s) (hhd : boundHeader s = some h)
    (hn : (h.tailEnd - h.payEnd) % 4 = 0) : exec .tencrypt s = .next (tencrypted s h) :=
  (exec_tencrypt hr hhd).1 (fits_of_growth_eq_zero hhd hn)

theorem exec_tdecrypt_inPlace {s : State} {h : Header} (hr : Ready s) (hhd : boundHeader s = some h)
    (hn : (h.tailEnd - h.payEnd) % 4 = 0) : exec .tdecrypt s = .next (tdecrypted s h) :=
  (exec_tdecrypt hr hhd).1 (fits_of_growth_eq_zero hhd hn)

/-- Settles O58: neither command writes the personality value, so both use one seed and one shift. -/
theorem tailTransformsUndoEachOther : Obligations.TailTransformsUndoEachOther := by
  intro s h hr hhd hn
  obtain ⟨hpay, htail, -⟩ := boundHeader_regions hhd
  have hsameE (v : State) := sameRecord_tencrypted (s := v) htail hn
  have hsameD (v : State) := sameRecord_tdecrypted (s := v) htail hn
  constructor
  · obtain ⟨hr', hhd'⟩ := ready_of_sameRecord (hsameE s) hr hhd
    obtain ⟨hrlen, hbound, herr⟩ := registers_of_sameRecord (sameRecord_trans (hsameE s) (hsameD _)) hr
    exact ⟨_, _, exec_tencrypt_inPlace hr hhd hn, exec_tdecrypt_inPlace hr' hhd' hn, hrlen, hbound, herr,
      recByte_tdecrypted_tencrypted hpay htail hn⟩
  · obtain ⟨hr', hhd'⟩ := ready_of_sameRecord (hsameD s) hr hhd
    obtain ⟨hrlen, hbound, herr⟩ := registers_of_sameRecord (sameRecord_trans (hsameD s) (hsameE _)) hr
    exact ⟨_, _, exec_tdecrypt_inPlace hr hhd hn, exec_tencrypt_inPlace hr' hhd' hn, hrlen, hbound, herr,
      recByte_tencrypted_tdecrypted hpay htail hn⟩

/-! Payload and tail are apart. -/

/-- A shuffled region depends on its bytes and the personality value. -/
theorem shuffledRegion_congr {s t : State} {a b : Nat} (hpv : personality t = personality s)
    (hread : memRead t a (b - a) = memRead s a (b - a)) : shuffledRegion t a b = shuffledRegion s a b := by
  rw [shuffledRegion, shuffledRegion, hpv, hread]

/-- Settles O59: each command leaves the other's region and the personality value as they were, so each does in either
order what it does alone. -/
theorem encryptAndTencryptCommute : Obligations.EncryptAndTencryptCommute := by
  intro s h hr hhd hp hn
  obtain ⟨hpay, htail, -⟩ := boundHeader_regions hhd
  obtain ⟨hrE, hhdE⟩ := ready_of_sameRecord (sameRecord_encrypted (s := s) hpay hp) hr hhd
  obtain ⟨hrT, hhdT⟩ := ready_of_sameRecord (sameRecord_tencrypted (s := s) htail hn) hr hhd
  have hpvE := personality_encrypted (s := s) hpay hp
  have hpvT := personality_tencrypted (s := s) hpay htail hn
  have htailKept : shuffledRegion (encrypted s h) h.payEnd h.tailEnd = shuffledRegion s h.payEnd h.tailEnd :=
    shuffledRegion_congr hpvE (memRead_congr _ _ _ _ fun x hlo _ => by
      rw [recByte_encrypted hpay hp, if_neg (by omega), if_neg (by omega)])
  have hpayKept : shuffledRegion (tencrypted s h) 8 h.payEnd = shuffledRegion s 8 h.payEnd :=
    shuffledRegion_congr hpvT (memRead_congr _ _ _ _ fun x _ hhi => by
      rw [recByte_tencrypted htail hn, if_neg (by omega)])
  refine ⟨_, _, _, _, exec_encrypt_inPlace hr hhd hp, exec_tencrypt_inPlace hrE hhdE hn,
    exec_tencrypt_inPlace hr hhd hn, exec_encrypt_inPlace hrT hhdT hp, fun a => ?_⟩
  rw [recByte_tencrypted htail hn, recByte_encrypted hpay hp, recByte_encrypted hpay hp, encryptKey, encryptKey, hpvE,
    htailKept, hpayKept, headByte, headByte]
  by_cases hin : h.payEnd ≤ a ∧ a < h.tailEnd
  · rw [if_pos hin, if_neg (by omega), if_neg (by omega), recByte_tencrypted htail hn, if_pos hin]
  · rw [if_neg hin, recByte_tencrypted htail hn, if_neg hin]

end Sys2Proof.Machine
end
